-- ==== Sys2Proof/Word.lean ====
section
/-! DEFINITION. The two word types of the machine: a byte of a stream and a 32-bit register value (R9, R12). -/

namespace Sys2Proof

/-- A byte: 8 bits, bit 7 first in a stream (R9, R83). -/
abbrev Byte := BitVec 8

/-- A register value, a command word or a counter: 32 bits, unsigned (R11, R12). -/
abbrev Word := BitVec 32

end Sys2Proof
end

