-- ==== Sys2Proof/Syntax.lean ====
section
/-! DEFINITION. The commands of HCD: one constructor per row of the opcode table (R121). -/

namespace Sys2Proof

/-- The eleven commands (R121). RD and WR carry the bit count n of format R, the six bits w[5:0] (R123). -/
inductive Instr where
  /-- NOP (R263). -/
  | nop
  /-- RESET (R264). -/
  | reset
  /-- RD n (R165). -/
  | rd (n : BitVec 6)
  /-- WR n (R182). -/
  | wr (n : BitVec 6)
  /-- FLUSH (R184). -/
  | flush
  /-- HENT (R207). -/
  | hent
  /-- HDR (R208). -/
  | hdr
  /-- BSTEP (R233). -/
  | bstep
  /-- BSYM (R234). -/
  | bsym
  /-- BODY (R235). -/
  | body
  /-- DEC (R236). -/
  | dec
deriving DecidableEq, Repr

end Sys2Proof
end

