-- ==== Sys2Proof/WellFormed.lean ====
section
/-! DEFINITION. Which commands the encoding admits: the bit count of RD and WR is 0 to 32 (R123). -/

namespace Sys2Proof

/-- The count check of format R (R123): n <= 32. -/
def countLegal (n : BitVec 6) : Bool := decide (n.toNat ≤ 32)

/-- A command is well formed when its operand is one the encoding calls legal (R122, R123). -/
def Instr.wellFormed : Instr → Bool
  | .nop => true
  | .reset => true
  | .rd n => countLegal n
  | .wr n => countLegal n
  | .flush => true
  | .hent => true
  | .hdr => true
  | .bstep => true
  | .bsym => true
  | .body => true
  | .dec => true

end Sys2Proof
end

