-- ==== Sys2Proof/Decode.lean ====
section
/-! DEFINITION. Decoding a command word (R124), total on 32-bit words and rejecting by name, and the encoder written from
the opcode map (R121). -/

namespace Sys2Proof

/-- Why a word is no command (R125). -/
inductive DecodeError where
  /-- OP is 0xB to 0xF: ILLEGAL_CMD(0). -/
  | reservedOpcode
  /-- A reserved field is not 0: ILLEGAL_CMD(1). -/
  | reservedBits
  /-- Format R with n > 32: ILLEGAL_CMD(2). -/
  | countTooLarge
deriving DecidableEq, Repr

/-- The INFO value of ILLEGAL_CMD (R281). -/
def DecodeError.info : DecodeError → BitVec 8
  | .reservedOpcode => 0
  | .reservedBits => 1
  | .countTooLarge => 2

/-- What decoding a word gives. -/
inductive Decoded where
  /-- The word is this command. -/
  | cmd (i : Instr)
  /-- The word is no command, for this reason. -/
  | illegal (e : DecodeError)
deriving DecidableEq, Repr

/-- OP, w[31:28] (R120). -/
def opField (w : Word) : BitVec 4 := w.extractLsb' 28 4

/-- n, w[5:0] (R123). -/
def countField (w : Word) : BitVec 6 := w.extractLsb' 0 6

/-- Format N: every bit of [27:0] is 0, or the word is ILLEGAL_CMD(1) (R122). -/
def decodeN (w : Word) (i : Instr) : Decoded :=
  if w.extractLsb' 0 28 ≠ 0#28 then .illegal .reservedBits else .cmd i

/-- Format R: bits [27:6] are 0 and n <= 32 (R123), checked in that order (R124). -/
def decodeR (w : Word) (i : BitVec 6 → Instr) : Decoded :=
  if w.extractLsb' 6 22 ≠ 0#22 then .illegal .reservedBits
  else if countLegal (countField w) then .cmd (i (countField w))
  else .illegal .countTooLarge

/-- `Decode(w)` of R124. -/
def decode (w : Word) : Decoded :=
  if opField w = 0x0#4 then decodeN w .nop
  else if opField w = 0x1#4 then decodeN w .reset
  else if opField w = 0x2#4 then decodeR w .rd
  else if opField w = 0x3#4 then decodeR w .wr
  else if opField w = 0x4#4 then decodeN w .flush
  else if opField w = 0x5#4 then decodeN w .hent
  else if opField w = 0x6#4 then decodeN w .hdr
  else if opField w = 0x7#4 then decodeN w .bstep
  else if opField w = 0x8#4 then decodeN w .bsym
  else if opField w = 0x9#4 then decodeN w .body
  else if opField w = 0xA#4 then decodeN w .dec
  else .illegal .reservedOpcode

/-- The opcode of a command (R121); it is the INFO value of ILLEGAL_SEQ (R265). -/
def Instr.opcode : Instr → BitVec 4
  | .nop => 0x0
  | .reset => 0x1
  | .rd _ => 0x2
  | .wr _ => 0x3
  | .flush => 0x4
  | .hent => 0x5
  | .hdr => 0x6
  | .bstep => 0x7
  | .bsym => 0x8
  | .body => 0x9
  | .dec => 0xA

/-- The word of a command, from the encoding column of R121. -/
def encode : Instr → Word
  | .nop => 0x00000000
  | .reset => 0x10000000
  | .rd n => 0x20000000 ||| n.setWidth 32
  | .wr n => 0x30000000 ||| n.setWidth 32
  | .flush => 0x40000000
  | .hent => 0x50000000
  | .hdr => 0x60000000
  | .bstep => 0x70000000
  | .bsym => 0x80000000
  | .body => 0x90000000
  | .dec => 0xA0000000

/-- The command the decoder reads from the low `nbits` bits of `w`, every bit above them 0, numbered as the opcode table
numbers them. A command word is one 32-bit word that moves whole over the bus (R82, R120), so the table's bit i is bit i
of the word. -/
def decodeTableWord (nbits w : Nat) : Option Instr :=
  if w % 2 ^ nbits < 2 ^ 32 then
    match decode (BitVec.ofNat 32 (w % 2 ^ nbits)) with
    | .cmd i => some i
    | .illegal _ => none
  else none

end Sys2Proof
end

