-- ==== Sys2Proof/Config.lean ====
section
/-! DEFINITION. What an implementation of HCD fixes (the synthesis parameters of R10 and R94), and the free values: the
values the spec says the model draws (R59, R185, R324). -/

namespace Sys2Proof

/-- `MAPEND_TAIL` of R10: whether the MAP_END entry carries a code-length field and code bits. -/
inductive MapEndTail where
  /-- The entry has all four fields (the spec's choice, D11). -/
  | fullEntry
  /-- The entry ends after its symbol bytes (the alternative R112 keeps). -/
  | symbolOnly
deriving DecidableEq, Repr

/-- The synthesis parameters (R10), with the base address of the register space on the host's bus (R94). The spec leaves
them OPEN (U15), so a machine holds them as data that no step changes. -/
structure Params where
  /-- `MAP_ENTRIES`: the capacity of the decoding map. -/
  mapEntries : Nat
  /-- `SYM_BYTES_MAX`: the largest symbol an entry can hold, in bytes. -/
  symBytesMax : Nat
  /-- `MAP_END_BYTES`: the sentinel that ends the header. -/
  mapEndBytes : List Byte
  /-- `EOF_BYTES`: the symbol that ends the body. -/
  eofBytes : List Byte
  /-- `MAPEND_TAIL`. -/
  mapEndTail : MapEndTail
  /-- `CHECK_UTF8`. -/
  checkUtf8 : Bool
  /-- `REG_BASE` (R94). -/
  regBase : Nat
deriving DecidableEq, Repr

namespace Config

/-- The parameter values of the spec's test vectors (D39), with REG_BASE 0: the values `State.reset` takes.
DESIGN CHOICE, log 4: the spec leaves every one of them OPEN. -/
def vectorParams : Params where
  mapEntries := 16
  symBytesMax := 16
  mapEndBytes := [0x03#8]
  eofBytes := [0x04#8]
  mapEndTail := .fullEntry
  checkUtf8 := false
  regBase := 0

/-- The value a register read returns while STATUS.BUSY = 1, for the registers R59 leaves undefined then ("a draw").
A free value, log 6. -/
opaque freeWord : Nat → BitVec 32

/-- BW_ACC after IO_ERROR(2), R185. A free value, log 7. -/
opaque freeAcc : Nat → BitVec 8

/-- BW_CNT after IO_ERROR(2), R185: any value its three bits hold. A free value, log 7. -/
opaque freeCnt : Nat → BitVec 3

/-- Whether the host had taken an OUT or WOUT offer that a reset withdraws (R324). A free value, log 8. -/
opaque freeTaken : Nat → Bool

end Config

end Sys2Proof
end

