-- ==== Sys2Proof/Machine/State.lean ====
section
/-! DEFINITION. The state of HCD as plain data: the registers of R32 field by field, the decoding map, the hidden state of
R58, the three byte streams, and the host's moves (R89). -/

namespace Sys2Proof.Machine

/-- The host's answer to a SRC request (R86). -/
inductive SrcAnswer where
  /-- `Byte(b)`. -/
  | byte (b : Byte)
  /-- `End`. -/
  | endOfData
  /-- `Error`. -/
  | error
deriving DecidableEq, Repr

/-- The host's answer to an OUT or WOUT offer (R87). -/
inductive SinkAnswer where
  /-- `Ack`: the byte is taken. -/
  | ack
  /-- `Error`: the host could not write the destination. -/
  | error
deriving DecidableEq, Repr

/-- PEND, the outstanding port request (R58). -/
inductive Pend where
  /-- NONE. -/
  | none
  /-- SRC: a SrcFetch is outstanding. -/
  | src
  /-- OUT(b): byte b is offered on OUT. -/
  | out (b : Byte)
  /-- WOUT(b): byte b is offered on WOUT. -/
  | wout (b : Byte)
deriving DecidableEq, Repr

/-- The line of pseudocode a `ReadBits` call returns to. -/
inductive ReadFor where
  /-- RD (R165). -/
  | rd
  /-- ParseEntry field 1, SYMLEN (R202). -/
  | symLen
  /-- ParseEntry field 2: byte `i` of `s` symbol bytes. -/
  | symByte (s i : Nat)
  /-- The code-length field of the MAP_END entry's tail. -/
  | tailLen
  /-- The code bits of the MAP_END entry's tail. -/
  | tailCode
  /-- ParseEntry field 3, CLEN. -/
  | clen
  /-- ParseEntry field 4, CODE. -/
  | code
  /-- BodyStep's one bit (R230). -/
  | bodyBit
deriving DecidableEq, Repr

/-- The position of a command within its pseudocode (R58), between two operations. -/
inductive Pos where
  /-- In `ReadBits(n)` (R161): `k` bits gathered so far with value `v`; the caller is `r`. -/
  | read (n k : Nat) (v : Word) (r : ReadFor)
  /-- In `Emit(e)` (R231): byte `i` of the symbol comes next. -/
  | emit (e i : Nat)
  /-- In `WriteBits(n, WDATA)` (R181): `i` bits are written. -/
  | write (n i : Nat)
  /-- In FLUSH (R184), at its test of BW_CNT. -/
  | flush
deriving DecidableEq, Repr

/-- CUR: the command in execution and its position (R58). -/
structure Cur where
  instr : Instr
  pos : Pos
deriving DecidableEq, Repr

/-- A valid entry of the decoding map (R54). Its SYMLEN is the length of `sym`. -/
structure MapEntry where
  clen : BitVec 5
  code : BitVec 31
  sym : List Byte
deriving DecidableEq, Repr

/-- The phase (R49). -/
inductive Phase where
  | header
  | body
  | finished
  | error
deriving DecidableEq, Repr

/-- The causes of R281, each with the detail its INFO field records. -/
inductive Cause where
  /-- 1: a header field ended early; the field: 0 SYMLEN, 1 SYM byte, 2 CLEN, 3 CODE. -/
  | hdrTrunc (field : BitVec 8)
  /-- 2. -/
  | hdrZeroLen
  /-- 3. -/
  | hdrSymTooLong
  /-- 4. -/
  | hdrBadUtf8
  /-- 5. -/
  | hdrZeroClen
  /-- 6. -/
  | hdrDupCode
  /-- 7. -/
  | hdrMapFull
  /-- 8: no code matched; the length of the candidate. -/
  | bodyNoMatch (len : BitVec 8)
  /-- 9: the source ended in the body; the length of the unfinished candidate. -/
  | bodyTrunc (len : BitVec 8)
  /-- 10: a port answered `Error`: 0 SRC, 1 OUT, 2 WOUT. -/
  | ioError (port : BitVec 8)
  /-- 11: an undecodable word. -/
  | illegalCmd (info : BitVec 8)
  /-- 12: a command the phase does not allow; its opcode. -/
  | illegalSeq (op : BitVec 8)
  /-- 13: CFG.L is not 1 to 32. -/
  | badConfig
deriving DecidableEq, Repr

/-- A move of the host (R89), or of the rst input (R321). -/
inductive HostEvent where
  /-- A register read of `width` bytes at bus address `addr` (R81). -/
  | read (addr width : Nat)
  /-- A register write of `width` bytes at bus address `addr` (R81). -/
  | write (addr width : Nat) (v : Word)
  /-- The answer to the outstanding SRC request; without one it has no effect (R264). -/
  | answerSrc (a : SrcAnswer)
  /-- The answer to the outstanding OUT offer; without one it has no effect. -/
  | answerOut (a : SinkAnswer)
  /-- The answer to the outstanding WOUT offer; without one it has no effect. -/
  | answerWout (a : SinkAnswer)
  /-- The host makes these answers ready for the SRC requests to come, in order (log 2). -/
  | readySrc (l : List SrcAnswer)
  /-- The host makes these answers ready for the OUT offers to come. -/
  | readyOut (l : List SinkAnswer)
  /-- The host makes these answers ready for the WOUT offers to come. -/
  | readyWout (l : List SinkAnswer)
  /-- The rst input is asserted (`true`) or released (`false`). -/
  | rst (level : Bool)
deriving DecidableEq, Repr

/-- A host move with the time it lands (log 1): `some k` lands after at most `k` more operations of the unit, `none` when
the unit is idle or holds on a port that has no answer ready. -/
structure HostMove where
  after : Option Nat
  event : HostEvent
deriving DecidableEq, Repr

/-- What stops the machine. -/
inductive Fault where
  /-- Raised by `step` when the unit holds on a port and the host makes no further move: R88's "held forever", which U12
  treats as stuck. Safe: no step is claimed where the hardware takes none. -/
  | heldForever
deriving DecidableEq, Repr

/-- What the model gives no meaning. -/
inductive Refusal where
  /-- An instruction without a meaning yet. Raised by no arm of `exec`. Safe. -/
  | notModelled (mnemonic : String)
  /-- A bus access of a width other than 4 bytes or at an offset that is no multiple of 4, raised by `step` for the host's
  move: "A model refuses such an access" (R81, U8). Safe. -/
  | busError
  /-- A bus address outside the 256 bytes from REG_BASE: no access to HCD (R11, R94), raised by `step`. Safe. -/
  | outsideRegisterSpace
deriving DecidableEq, Repr

/-- The machine. Every field names its rule; INVENTORY.md lists them with their reset values. -/
structure State where
  /-- The synthesis parameters (R10, R94); no step changes them. -/
  params : Params
  /-- CFG.L (R36). -/
  cfgL : BitVec 6
  /-- WDATA (R38). -/
  wdata : Word
  /-- STATUS.ERR (R39). -/
  err : Bool
  /-- STATUS.HDR_DONE (R39). -/
  hdrDone : Bool
  /-- STATUS.DONE (R39). -/
  done : Bool
  /-- STATUS.SRC_END (R39). -/
  srcEnd : Bool
  /-- STATUS.OVR (R39). -/
  ovr : Bool
  /-- ERR_CAUSE.CAUSE (R40). -/
  errCause : BitVec 8
  /-- ERR_CAUSE.INFO (R40). -/
  errInfo : BitVec 8
  /-- ERR_POS (R41). -/
  errPos : Word
  /-- RES_VAL (R42). -/
  resVal : Word
  /-- RES_CNT (R43). -/
  resCnt : BitVec 6
  /-- BR_POS (R44). -/
  brPos : Word
  /-- BR_STATE.BR_CNT (R45). -/
  brCnt : BitVec 4
  /-- BR_STATE.BR_BUF (R45). -/
  brBuf : Byte
  /-- BW_POS (R46). -/
  bwPos : Word
  /-- BW_STATE.BW_CNT (R47); it is 8 only while the full byte is offered (R181). -/
  bwCnt : BitVec 4
  /-- BW_STATE.BW_ACC (R47). -/
  bwAcc : Byte
  /-- The valid entries of the decoding map in index order (R54); MAP_COUNT (R48) is the length. -/
  map : List MapEntry
  /-- MAP_STAT.MAXLEN (R48, R56). -/
  maxLen : BitVec 5
  /-- CAND (R50). -/
  cand : Word
  /-- CAND_LEN (R50). -/
  candLen : BitVec 6
  /-- SYM_COUNT (R51). -/
  symCount : Word
  /-- LAST_SYM.V (R52). -/
  lastSymV : Bool
  /-- LAST_SYM.IDX (R52). -/
  lastSymIdx : BitVec 16
  /-- INT_EN.CMDC (R53). -/
  intEnCmdc : Bool
  /-- INT_EN.ERRI (R53). -/
  intEnErri : Bool
  /-- INT_PEND.CMDC (R53). -/
  intPendCmdc : Bool
  /-- INT_PEND.ERRI (R53). -/
  intPendErri : Bool
  /-- MAP_SEL.IDX (R57). -/
  mapSelIdx : BitVec 16
  /-- MAP_SEL.OFF (R57). -/
  mapSelOff : BitVec 16
  /-- PEND (R58). -/
  pend : Pend
  /-- CUR (R58); STATUS.BUSY is 1 while it is not empty. -/
  cur : Option Cur
  /-- SYMBUF (R58). -/
  symBuf : List Byte
  /-- SYMBUF_LEN (R58). -/
  symBufLen : BitVec 16
  /-- The level of the rst input (R321). -/
  rst : Bool
  /-- The SRC bytes fetched since reset (R80); their number is F of R93. -/
  srcStream : List Byte
  /-- The OUT bytes taken since reset (R87). -/
  outStream : List Byte
  /-- The WOUT bytes taken since reset (R87). -/
  woutStream : List Byte
  /-- The OUT bytes of the runs that resets ended (R324; the model's own record, log 8). -/
  outEnded : List Byte
  /-- The WOUT bytes of the runs that resets ended (R324; the model's own record, log 8). -/
  woutEnded : List Byte
  /-- The answers the host has ready on SRC (log 2). -/
  srcReady : List SrcAnswer
  /-- The answers the host has ready on OUT (log 2). -/
  outReady : List SinkAnswer
  /-- The answers the host has ready on WOUT (log 2). -/
  woutReady : List SinkAnswer
  /-- The host's moves still to come (log 1). -/
  moves : List HostMove
  /-- What the last register read returned (R81). -/
  readData : Option Word
  /-- The number of free values drawn so far (log 6). -/
  draws : Nat
deriving DecidableEq, Repr

/-- The machine with parameters `p` right after the rst input is released (R320, R322): every register at the reset column
of R32, every map entry invalid, PEND NONE, CUR empty. SYMBUF is unspecified (R323): empty here, log 9. -/
def State.resetWith (p : Params) : State where
  params := p
  cfgL := 0
  wdata := 0
  err := false
  hdrDone := false
  done := false
  srcEnd := false
  ovr := false
  errCause := 0
  errInfo := 0
  errPos := 0
  resVal := 0
  resCnt := 0
  brPos := 0
  brCnt := 0
  brBuf := 0
  bwPos := 0
  bwCnt := 0
  bwAcc := 0
  map := []
  maxLen := 0
  cand := 0
  candLen := 0
  symCount := 0
  lastSymV := false
  lastSymIdx := 0
  intEnCmdc := false
  intEnErri := false
  intPendCmdc := false
  intPendErri := false
  mapSelIdx := 0
  mapSelOff := 0
  pend := .none
  cur := none
  symBuf := []
  symBufLen := 0
  rst := false
  srcStream := []
  outStream := []
  woutStream := []
  outEnded := []
  woutEnded := []
  srcReady := []
  outReady := []
  woutReady := []
  moves := []
  readData := none
  draws := 0

/-- The machine right after reset, with the parameter values of D39 (log 4). -/
def State.reset : State := State.resetWith Config.vectorParams

end Sys2Proof.Machine
end

