-- ==== Sys2Proof/Machine/Flags.lean ====
section
/-! DEFINITION. The flags and the values computed from them: BUSY, the WAIT bits, irq, the phase, and the STATUS and
INT registers as words (R39, R49, R53, R61). -/

namespace Sys2Proof.Machine

/-- STATUS.BUSY: a command is in execution (R39, R58). -/
def State.busy (s : State) : Bool := s.cur.isSome

/-- STATUS.WAIT_SRC: the unit holds on a SrcFetch (R39, R88). -/
def State.waitSrc (s : State) : Bool := s.pend == .src

/-- STATUS.WAIT_OUT: the unit holds on an OutPut (R39, R88). -/
def State.waitOut (s : State) : Bool :=
  match s.pend with
  | .out _ => true
  | .none => false
  | .src => false
  | .wout _ => false

/-- STATUS.WAIT_WOUT: the unit holds on a WoutPut (R39, R88). -/
def State.waitWout (s : State) : Bool :=
  match s.pend with
  | .wout _ => true
  | .none => false
  | .src => false
  | .out _ => false

/-- The irq output and STATUS.IRQ (R53, R289). -/
def State.irq (s : State) : Bool := (s.intPendCmdc && s.intEnCmdc) || (s.intPendErri && s.intEnErri)

/-- The phase (R49). DONE without HDR_DONE cannot arise; it reads as HEADER, as R49's second line has it. -/
def State.phase (s : State) : Phase :=
  if s.err then .error
  else if !s.hdrDone then .header
  else if !s.done then .body
  else .finished

/-- A word with bit `i` equal to `b` and every other bit 0. -/
def flagBit (b : Bool) (i : Nat) : Word := (BitVec.ofBool b).setWidth 32 <<< i

/-- STATUS as the host reads it (R39). -/
def State.statusWord (s : State) : Word :=
  flagBit s.busy 0 ||| flagBit s.err 1 ||| flagBit s.hdrDone 2 ||| flagBit s.done 3 ||| flagBit s.srcEnd 4 |||
    flagBit s.ovr 5 ||| flagBit s.irq 6 ||| flagBit s.waitSrc 8 ||| flagBit s.waitOut 9 ||| flagBit s.waitWout 10

/-- INT_EN as the host reads it (R53). -/
def State.intEnWord (s : State) : Word := flagBit s.intEnCmdc 0 ||| flagBit s.intEnErri 1

/-- INT_PEND as the host reads it (R53). -/
def State.intPendWord (s : State) : Word := flagBit s.intPendCmdc 0 ||| flagBit s.intPendErri 1

/-- `Allowed(op, phase)` of R265, for the three phases of its table; phase ERROR never reaches it. -/
def allowed (i : Instr) (p : Phase) : Bool :=
  match i with
  | .nop => true
  | .reset => true
  | .rd _ => true
  | .wr _ => true
  | .flush => true
  | .hent => p == .header
  | .hdr => p == .header
  | .dec => p == .header
  | .bstep => p == .body
  | .bsym => p == .body
  | .body => p == .body

end Sys2Proof.Machine
end

