-- ==== Sys2Proof/Machine/Operands.lean ====
section
/-! DEFINITION. Operand forms and the pure computations on them: bit order (R83, R84), the shift-in (R13), the writer's
placement of a bit (R181), Match (R55), symbols (R54), UTF-8 well-formedness (R203), and which parameter values are legal
(R10). -/

namespace Sys2Proof.Machine

/-- Appending one bit to a sequence's value: `(v << 1) | b` (R13, R128). -/
def shiftIn (v : Word) (b : Bool) : Word := (v <<< 1) ||| (BitVec.ofBool b).setWidth 32

/-- The next bit the reader delivers: `BR_BUF[BR_CNT-1]` (R45). -/
def State.nextBit (s : State) : Bool := s.brBuf.getLsbD (s.brCnt.toNat - 1)

/-- `BW_ACC[7-BW_CNT] <- b` (R181). -/
def placeBit (acc : Byte) (cnt : Nat) (b : Bool) : Byte :=
  (acc &&& ~~~(1#8 <<< (7 - cnt))) ||| ((BitVec.ofBool b).setWidth 8 <<< (7 - cnt))

/-- Bit `i` of the n-bit sequence WR writes, counted from the first: `WDATA[n-1-i]` (R38, R127, R181). -/
def writeBit (n i : Nat) (v : Word) : Bool := v.getLsbD (n - 1 - i)

/-- `Match(k, v)` (R55): the index of the valid entry whose code is the sequence `(k, v)`, if there is one. -/
def matchCode (m : List MapEntry) (k : Nat) (v : Word) : Option Nat :=
  m.findIdx? (fun e => e.clen.toNat == k && e.code.setWidth 32 == v)

/-- `MAP[e].SYM[0..SYMLEN-1]` (R54). An invalid index has no symbol; no rule asks for one. -/
def entrySym (m : List MapEntry) (e : Nat) : List Byte :=
  match m[e]? with
  | some x => x.sym
  | none => []

/-- `SYMBUF[i] <- b` (R202). Bytes beyond `i`, left from an earlier entry, are dropped: no rule reads them (R58, log 9). -/
def putSymByte (buf : List Byte) (i : Nat) (b : Byte) : List Byte := buf.take i ++ [b]

/-- A Unicode scalar value (R203, G1): U+0000 to U+D7FF or U+E000 to U+10FFFF. -/
def isScalarValue (v : Nat) : Bool := decide (v < 0xD800) || (decide (0xE000 ≤ v) && decide (v ≤ 0x10FFFF))

/-- The scan behind `WellFormedUTF8` (R203, G1; PRESUMED, log 18): `need` continuation bytes are still due, `v` is the value
gathered so far, and `least` the smallest value whose shortest form has this many bytes. -/
def utf8Scan (need v least : Nat) : List Byte → Bool
  | [] => need == 0
  | a :: rest =>
    match need with
    | 0 =>
      if a.toNat < 0x80 then utf8Scan 0 0 0 rest
      else if a.toNat / 32 = 6 then utf8Scan 1 (a.toNat % 32) 0x80 rest
      else if a.toNat / 16 = 14 then utf8Scan 2 (a.toNat % 16) 0x800 rest
      else if a.toNat / 8 = 30 then utf8Scan 3 (a.toNat % 8) 0x10000 rest
      else false
    | n + 1 =>
      if a.toNat / 64 ≠ 2 then false
      else if n = 0 then
        decide (least ≤ v * 64 + a.toNat % 64) && isScalarValue (v * 64 + a.toNat % 64) && utf8Scan 0 0 0 rest
      else utf8Scan n (v * 64 + a.toNat % 64) least rest

/-- `WellFormedUTF8(s)` (R203, G1): the bytes split wholly into shortest-form encodings of Unicode scalar values. -/
def wellFormedUtf8 (s : List Byte) : Bool := utf8Scan 0 0 0 s

/-- The UTF-8 encoding of exactly one character (R10): well formed, with one byte that is no continuation byte. -/
def isOneChar (s : List Byte) : Bool :=
  wellFormedUtf8 s && (s.filter (fun a => decide (a.toNat / 64 ≠ 2))).length == 1

/-- The legal ranges and constraints of R10. Statements that need them take this as a premise. -/
def paramsLegal (p : Params) : Bool :=
  decide (1 ≤ p.mapEntries) && decide (p.mapEntries ≤ 65536) &&
  decide (1 ≤ p.symBytesMax) && decide (p.symBytesMax ≤ 65535) &&
  isOneChar p.mapEndBytes && isOneChar p.eofBytes && decide (p.mapEndBytes ≠ p.eofBytes) &&
  decide (p.mapEndBytes.length ≤ p.symBytesMax) && decide (p.eofBytes.length ≤ p.symBytesMax)

end Sys2Proof.Machine
end

