-- ==== Sys2Proof/Machine/Ops.lean ====
section
/-! DEFINITION. The operations every command is made of: moving CUR, Complete (R262), error entry (R284) and the resets that
leave it (R264, R320), delivering and writing one bit (R161, R181), and the port answers (R86, R87). -/

namespace Sys2Proof.Machine

/-- The code of a cause, ERR_CAUSE.CAUSE (R281). -/
def Cause.code : Cause → BitVec 8
  | .hdrTrunc _ => 1
  | .hdrZeroLen => 2
  | .hdrSymTooLong => 3
  | .hdrBadUtf8 => 4
  | .hdrZeroClen => 5
  | .hdrDupCode => 6
  | .hdrMapFull => 7
  | .bodyNoMatch _ => 8
  | .bodyTrunc _ => 9
  | .ioError _ => 10
  | .illegalCmd _ => 11
  | .illegalSeq _ => 12
  | .badConfig => 13

/-- The detail of a cause, ERR_CAUSE.INFO (R281). -/
def Cause.info : Cause → BitVec 8
  | .hdrTrunc f => f
  | .hdrZeroLen => 0
  | .hdrSymTooLong => 0
  | .hdrBadUtf8 => 0
  | .hdrZeroClen => 0
  | .hdrDupCode => 0
  | .hdrMapFull => 0
  | .bodyNoMatch n => n
  | .bodyTrunc n => n
  | .ioError p => p
  | .illegalCmd i => i
  | .illegalSeq op => op
  | .badConfig => 0

/-- Command `i` is at position `p` of its pseudocode (R58). -/
def goTo (i : Instr) (p : Pos) (s : State) : State := { s with cur := some { instr := i, pos := p } }

/-- `Complete()` (R262): BUSY becomes 0 with CUR, and INT_PEND.CMDC is set. -/
def complete (s : State) : State := { s with cur := none, intPendCmdc := true }

/-- `raise C(info)`, error entry (R284). SYMBUF and SYMBUF_LEN are unspecified afterwards (R203, R285, U4): that they keep the
bytes parsed so far is the model's choice (log 9). -/
def raise (c : Cause) (s : State) : State :=
  { s with
    cur := none
    pend := .none
    err := true
    errCause := c.code
    errInfo := c.info
    errPos := s.brPos
    intPendErri := true
    intPendCmdc := true }

/-- `raise IO_ERROR(2)`: BW_ACC and BW_CNT hold unspecified values afterwards (R185), drawn here once (log 7). -/
def raiseWout (s : State) : State :=
  raise (.ioError 2)
    { s with
      bwAcc := Config.freeAcc s.draws
      bwCnt := (Config.freeCnt s.draws).setWidth 4
      draws := s.draws + 1 }

/-- The OUT bytes the host has taken when a reset ends the run: a withdrawn offer may or may not be among them (R324, U6;
a free value, log 8). -/
def outTaken (s : State) : List Byte :=
  match s.pend with
  | .out b => if Config.freeTaken s.draws then s.outStream ++ [b] else s.outStream
  | .none => s.outStream
  | .src => s.outStream
  | .wout _ => s.outStream

/-- The same for WOUT (R324, U6). -/
def woutTaken (s : State) : List Byte :=
  match s.pend with
  | .wout b => if Config.freeTaken s.draws then s.woutStream ++ [b] else s.woutStream
  | .none => s.woutStream
  | .src => s.woutStream
  | .out _ => s.woutStream

/-- `SoftReset()` (R264): CUR aborted, PEND withdrawn, every register marked "reset" in R32 at its reset value, every map
entry invalid, the streams restarted (R324). CFG, WDATA, INT_EN and MAP_SEL keep their values. The answers the host had
ready belong to the run that ends (log 16). -/
def softReset (s : State) : State :=
  { s with
    err := false
    hdrDone := false
    done := false
    srcEnd := false
    ovr := false
    errCause := 0
    errInfo := 0
    errPos := 0
    resVal := 0
    resCnt := 0
    brPos := 0
    brCnt := 0
    brBuf := 0
    bwPos := 0
    bwCnt := 0
    bwAcc := 0
    map := []
    maxLen := 0
    cand := 0
    candLen := 0
    symCount := 0
    lastSymV := false
    lastSymIdx := 0
    intPendCmdc := false
    intPendErri := false
    pend := .none
    cur := none
    symBuf := []
    symBufLen := 0
    srcStream := []
    outStream := []
    woutStream := []
    outEnded := s.outEnded ++ outTaken s
    woutEnded := s.woutEnded ++ woutTaken s
    srcReady := []
    outReady := []
    woutReady := []
    draws := s.draws + 1 }

/-- Hardware reset (R320): what RESET does, and CFG, WDATA, INT_EN and MAP_SEL become 0 too. -/
def hardReset (s : State) : State :=
  { softReset s with
    cfgL := 0
    wdata := 0
    intEnCmdc := false
    intEnErri := false
    mapSelIdx := 0
    mapSelOff := 0 }

/-- One bit leaves the reader's buffer (R161). -/
def takeBit (s : State) : State := { s with brCnt := s.brCnt - 1, brPos := s.brPos + 1 }

/-- One bit enters the writer's accumulator (R181). -/
def putBit (b : Bool) (s : State) : State :=
  { s with bwAcc := placeBit s.bwAcc s.bwCnt.toNat b, bwCnt := s.bwCnt + 1, bwPos := s.bwPos + 1 }

/-- The SRC port's answer to a fetch (R161): a byte fills the buffer, `End` sets SRC_END, `Error` is IO_ERROR(0). -/
def answerSrc (a : SrcAnswer) (s : State) : State :=
  match a with
  | .byte b => { s with pend := .none, brBuf := b, brCnt := 8, srcStream := s.srcStream ++ [b] }
  | .endOfData => { s with pend := .none, srcEnd := true }
  | .error => raise (.ioError 0) s

/-- The OUT port's answer to the offer of `b` (R231): `Ack` takes the byte, `Error` is IO_ERROR(1). -/
def answerOut (a : SinkAnswer) (b : Byte) (s : State) : State :=
  match a with
  | .ack => { s with pend := .none, outStream := s.outStream ++ [b] }
  | .error => raise (.ioError 1) s

/-- The WOUT port's answer to the offer of `b` (R181, R184): `Ack` takes the byte and clears the accumulator, `Error` is
IO_ERROR(2). -/
def answerWout (a : SinkAnswer) (b : Byte) (s : State) : State :=
  match a with
  | .ack => { s with pend := .none, woutStream := s.woutStream ++ [b], bwAcc := 0, bwCnt := 0 }
  | .error => raiseWout s

/-- A `ReadBits(n)` call by `r` begins (R161). -/
def startRead (i : Instr) (n : Nat) (r : ReadFor) (s : State) : State := goTo i (.read n 0 0 r) s

end Sys2Proof.Machine
end

