-- ==== Sys2Proof/Machine/BitReaderOps.lean ====
section
/-! DEFINITION. BR, the bit reader: what RD does with the bits it gets (R165). The reading itself is `readOp` of Unit.lean,
which every consumer shares (R160). -/

namespace Sys2Proof.Machine

/-- The end of RD (R165): the sequence goes to RES_VAL and RES_CNT, and the command completes. -/
def rdReturn (k : Nat) (v : Word) (s : State) : State :=
  complete { s with resVal := v, resCnt := BitVec.ofNat 6 k }

end Sys2Proof.Machine
end

