-- ==== Sys2Proof/Machine/BitWriterOps.lean ====
section
/-! DEFINITION. BW, the bit writer: one operation of `WriteBits` (R181) and of FLUSH (R184). -/

namespace Sys2Proof.Machine

/-- One operation of `WriteBits(n, WDATA)` in a WR (R181, R182): write bit `i`, and offer the byte on WOUT as soon as it is
full (R183); after the last bit the command completes. -/
def writeOp (c : Instr) (n i : Nat) (s : State) : State :=
  if i < n then
    let t := goTo c (.write n (i + 1)) (putBit (writeBit n i s.wdata) s)
    if t.bwCnt = 8 then { t with pend := .wout t.bwAcc } else t
  else complete s

/-- FLUSH's test of BW_CNT (R184): offer the padded byte, or complete when nothing is left to send. -/
def flushOp (s : State) : State :=
  if s.bwCnt = 0 then complete s else { s with pend := .wout s.bwAcc }

end Sys2Proof.Machine
end

