-- ==== Sys2Proof/Machine/BodyOps.lean ====
section
/-! DEFINITION. BD, the body decoder: BodyStep (R230), Emit (R231) and what follows a step in BSTEP, BSYM, BODY and DEC
(R233 to R236). -/

namespace Sys2Proof.Machine

/-- BodyStep begins: `ReadBits(1)` (R230). -/
def startBodyStep (c : Instr) (s : State) : State := startRead c 1 .bodyBit s

/-- `while STATUS.DONE = 0: BodyStep()`, then Complete (R235, R236). -/
def bodyLoop (c : Instr) (s : State) : State := if s.done then complete s else startBodyStep c s

/-- What the command does when its BodyStep has returned; `matched` says whether it returned an entry (R233 to R236).
A command that takes no body step ends here; none gets here. -/
def afterBodyStep (c : Instr) (matched : Bool) (s : State) : State :=
  match c with
  | .bstep => complete s
  | .bsym => if matched then complete s else startBodyStep .bsym s
  | .body => bodyLoop .body s
  | .dec => bodyLoop .dec s
  | .nop => complete s
  | .reset => complete s
  | .rd _ => complete s
  | .wr _ => complete s
  | .flush => complete s
  | .hent => complete s
  | .hdr => complete s

/-- BodyStep after a match of entry `e` (R230): LAST_SYM, the candidate cleared, then the EOF stop (R232) or Emit (R231). -/
def bodyMatch (c : Instr) (e : Nat) (s : State) : State :=
  let t := { s with lastSymV := true, lastSymIdx := BitVec.ofNat 16 e, cand := 0, candLen := 0 }
  if entrySym t.map e = t.params.eofBytes then afterBodyStep c true { t with done := true }
  else goTo c (.emit e 0) t

/-- BodyStep without a match (R230, R238): the overlong candidate is an error, a shorter one goes on. -/
def bodyNoMatchYet (c : Instr) (s : State) : State :=
  if s.maxLen.toNat < s.candLen.toNat then raise (.bodyNoMatch (s.candLen.setWidth 8)) s
  else afterBodyStep c false s

/-- BodyStep once its read has returned `k` bits with value `v` (R230). -/
def bodyBitReturn (c : Instr) (k : Nat) (v : Word) (s : State) : State :=
  if k = 0 then raise (.bodyTrunc (s.candLen.setWidth 8)) s
  else
    let t := { s with cand := shiftIn s.cand (v.getLsbD 0), candLen := s.candLen + 1 }
    match matchCode t.map t.candLen.toNat t.cand with
    | some e => bodyMatch c e t
    | none => bodyNoMatchYet c t

/-- One operation of `Emit(e)` (R231): offer byte `i`, or, after the last byte, count the symbol (R230). -/
def emitOp (c : Instr) (e i : Nat) (s : State) : State :=
  match (entrySym s.map e)[i]? with
  | some b => { goTo c (.emit e (i + 1)) s with pend := .out b }
  | none => afterBodyStep c true { s with symCount := s.symCount + 1 }

end Sys2Proof.Machine
end

