-- ==== Sys2Proof/Machine/HeaderOps.lean ====
section
/-! DEFINITION. HP, the header parser: ParseEntry (R202) field by field, and what follows an entry in HENT, HDR and DEC
(R207, R208, R236). -/

namespace Sys2Proof.Machine

/-- `CFG.L < 1 or CFG.L > 32` (R201). -/
def lengthIllegal (s : State) : Bool := decide (s.cfgL.toNat < 1) || decide (32 < s.cfgL.toNat)

/-- ParseEntry begins: `ReadBits(L)` with L = CFG.L (R202). -/
def startEntry (c : Instr) (s : State) : State := startRead c s.cfgL.toNat .symLen s

/-- What the command does when ParseEntry has returned (R207, R208, R236). A command that parses no entry ends here; none
gets here. -/
def afterEntry (c : Instr) (s : State) : State :=
  match c with
  | .hent => complete s
  | .hdr => if s.hdrDone then complete s else startEntry .hdr s
  | .dec => if s.hdrDone then bodyLoop .dec s else startEntry .dec s
  | .nop => complete s
  | .reset => complete s
  | .rd _ => complete s
  | .wr _ => complete s
  | .flush => complete s
  | .bstep => complete s
  | .bsym => complete s
  | .body => complete s

/-- `STATUS.HDR_DONE <- 1; return` (R204). -/
def headerEnd (c : Instr) (s : State) : State := afterEntry c { s with hdrDone := true }

/-- The symbol of the entry being parsed: `SYMBUF[0..SYMBUF_LEN-1]` (R202). -/
def parsedSym (s : State) : List Byte := s.symBuf.take s.symBufLen.toNat

/-- ParseEntry after field 2 (R202, R203, R204): the UTF-8 check, then the MAP_END entry's tail or field 3. -/
def afterSymbol (c : Instr) (s : State) : State :=
  if s.params.checkUtf8 && !wellFormedUtf8 (parsedSym s) then raise .hdrBadUtf8 s
  else if parsedSym s = s.params.mapEndBytes then
    match s.params.mapEndTail with
    | .fullEntry => startRead c 5 .tailLen s
    | .symbolOnly => headerEnd c s
  else startRead c 5 .clen s

/-- ParseEntry after field 1 (R202, R203): `n` bits were asked for, `k` came with value `v`. -/
def symLenReturn (c : Instr) (n k : Nat) (v : Word) (s : State) : State :=
  if k < n then raise (.hdrTrunc 0) s
  else if v.toNat = 0 then raise .hdrZeroLen s
  else if s.params.symBytesMax < v.toNat then raise .hdrSymTooLong s
  else startRead c 8 (.symByte v.toNat 0) s

/-- ParseEntry after symbol byte `i` of `n` (R202): the byte goes to SYMBUF, and after the last one SYMBUF_LEN is set. -/
def symByteReturn (c : Instr) (n i k : Nat) (v : Word) (s : State) : State :=
  if k < 8 then raise (.hdrTrunc 1) s
  else
    let t := { s with symBuf := putSymByte s.symBuf i (v.setWidth 8) }
    if i + 1 < n then startRead c 8 (.symByte n (i + 1)) t
    else afterSymbol c { t with symBufLen := BitVec.ofNat 16 n }

/-- The MAP_END entry's code-length field (R204): any value is accepted, and that many bits are read. -/
def tailLenReturn (c : Instr) (k : Nat) (v : Word) (s : State) : State :=
  if k < 5 then raise (.hdrTrunc 2) s else startRead c v.toNat .tailCode s

/-- The MAP_END entry's code bits (R204): discarded, and the header is done. -/
def tailCodeReturn (c : Instr) (n k : Nat) (s : State) : State :=
  if k < n then raise (.hdrTrunc 3) s else headerEnd c s

/-- ParseEntry after field 3 (R202, R205). -/
def clenReturn (c : Instr) (k : Nat) (v : Word) (s : State) : State :=
  if k < 5 then raise (.hdrTrunc 2) s
  else if v.toNat = 0 then raise .hdrZeroClen s
  else startRead c v.toNat .code s

/-- The map with the new entry appended at index MAP_COUNT, and MAXLEN (R202, R206). -/
def insertEntry (clen : BitVec 5) (code : BitVec 31) (s : State) : State :=
  { s with
    map := s.map ++ [{ clen := clen, code := code, sym := parsedSym s }]
    maxLen := if s.maxLen.toNat < clen.toNat then clen else s.maxLen }

/-- ParseEntry after field 4 (R202, R206): the duplicate check, then the capacity check (R287), then the insertion. -/
def codeReturn (c : Instr) (n k : Nat) (v : Word) (s : State) : State :=
  if k < n then raise (.hdrTrunc 3) s
  else if (matchCode s.map n v).isSome then raise .hdrDupCode s
  else if s.map.length = s.params.mapEntries then raise .hdrMapFull s
  else afterEntry c (insertEntry (BitVec.ofNat 5 n) (v.setWidth 31) s)

end Sys2Proof.Machine
end

