-- ==== Sys2Proof/Machine/Unit.lean ====
section
/-! DEFINITION. The unit: one operation of the command in execution (R261), running it until it rests, and accepting a
command (R260). -/

namespace Sys2Proof.Machine

/-- A `ReadBits` call has returned `(k, v)` to `r`; `n` bits were asked for. -/
def readReturn (c : Instr) (r : ReadFor) (n k : Nat) (v : Word) (s : State) : State :=
  match r with
  | .rd => rdReturn k v s
  | .symLen => symLenReturn c n k v s
  | .symByte m i => symByteReturn c m i k v s
  | .tailLen => tailLenReturn c k v s
  | .tailCode => tailCodeReturn c n k s
  | .clen => clenReturn c k v s
  | .code => codeReturn c n k v s
  | .bodyBit => bodyBitReturn c k v s

/-- One operation of `ReadBits(n)` (R161): return, request a byte (only when the buffer is empty and a bit is wanted, R162,
and never after End, R163), or deliver one bit. -/
def readOp (c : Instr) (n k : Nat) (v : Word) (r : ReadFor) (s : State) : State :=
  if k < n then
    if s.brCnt = 0 then
      if s.srcEnd then readReturn c r n k v s else { s with pend := .src }
    else goTo c (.read n (k + 1) (shiftIn v s.nextBit) r) (takeBit s)
  else readReturn c r n k v s

/-- One operation at a position with no port request outstanding. -/
def posOp (c : Instr) (p : Pos) (s : State) : State :=
  match p with
  | .read n k v r => readOp c n k v r s
  | .emit e i => emitOp c e i s
  | .write n i => writeOp c n i s
  | .flush => flushOp s

/-- One operation of the unit (R261). While a port request is outstanding it takes no other step than the port's answer
(R88), which comes from the answers the host has ready (log 2); without one it holds. -/
def unitOp (s : State) : State :=
  match s.cur with
  | none => s
  | some c =>
    match s.pend with
    | .none => posOp c.instr c.pos s
    | .src =>
      match s.srcReady with
      | [] => s
      | a :: l => answerSrc a { s with srcReady := l }
    | .out b =>
      match s.outReady with
      | [] => s
      | a :: l => answerOut a b { s with outReady := l }
    | .wout b =>
      match s.woutReady with
      | [] => s
      | a :: l => answerWout a b { s with woutReady := l }

/-- The unit has no operation to perform: it is idle, or it holds on a port with no answer ready (R88, R305). -/
def State.atRest (s : State) : Bool :=
  match s.cur with
  | none => true
  | some _ =>
    match s.pend with
    | .none => false
    | .src => s.srcReady.isEmpty
    | .out _ => s.outReady.isEmpty
    | .wout _ => s.woutReady.isEmpty

/-- At most `k` operations of the unit, stopping where it rests. -/
def unitOps : Nat → State → State
  | 0, s => s
  | k + 1, s => if s.atRest then s else unitOps k (unitOp s)

/-- A number of operations after which the unit rests, however it got here: each buffered bit and each ready answer allows a
bounded number of them (log 20). -/
def opBudget (s : State) : Nat :=
  256 + 64 * (s.brCnt.toNat + s.srcReady.length + s.outReady.length + s.woutReady.length)

/-- How many operations the unit performs before the host's next move lands (R261, log 1). -/
def slice (s : State) : Nat :=
  match s.moves with
  | [] => opBudget s
  | m :: _ => m.after.getD (opBudget s)

/-- The next move is due once the unit has performed its operations. -/
def markDue (s : State) : State :=
  match s.moves with
  | [] => s
  | m :: l => { s with moves := { m with after := m.after.map (fun _ => 0) } :: l }

/-- The unit runs until it rests or the host's next move lands (R261). -/
def unitRun (s : State) : State := unitOps (slice s) (markDue s)

/-- Accepting command `i`, whose pseudocode begins with `start` (R260, R290): dropped with OVR while BUSY, ignored in phase
ERROR, ILLEGAL_SEQ where the phase does not allow it (R265), else run. BUSY <- 1, the checks and the first operation are one
move, in which no host move lands (log 28). -/
def startCommand (i : Instr) (start : State → State) (s : State) : Host.Outcome State Fault Refusal :=
  if s.busy then .next { s with ovr := true }
  else if s.err then .next s
  else if !allowed i s.phase then .next (raise (.illegalSeq (i.opcode.setWidth 8)) s)
  else .next (unitRun (start s))

end Sys2Proof.Machine
end

