-- ==== Sys2Proof/Machine/BitReader.lean ====
section
/-! DEFINITION. RD (R165). -/

namespace Sys2Proof.Machine

/-- RD begins with `ReadBits(n)` (R165). A count above 32, which no decoded word has, is ILLEGAL_CMD(2) here too (R123,
log 23, log 28). -/
def startRd (n : BitVec 6) (s : State) : State :=
  if countLegal n then startRead (.rd n) n.toNat .rd s else raise (.illegalCmd DecodeError.countTooLarge.info) s

/-- RD n (R165). -/
def execRd (n : BitVec 6) (s : State) : Host.Outcome State Fault Refusal := startCommand (.rd n) (startRd n) s

end Sys2Proof.Machine
end

