-- ==== Sys2Proof/Machine/BitWriter.lean ====
section
/-! DEFINITION. WR (R182) and FLUSH (R184). -/

namespace Sys2Proof.Machine

/-- WR begins with `WriteBits(n, WDATA)` (R182). A count above 32, which no decoded word has, is ILLEGAL_CMD(2) here too
(R123, log 23, log 28). -/
def startWr (n : BitVec 6) (s : State) : State :=
  if countLegal n then goTo (.wr n) (.write n.toNat 0) s else raise (.illegalCmd DecodeError.countTooLarge.info) s

/-- WR n (R182). -/
def execWr (n : BitVec 6) (s : State) : Host.Outcome State Fault Refusal := startCommand (.wr n) (startWr n) s

/-- FLUSH (R184). -/
def execFlush (s : State) : Host.Outcome State Fault Refusal := startCommand .flush (goTo .flush .flush) s

end Sys2Proof.Machine
end

