-- ==== Sys2Proof/Machine/HeaderParser.lean ====
section
/-! DEFINITION. HENT (R207) and HDR (R208). -/

namespace Sys2Proof.Machine

/-- The start of HENT, HDR and DEC: CFG.L is checked before any bit is read (R201), then ParseEntry begins.
BAD_CONFIG ends the command in the move that accepts it (log 28). -/
def startHeader (c : Instr) (s : State) : State := if lengthIllegal s then raise .badConfig s else startEntry c s

/-- HENT (R207). -/
def execHent (s : State) : Host.Outcome State Fault Refusal := startCommand .hent (startHeader .hent) s

/-- HDR (R208). -/
def execHdr (s : State) : Host.Outcome State Fault Refusal := startCommand .hdr (startHeader .hdr) s

end Sys2Proof.Machine
end

