-- ==== Sys2Proof/Machine/BodyDecoder.lean ====
section
/-! DEFINITION. BSTEP (R233), BSYM (R234), BODY (R235) and DEC (R236). -/

namespace Sys2Proof.Machine

/-- BSTEP (R233). -/
def execBstep (s : State) : Host.Outcome State Fault Refusal := startCommand .bstep (startBodyStep .bstep) s

/-- BSYM (R234). -/
def execBsym (s : State) : Host.Outcome State Fault Refusal := startCommand .bsym (startBodyStep .bsym) s

/-- BODY (R235). -/
def execBody (s : State) : Host.Outcome State Fault Refusal := startCommand .body (bodyLoop .body) s

/-- DEC (R236): the header loop, then the body loop. -/
def execDec (s : State) : Host.Outcome State Fault Refusal := startCommand .dec (startHeader .dec) s

end Sys2Proof.Machine
end

