-- ==== Sys2Proof/Machine/Control.lean ====
section
/-! DEFINITION. NOP and RESET (R263, R264). -/

namespace Sys2Proof.Machine

/-- NOP (R263): Complete and nothing else. It is accepted and ends in one move (log 28). -/
def execNop (s : State) : Host.Outcome State Fault Refusal := startCommand .nop complete s

/-- RESET (R264): in any phase, and while BUSY = 1 (R260), the soft reset. It cannot fail. -/
def execReset (s : State) : Host.Outcome State Fault Refusal := .next (softReset s)

end Sys2Proof.Machine
end

