-- ==== Sys2Proof/Machine/Dispatch.lean ====
section
/-! DEFINITION. What each command does when the host writes it to CMD: one arm per constructor of Instr. -/

namespace Sys2Proof.Machine

def exec (i : Instr) (s : State) : Host.Outcome State Fault Refusal :=
  match i with
  | .nop => Sys2Proof.Machine.execNop s
  | .reset => Sys2Proof.Machine.execReset s
  | .rd n => Sys2Proof.Machine.execRd n s
  | .wr n => Sys2Proof.Machine.execWr n s
  | .flush => Sys2Proof.Machine.execFlush s
  | .hent => Sys2Proof.Machine.execHent s
  | .hdr => Sys2Proof.Machine.execHdr s
  | .bstep => Sys2Proof.Machine.execBstep s
  | .bsym => Sys2Proof.Machine.execBsym s
  | .body => Sys2Proof.Machine.execBody s
  | .dec => Sys2Proof.Machine.execDec s

end Sys2Proof.Machine
end

