-- ==== Sys2Proof/Machine/Registers.lean ====
section
/-! DEFINITION. The register space (R32): what a read of each offset returns and what a write to each but CMD does. -/

namespace Sys2Proof.Machine

/-- ID (R33): the ASCII bytes "HUFF". -/
def idWord : Word := 0x48554646

/-- A `k`-bit field of a register word at bit `i`. -/
def field (v : BitVec k) (i : Nat) : Word := v.setWidth 32 <<< i

/-- MAP_COUNT (R48): the number of valid entries. -/
def State.mapCount (s : State) : Nat := s.map.length

/-- The entry MAP_SEL.IDX selects, if it exists and is valid (R57). -/
def State.selected (s : State) : Option MapEntry :=
  if s.mapSelIdx.toNat < s.params.mapEntries then s.map[s.mapSelIdx.toNat]? else none

/-- MAP_INFO (R57). -/
def mapInfoWord (s : State) : Word :=
  match s.selected with
  | some x => 1#32 <<< 31 ||| field x.clen 16 ||| field (BitVec.ofNat 16 x.sym.length) 0
  | none => 0

/-- MAP_CODE (R57). -/
def mapCodeWord (s : State) : Word :=
  match s.selected with
  | some x => x.code.setWidth 32
  | none => 0

/-- The symbol byte at an offset, 0 at SYMLEN and beyond (R57). -/
def symByteAt (sym : List Byte) (o : Nat) : Byte := sym.getD o 0

/-- MAP_SYM (R57): four symbol bytes from MAP_SEL.OFF, the first in bits [31:24]. -/
def mapSymWord (s : State) : Word :=
  match s.selected with
  | some x =>
    field (symByteAt x.sym s.mapSelOff.toNat) 24 ||| field (symByteAt x.sym (s.mapSelOff.toNat + 1)) 16 |||
      field (symByteAt x.sym (s.mapSelOff.toNat + 2)) 8 ||| field (symByteAt x.sym (s.mapSelOff.toNat + 3)) 0
  | none => 0

/-- The value of the register at byte offset `off` while STATUS.BUSY = 0 (R32 to R57); reserved offsets read 0 (R34). -/
def regRead (off : Nat) (s : State) : Word :=
  if off = 0x00 then idWord
  else if off = 0x04 then field s.cfgL 0
  else if off = 0x0C then s.wdata
  else if off = 0x10 then s.statusWord
  else if off = 0x14 then field s.errInfo 8 ||| field s.errCause 0
  else if off = 0x18 then s.errPos
  else if off = 0x1C then s.resVal
  else if off = 0x20 then field s.resCnt 0
  else if off = 0x24 then s.brPos
  else if off = 0x28 then field s.brBuf 8 ||| field s.brCnt 0
  else if off = 0x2C then s.bwPos
  else if off = 0x30 then field s.bwAcc 8 ||| field (s.bwCnt.setWidth 3) 0
  else if off = 0x34 then field s.maxLen 24 ||| field (BitVec.ofNat 17 s.mapCount) 0
  else if off = 0x38 then s.cand
  else if off = 0x3C then field s.candLen 0
  else if off = 0x40 then s.symCount
  else if off = 0x44 then flagBit s.lastSymV 31 ||| field s.lastSymIdx 0
  else if off = 0x48 then s.intEnWord
  else if off = 0x4C then s.intPendWord
  else if off = 0x50 then field s.mapSelOff 16 ||| field s.mapSelIdx 0
  else if off = 0x54 then mapInfoWord s
  else if off = 0x58 then mapCodeWord s
  else if off = 0x5C then mapSymWord s
  else 0

/-- The registers whose reads are undefined while BUSY = 1 (R59, U2): every register of R32 but ID, CMD, STATUS and INT_PEND.
The reserved offsets are none of them (R34, U11; log 19). -/
def drawnWhileBusy (off : Nat) : Bool :=
  decide (off ≤ 0x5C) && decide (off ≠ 0x00) && decide (off ≠ 0x08) && decide (off ≠ 0x10) && decide (off ≠ 0x4C)

/-- What every register reads while rst is asserted (R321): its reset value (R32). -/
def resetRead (off : Nat) : Word := if off = 0x00 then idWord else 0

/-- `MemRead(off, 4)` (R81): the value goes to the host and nothing else changes (R92), except that a draw is counted. -/
def busRead (off : Nat) (s : State) : State :=
  if s.rst then { s with readData := some (resetRead off) }
  else if s.busy && drawnWhileBusy off then
    { s with readData := some (Config.freeWord s.draws), draws := s.draws + 1 }
  else { s with readData := some (regRead off s) }

/-- A write to CFG, WDATA or MAP_SEL (R60): dropped with OVR while BUSY = 1, else `t` is the state it leaves. -/
def guardedWrite (s t : State) : State := if s.busy then { s with ovr := true } else t

/-- `MemWrite(off, 4, v)` for every offset but CMD's (R35, R36, R38, R53, R57, R60): INT_EN and INT_PEND always land,
read-only and reserved offsets ignore the write. -/
def regWrite (off : Nat) (v : Word) (s : State) : State :=
  if off = 0x04 then guardedWrite s { s with cfgL := v.setWidth 6 }
  else if off = 0x0C then guardedWrite s { s with wdata := v }
  else if off = 0x48 then { s with intEnCmdc := v.getLsbD 0, intEnErri := v.getLsbD 1 }
  else if off = 0x4C then
    { s with
      intPendCmdc := s.intPendCmdc && !v.getLsbD 0
      intPendErri := s.intPendErri && !v.getLsbD 1 }
  else if off = 0x50 then
    guardedWrite s { s with mapSelIdx := v.extractLsb' 0 16, mapSelOff := v.extractLsb' 16 16 }
  else s

end Sys2Proof.Machine
end

