-- ==== Sys2Proof/Machine/HostBus.lean ====
section
/-! DEFINITION. The host's moves (R89): register-bus accesses with CMD among them (R260), port answers (R86, R87) and the
rst input (R321). -/

namespace Sys2Proof.Machine

/-- The byte offset of CMD (R32). -/
def cmdOffset : Nat := 0x08

/-- A CMD write of a word that is no command (R260): dropped with OVR while BUSY, ignored in phase ERROR, else ILLEGAL_CMD,
with which it ends in the same move (log 28). -/
def illegalWord (e : DecodeError) (s : State) : Host.Outcome State Fault Refusal :=
  if s.busy then .next { s with ovr := true }
  else if s.err then .next s
  else .next (raise (.illegalCmd e.info) s)

/-- `OnCmdWrite(w)` (R260). -/
def cmdWrite (w : Word) (s : State) : Host.Outcome State Fault Refusal :=
  match decode w with
  | .cmd i => exec i s
  | .illegal e => illegalWord e s

/-- The offset of a bus address in the register space (R11, R94), if it lies there. -/
def busOffset (s : State) (addr : Nat) : Option Nat :=
  if s.params.regBase ≤ addr ∧ addr < s.params.regBase + 256 then some (addr - s.params.regBase) else none

/-- The bus address of a register offset (R94). -/
def busAddr (s : State) (off : Nat) : Nat := s.params.regBase + off

/-- A legal access is 4 bytes wide at a multiple of 4 (R81). -/
def accessLegal (off width : Nat) : Bool := width == 4 && off % 4 == 0

/-- A register read by the host (R81). -/
def hostRead (addr width : Nat) (s : State) : Host.Outcome State Fault Refusal :=
  match busOffset s addr with
  | none => .refused .outsideRegisterSpace
  | some off => if accessLegal off width then .next (busRead off s) else .refused .busError

/-- A register write by the host (R81); while rst is asserted it has no effect (R321). -/
def hostWrite (addr width : Nat) (v : Word) (s : State) : Host.Outcome State Fault Refusal :=
  match busOffset s addr with
  | none => .refused .outsideRegisterSpace
  | some off =>
    if accessLegal off width then
      if s.rst then .next s
      else if off = cmdOffset then cmdWrite v s
      else .next (regWrite off v s)
    else .refused .busError

/-- The host answers a SRC request; without one outstanding the answer has no effect: R264 says so
after a reset, and at any other time it is the model's choice (log 16). -/
def hostAnswerSrc (a : SrcAnswer) (s : State) : State :=
  match s.pend with
  | .src => answerSrc a s
  | .none => s
  | .out _ => s
  | .wout _ => s

/-- The host answers an OUT offer; without one outstanding the answer has no effect: R264 says so
after a reset, and at any other time it is the model's choice (log 16). -/
def hostAnswerOut (a : SinkAnswer) (s : State) : State :=
  match s.pend with
  | .out b => answerOut a b s
  | .none => s
  | .src => s
  | .wout _ => s

/-- The host answers a WOUT offer; without one outstanding the answer has no effect: R264 says so
after a reset, and at any other time it is the model's choice (log 16). -/
def hostAnswerWout (a : SinkAnswer) (s : State) : State :=
  match s.pend with
  | .wout b => answerWout a b s
  | .none => s
  | .src => s
  | .out _ => s

/-- The rst input's level changes (R321): asserting it resets the unit at once, whatever it is doing (R288). -/
def rstMove (level : Bool) (s : State) : State := if level then { hardReset s with rst := true } else { s with rst := false }

/-- One move of the host (R89). -/
def deliver (e : HostEvent) (s : State) : Host.Outcome State Fault Refusal :=
  match e with
  | .read addr width => hostRead addr width s
  | .write addr width v => hostWrite addr width v s
  | .answerSrc a => .next (hostAnswerSrc a s)
  | .answerOut a => .next (hostAnswerOut a s)
  | .answerWout a => .next (hostAnswerWout a s)
  | .readySrc l => .next { s with srcReady := s.srcReady ++ l }
  | .readyOut l => .next { s with outReady := s.outReady ++ l }
  | .readyWout l => .next { s with woutReady := s.woutReady ++ l }
  | .rst level => .next (rstMove level s)

/-- A move is due when no operation of the unit comes before it (log 1). -/
def HostMove.due (m : HostMove) : Bool := m.after == some 0

/-- The host's move that writes the command word `w` to CMD at once (R37). -/
def cmdMove (s : State) (w : Word) : HostMove := { after := some 0, event := .write (busAddr s cmdOffset) 4 w }

/-- No host move is left (R88, R305): an idle unit keeps its state, a unit with an operation to perform performs it, and a
unit that holds is stuck (U12; log 12). -/
def stepAlone (s : State) : Host.Outcome State Fault Refusal :=
  if !s.atRest then .next (unitRun s)
  else if s.busy then .fault .heldForever
  else .next s

/-- The host's next move is `m` and `l` follow it: it lands when it is due or the unit rests, else the unit runs (R261). -/
def stepMove (m : HostMove) (l : List HostMove) (s : State) : Host.Outcome State Fault Refusal :=
  if m.due || s.atRest then deliver m.event { s with moves := l } else .next (unitRun s)

end Sys2Proof.Machine
end

