-- ==== Sys2Proof/Machine/Step.lean ====
section
/-! DEFINITION. One step of the machine, and where the next command of a program stands. -/

namespace Sys2Proof.Machine

/-- One step (R261): a move of the host, or a run of the unit's operations up to the next one. A command word the host
writes to CMD is decoded and executed in the step that delivers the write. -/
def step (s : State) : Host.Outcome State Fault Refusal :=
  match s.moves with
  | [] => stepAlone s
  | m :: l => stepMove m l s

/-- `s` with the host about to write the command word to CMD (log 3). HCD fetches no instructions (R31): its commands are
the host's CMD writes, so the write stands first among the host's moves, due at once, and rst is released. -/
def State.withFetchWord (s : State) (nbits w : Nat) : State :=
  { s with rst := false, moves := cmdMove s (BitVec.ofNat 32 (w % 2 ^ nbits)) :: s.moves }

end Sys2Proof.Machine
end

