-- ==== Sys2Proof/Safety.lean ====
section
/-! DEFINITION. What claims about HCD are stated in: bit sequences (R13) and the container format as an encoder lays it down
(R110 to R115), what a stream still holds, when a command can run, what each sub-unit owns (for frames), how a run ends
(R237), and the invariant of the machine. -/

namespace Sys2Proof.Machine

/-! ### Bit sequences and the container format -/

/-- The `n`-bit sequence with value `v`, first bit first (R13, R84). -/
def bitsOf : Nat → Nat → List Bool
  | 0, _ => []
  | n + 1, v => v.testBit n :: bitsOf n v

/-- The value of a bit sequence (R13). -/
def bitsVal (l : List Bool) : Nat := l.foldl (fun a b => 2 * a + b.toNat) 0

/-- The bits of a byte in stream order (R83). -/
def byteBits (b : Byte) : List Bool := bitsOf 8 b.toNat

/-- The bits of a byte string in stream order (R83). -/
def bytesBits (l : List Byte) : List Bool := l.flatMap byteBits

/-- The code of a map entry as a sequence (R54, R117). -/
def codeBits (x : MapEntry) : List Bool := bitsOf x.clen.toNat x.code.toNat

/-- A header entry in the container (R111): SYMLEN in `len` bits, SYM, CLEN in 5 bits, CODE. -/
def entryBits (len : Nat) (x : MapEntry) : List Bool :=
  bitsOf len x.sym.length ++ bytesBits x.sym ++ bitsOf 5 x.clen.toNat ++ codeBits x

/-- The MAP_END entry in the container (R112), with tail code-length `c` and tail code bits `tail` where the layout has
them. -/
def mapEndBits (p : Params) (len c : Nat) (tail : List Bool) : List Bool :=
  bitsOf len p.mapEndBytes.length ++ bytesBits p.mapEndBytes ++
    match p.mapEndTail with
    | .fullEntry => bitsOf 5 c ++ tail
    | .symbolOnly => []

/-- A whole header (R110): the entries, then MAP_END. -/
def headerBits (p : Params) (len : Nat) (xs : List MapEntry) (c : Nat) (tail : List Bool) : List Bool :=
  xs.flatMap (entryBits len) ++ mapEndBits p len c tail

/-- A body without its EOF code (R114): the codes of the entries in order. -/
def bodyBits (xs : List MapEntry) : List Bool := xs.flatMap codeBits

/-- The text the entries stand for (R231): their symbols' bytes in order. -/
def symBytes (xs : List MapEntry) : List Byte := xs.flatMap MapEntry.sym

/-- An entry an encoder can write for parameters `p` and length field `len` (R111, R116, R203, R205): a symbol of 1 to
SYM_BYTES_MAX bytes that fits the length field, is not MAP_END and is well-formed UTF-8 where that is checked, and a code of
1 to 31 bits. -/
def entryFits (p : Params) (len : Nat) (x : MapEntry) : Prop :=
  1 ≤ x.sym.length ∧ x.sym.length < 2 ^ len ∧ x.sym.length ≤ p.symBytesMax ∧ x.sym ≠ p.mapEndBytes ∧
    (p.checkUtf8 = true → wellFormedUtf8 x.sym = true) ∧ 1 ≤ x.clen.toNat ∧ x.code.toNat < 2 ^ x.clen.toNat

/-- Map `m` takes the entries `xs` one after the other (R206): each fits, its code is new, and there is room for it. -/
def mapTakes (p : Params) (len : Nat) : List MapEntry → List MapEntry → Prop
  | _, [] => True
  | m, x :: xs =>
    entryFits p len x ∧ matchCode m x.clen.toNat (x.code.setWidth 32) = none ∧ m.length < p.mapEntries ∧
      mapTakes p len (m ++ [x]) xs

/-- No code of the map is the beginning of another's (the glossary of R16; the source's invariant, R239). -/
def codesPrefixFree (m : List MapEntry) : Prop :=
  ∀ (i j : Nat) (x y : MapEntry), m[i]? = some x → m[j]? = some y → codeBits x <+: codeBits y → i = j

/-- The bits of `x`'s code, of which the first `k` are the candidate already, match no other code on the way (R230): no code
longer than `k` is a proper prefix of it. Every entry of a prefix-free map is matched so; where one code is a proper prefix
of another "the shorter always wins" (R239), so of those two only the shorter is matched so from the start. -/
def matchedFirst (m : List MapEntry) (k : Nat) (x : MapEntry) : Prop :=
  ∀ y ∈ m, k < y.clen.toNat → codeBits y <+: codeBits x → codeBits y = codeBits x

/-- The entries `xs` are what BD matches on their codes one after the other: the first from a candidate of `k` bits, each
later one from the cleared candidate (R230, R239). -/
def matchedInTurn (m : List MapEntry) : Nat → List MapEntry → Prop
  | _, [] => True
  | k, x :: xs => k < x.clen.toNat ∧ matchedFirst m k x ∧ matchedInTurn m 0 xs

/-! ### What the streams still hold -/

/-- The bits in the reader's buffer, next first (R45). -/
def State.bufBits (s : State) : List Bool := bitsOf s.brCnt.toNat s.brBuf.toNat

/-- The bytes the host has ready before any other SRC answer. -/
def readyBytes : List SrcAnswer → List Byte
  | [] => []
  | .byte b :: l => b :: readyBytes l
  | .endOfData :: _ => []
  | .error :: _ => []

/-- The first SRC answer that is no byte, if the host has one ready. -/
def readyStop : List SrcAnswer → Option SrcAnswer
  | [] => none
  | .byte _ :: l => readyStop l
  | .endOfData :: _ => some .endOfData
  | .error :: _ => some .error

/-- The bits the reader can deliver without a further move of the host: its buffer, then the bytes the host has ready,
unless `End` has been answered (R163). -/
def State.availBits (s : State) : List Bool :=
  s.bufBits ++ bif s.srcEnd then [] else bytesBits (readyBytes s.srcReady)

/-- The source is known to end after `availBits`: `End` has been answered, or is ready to be. -/
def State.sourceEnds (s : State) : Prop := s.srcEnd = true ∨ readyStop s.srcReady = some .endOfData

/-- The bits the writer has accumulated and not sent, first first (R47). -/
def State.accBits (s : State) : List Bool := (byteBits s.bwAcc).take s.bwCnt.toNat

/-- Every bit written since reset that is on WOUT or in the accumulator (R181). -/
def State.writtenBits (s : State) : List Bool := bytesBits s.woutStream ++ s.accBits

/-- The candidate as a sequence (R50). -/
def State.candBits (s : State) : List Bool := bitsOf s.candLen.toNat s.cand.toNat

/-- The host has an `Ack` ready for each of the next `k` OUT offers, and `l` after them. -/
def State.acksOut (s : State) (k : Nat) (l : List SinkAnswer) : Prop := s.outReady = List.replicate k .ack ++ l

/-- The host has an `Ack` ready for each of the next `k` WOUT offers. -/
def State.acksWout (s : State) (k : Nat) : Prop := (List.replicate k .ack).isPrefixOf s.woutReady = true

/-! ### When a command runs, and what it leaves alone -/

/-- No move of the host is timed to land among the unit's next operations (log 1). -/
def State.unhurried (s : State) : Bool :=
  match s.moves with
  | [] => true
  | m :: _ => m.after.isNone

/-- The unit is idle and not in phase ERROR (R260), and runs undisturbed. -/
def State.canRun (s : State) : Prop :=
  s.busy = false ∧ s.err = false ∧ s.pend = .none ∧ s.unhurried = true

/-- The command has completed normally (R262). -/
def State.completed (s : State) : Prop :=
  s.busy = false ∧ s.err = false ∧ s.pend = .none ∧ s.intPendCmdc = true

/-- The unit holds on a port and has no answer ready (R88). -/
def State.holds (s : State) : Prop := s.busy = true ∧ s.atRest = true

/-- BR's state, the SRC stream and SRC_END are as before (R160). -/
def sameReader (s t : State) : Prop :=
  t.brPos = s.brPos ∧ t.brCnt = s.brCnt ∧ t.brBuf = s.brBuf ∧ t.srcEnd = s.srcEnd ∧ t.srcStream = s.srcStream ∧
    t.srcReady = s.srcReady

/-- BW's state and the WOUT stream are as before (R180). -/
def sameWriter (s t : State) : Prop :=
  t.bwPos = s.bwPos ∧ t.bwCnt = s.bwCnt ∧ t.bwAcc = s.bwAcc ∧ t.woutStream = s.woutStream ∧ t.woutReady = s.woutReady ∧
    t.woutEnded = s.woutEnded

/-- RES_VAL and RES_CNT are as before (R30). -/
def sameResult (s t : State) : Prop := t.resVal = s.resVal ∧ t.resCnt = s.resCnt

/-- The decoding map, MAXLEN and HDR_DONE are as before (R200). -/
def sameMap (s t : State) : Prop := t.map = s.map ∧ t.maxLen = s.maxLen ∧ t.hdrDone = s.hdrDone

/-- SYMBUF and SYMBUF_LEN are as before. The spec leaves them unspecified after an error and whenever no HENT runs (R58, R203,
R285, U4): that nothing but a header command and a reset changes them is the model's choice (log 9). -/
def sameSymBuf (s t : State) : Prop := t.symBuf = s.symBuf ∧ t.symBufLen = s.symBufLen

/-- BD's state, DONE and the OUT stream are as before (R230, R231). -/
def sameBody (s t : State) : Prop :=
  t.cand = s.cand ∧ t.candLen = s.candLen ∧ t.symCount = s.symCount ∧ t.lastSymV = s.lastSymV ∧
    t.lastSymIdx = s.lastSymIdx ∧ t.done = s.done ∧ t.outStream = s.outStream ∧ t.outReady = s.outReady ∧
    t.outEnded = s.outEnded

/-- The registers only the host writes, the parameters, rst, and the host's moves but for their timing are as before. -/
def sameHost (s t : State) : Prop :=
  t.params = s.params ∧ t.cfgL = s.cfgL ∧ t.wdata = s.wdata ∧ t.intEnCmdc = s.intEnCmdc ∧ t.intEnErri = s.intEnErri ∧
    t.mapSelIdx = s.mapSelIdx ∧ t.mapSelOff = s.mapSelOff ∧ t.rst = s.rst ∧ t.readData = s.readData ∧
    t.moves.map HostMove.event = s.moves.map HostMove.event

/-- ERR, ERR_CAUSE and ERR_POS are as before (R40, R41). -/
def sameError (s t : State) : Prop :=
  t.err = s.err ∧ t.errCause = s.errCause ∧ t.errInfo = s.errInfo ∧ t.errPos = s.errPos

/-- The error registers record cause `c` with detail `info` at the reader's position (R284). -/
def recordsError (c : Cause) (t : State) : Prop :=
  t.err = true ∧ t.errCause = c.code ∧ t.errInfo = c.info ∧ t.errPos = t.brPos ∧ t.busy = false ∧ t.pend = .none ∧
    t.intPendErri = true ∧ t.intPendCmdc = true

/-- What a command that is no RESET leaves alone outside its own sub-unit's state and the error registers (R30, R160, R180,
R200, R230). The status registers the spec names for it may change: ERR with its registers, and the INT_PEND bits. That SYMBUF
is left alone is the model's choice (log 9). -/
def ownFrame (s t : State) : Instr → Prop
  | .nop =>
    sameReader s t ∧ sameWriter s t ∧ sameResult s t ∧ sameMap s t ∧ sameSymBuf s t ∧ sameBody s t ∧ sameHost s t ∧
      t.draws = s.draws
  | .reset => sameHost s t
  | .rd _ => sameWriter s t ∧ sameMap s t ∧ sameSymBuf s t ∧ sameBody s t ∧ sameHost s t ∧ t.draws = s.draws
  | .wr _ => sameReader s t ∧ sameResult s t ∧ sameMap s t ∧ sameSymBuf s t ∧ sameBody s t ∧ sameHost s t
  | .flush => sameReader s t ∧ sameResult s t ∧ sameMap s t ∧ sameSymBuf s t ∧ sameBody s t ∧ sameHost s t
  | .hent => sameWriter s t ∧ sameResult s t ∧ sameBody s t ∧ sameHost s t ∧ t.draws = s.draws
  | .hdr => sameWriter s t ∧ sameResult s t ∧ sameBody s t ∧ sameHost s t ∧ t.draws = s.draws
  | .bstep => sameWriter s t ∧ sameResult s t ∧ sameMap s t ∧ sameSymBuf s t ∧ sameHost s t ∧ t.draws = s.draws
  | .bsym => sameWriter s t ∧ sameResult s t ∧ sameMap s t ∧ sameSymBuf s t ∧ sameHost s t ∧ t.draws = s.draws
  | .body => sameWriter s t ∧ sameResult s t ∧ sameMap s t ∧ sameSymBuf s t ∧ sameHost s t ∧ t.draws = s.draws
  | .dec => sameWriter s t ∧ sameResult s t ∧ sameHost s t ∧ t.draws = s.draws

/-- The error registers and INT_PEND move only as Complete and error entry move them (R262, R284): an error is recorded and
both bits are set, or the error registers and ERRI are as before and CMDC is set if the command has ended. -/
def statusFrame (s t : State) : Prop :=
  (∃ c, recordsError c t) ∨
    (sameError s t ∧ t.intPendErri = s.intPendErri ∧ (t.intPendCmdc = s.intPendCmdc ∨ (t.intPendCmdc = true ∧ t.busy = false)))

/-! ### Where a command stands when something goes wrong -/

/-- `t` is how a command begun in `s` stands when it wants a bit more than `availBits` gives: it has ended in `short` where the
source ends (R163), in IO_ERROR(0) where the port answers `Error` (R164), and holds on SRC where the host has given no answer
(R88). -/
def State.runsDry (s : State) (short : Cause) (t : State) : Prop :=
  (s.sourceEnds → recordsError short t ∧ t.srcEnd = true) ∧
    (s.srcEnd = false → readyStop s.srcReady = some .error → recordsError (.ioError 0) t ∧ t.srcEnd = false) ∧
    (s.srcEnd = false → readyStop s.srcReady = none → t.holds ∧ t.pend = .src ∧ sameError s t)

/-- Command `i` goes on after the header entries `xs` in the same command: HDR and DEC parse any number of them (R208, R236),
HENT one entry alone (R207). -/
def parsesAfter (i : Instr) (xs : List MapEntry) : Prop := i = .hent ∧ xs = [] ∨ i = .hdr ∨ i = .dec

/-- Command `i` ends in `c`, `n` bits on, with the entries `xs` inserted, the header not done, and `rest` not read (R285, R286).
-/
def headerFails (i : Instr) (s : State) (xs : List MapEntry) (c : Cause) (n : Nat) (rest : List Bool) : Prop :=
  ∃ t, exec i s = .next t ∧ recordsError c t ∧ t.errPos = s.brPos + BitVec.ofNat 32 n ∧ t.availBits = rest ∧
    t.map = s.map ++ xs ∧ t.hdrDone = false ∧ t.outStream = s.outStream ∧ t.srcEnd = s.srcEnd

/-- Command `i` begins to decode a body with the map `m` after the bits `hdr`: BSTEP, BSYM and BODY at once, in phase BODY
(R265), and DEC after a whole header (R236). -/
def bodyBegins (i : Instr) (s : State) (hdr : List Bool) (m : List MapEntry) : Prop :=
  ((i = .bstep ∨ i = .bsym ∨ i = .body) ∧ s.hdrDone = true ∧ s.done = false ∧ hdr = [] ∧ m = s.map) ∨
    (i = .dec ∧ s.hdrDone = false ∧ 1 ≤ s.cfgL.toNat ∧ s.cfgL.toNat ≤ 32 ∧
      s.params.mapEndBytes.length < 2 ^ s.cfgL.toNat ∧
      ∃ xs c tail, c ≤ 31 ∧ tail.length = c ∧ mapTakes s.params s.cfgL.toNat s.map xs ∧
        hdr = headerBits s.params s.cfgL.toNat xs c tail ∧ m = s.map ++ xs)

/-- Command `i`, begun in `s`, decodes the symbols `ys` of its body, whose bytes the host acknowledges, and then takes bits up
to the candidate `pre`, which has matched nothing; `more` is what the source still gives, and `l` what the host has ready on
OUT (R230 to R236). BSTEP takes no bit before its one, BSYM no symbol. -/
structure BodyAt (i : Instr) (s : State) (hdr : List Bool) (m ys : List MapEntry) (pre more : List Bool)
    (l : List SinkAnswer) : Prop where
  begins : bodyBegins i s hdr m
  bits : ∃ av, s.availBits = hdr ++ av ∧ s.candBits ++ av = bodyBits ys ++ (pre ++ more)
  symbols : ∀ y ∈ ys, y ∈ m ∧ y.sym ≠ s.params.eofBytes
  loops : ys ≠ [] → i = .body ∨ i = .dec
  turn : matchedInTurn m s.candLen.toNat ys
  one : i = .bstep → pre.length = s.candLen.toNat
  grows : ys = [] → s.candLen.toNat ≤ pre.length
  unmatched : ∀ x ∈ m, codeBits x <+: pre → ys = [] ∧ x.clen.toNat ≤ s.candLen.toNat
  acks : s.acksOut (symBytes ys).length l

/-- `t` is how that command stands after `ys` and the candidate `pre`: the symbols are out and counted, the map is `m`, and
every bit up to there is consumed (R230, R231, R285). -/
def bodyStands (s : State) (hdr : List Bool) (m ys : List MapEntry) (pre : List Bool) (t : State) : Prop :=
  t.map = m ∧ t.hdrDone = true ∧ t.done = false ∧ t.outStream = s.outStream ++ symBytes ys ∧
    t.symCount = s.symCount + BitVec.ofNat 32 ys.length ∧ t.candBits = pre ∧ t.candLen.toNat = pre.length ∧
    t.brPos + s.candLen.setWidth 32 = s.brPos + BitVec.ofNat 32 (hdr ++ (bodyBits ys ++ pre)).length

/-! ### How a run ends -/

/-- A decode run has ended successfully (R237). PEND is NONE: every offer has been answered. -/
def State.runSucceeded (s : State) : Prop :=
  s.busy = false ∧ s.err = false ∧ s.hdrDone = true ∧ s.done = true ∧ s.pend = .none

/-- A decode run has ended in failure (R237). -/
def State.runFailed (s : State) : Prop := s.busy = false ∧ s.err = true

/-- A reset has just happened (R264, R320): no command, no request, every flag of R61 clear, the reader at the start of the
source, the map empty. -/
def State.freshlyReset (s : State) : Prop :=
  s.cur = none ∧ s.pend = .none ∧ s.err = false ∧ s.hdrDone = false ∧ s.done = false ∧ s.srcEnd = false ∧ s.ovr = false ∧
    s.brPos = 0 ∧ s.brCnt = 0 ∧ s.srcStream = [] ∧ s.map = []

/-- How many bits of the source the reader has delivered since reset, not wrapped (R44, R93). -/
def State.delivered (s : State) : Nat := 8 * s.srcStream.length - s.brCnt.toNat

/-! ### The invariant -/

/-- MAXLEN as a function of the map (R56). -/
def maxCodeLen (m : List MapEntry) : Nat := m.foldl (fun a x => max a x.clen.toNat) 0

/-- A symbol HP may store (R202, R203, R204). -/
def symbolOk (p : Params) (l : List Byte) : Prop :=
  1 ≤ l.length ∧ l.length ≤ p.symBytesMax ∧ l ≠ p.mapEndBytes ∧ (p.checkUtf8 = true → wellFormedUtf8 l = true)

/-- A valid map entry (R54). -/
def entryOk (p : Params) (x : MapEntry) : Prop :=
  1 ≤ x.clen.toNat ∧ x.code.toNat < 2 ^ x.clen.toNat ∧ symbolOk p x.sym

/-- HENT, HDR and DEC parse header entries (R200). -/
def parsesHeader : Instr → Bool
  | .hent => true
  | .hdr => true
  | .dec => true
  | .nop => false
  | .reset => false
  | .rd _ => false
  | .wr _ => false
  | .flush => false
  | .bstep => false
  | .bsym => false
  | .body => false

/-- BSTEP, BSYM, BODY and DEC take body steps (R230). -/
def decodesBody : Instr → Bool
  | .bstep => true
  | .bsym => true
  | .body => true
  | .dec => true
  | .nop => false
  | .reset => false
  | .rd _ => false
  | .wr _ => false
  | .flush => false
  | .hent => false
  | .hdr => false

/-- Command `c` is parsing the header: CFG.L was legal when it began (R201) and cannot change while it runs (R60, R336). -/
def parsing (s : State) (c : Instr) : Prop :=
  parsesHeader c = true ∧ s.hdrDone = false ∧ 1 ≤ s.cfgL.toNat ∧ s.cfgL.toNat ≤ 32

/-- What holds while a read for `r` of `n` bits is in progress in command `c`. -/
def callerOk (s : State) (c : Instr) (n : Nat) : ReadFor → Prop
  | .rd => c = .rd (BitVec.ofNat 6 n) ∧ n ≤ 32
  | .symLen => parsing s c ∧ n = s.cfgL.toNat
  | .symByte m i => parsing s c ∧ n = 8 ∧ i < m ∧ m ≤ s.params.symBytesMax ∧ i ≤ s.symBuf.length
  | .tailLen => parsing s c ∧ n = 5
  | .tailCode => parsing s c ∧ n ≤ 31
  | .clen => parsing s c ∧ n = 5 ∧ symbolOk s.params (parsedSym s)
  | .code => parsing s c ∧ 1 ≤ n ∧ n ≤ 31 ∧ symbolOk s.params (parsedSym s)
  | .bodyBit => decodesBody c = true ∧ s.hdrDone = true ∧ s.done = false ∧ n = 1

/-- The position CUR records is one its command reaches (R58). -/
def posOk (s : State) (c : Instr) : Pos → Prop
  | .read n k v r => k ≤ n ∧ v.toNat < 2 ^ k ∧ callerOk s c n r
  | .emit e i =>
    decodesBody c = true ∧ s.hdrDone = true ∧ s.done = false ∧ s.candLen = 0 ∧ e < s.map.length ∧
      i ≤ (entrySym s.map e).length
  | .write n i => c = .wr (BitVec.ofNat 6 n) ∧ n ≤ 32 ∧ i ≤ n
  | .flush => c = .flush

/-- The outstanding request fits the position (R58, R88). -/
def pendOk (s : State) (p : Pos) : Pend → Prop
  | .none => True
  | .src => ∃ n k v r, p = .read n k v r ∧ k < n ∧ s.brCnt = 0 ∧ s.srcEnd = false
  | .out b => ∃ e i, p = .emit e (i + 1) ∧ (entrySym s.map e)[i]? = some b
  | .wout b => b = s.bwAcc ∧ s.bwCnt ≠ 0 ∧ ((∃ n i, p = .write n i) ∨ (p = .flush ∧ s.bwCnt.toNat < 8))

/-- A byte is buffered whole only between its fetch and the delivery of its first bit (R93). -/
def freshByte (s : State) : Prop :=
  s.pend = .none ∧ ∃ c n k v r, s.cur = some { instr := c, pos := .read n k v r } ∧ k < n

/-- BW_ACC and BW_CNT are unspecified: the run ended in IO_ERROR(2) (R185). -/
def State.writerLost (s : State) : Prop := s.err = true ∧ s.errCause = 10 ∧ s.errInfo = 2

/-- The invariant of the machine. -/
structure Inv (s : State) : Prop where
  /-- R10. -/
  params : paramsLegal s.params = true
  /-- R58: no request without a command; R321: rst aborts. -/
  idle : s.cur = none → s.pend = .none
  inReset : s.rst = true → s.cur = none
  /-- R58. -/
  position : ∀ c, s.cur = some c → posOk s c.instr c.pos ∧ pendOk s c.pos s.pend
  /-- R45, R93, R163. -/
  bufBound : s.brCnt.toNat ≤ 8
  bufFresh : s.brCnt = 8 → freshByte s
  endEmpty : s.srcEnd = true → s.brCnt = 0
  readAhead : s.brPos + s.brCnt.setWidth 32 = BitVec.ofNat 32 (8 * s.srcStream.length)
  /-- R47, R181. -/
  accBound : s.bwCnt.toNat ≤ 8
  accFull : s.bwCnt = 8 → ∃ b, s.pend = .wout b
  accZeros : s.writerLost ∨ s.bwAcc.toNat % 2 ^ (8 - s.bwCnt.toNat) = 0
  /-- R40, R41, R61. -/
  noError : s.err = false → s.errCause = 0 ∧ s.errInfo = 0 ∧ s.errPos = 0
  anError : s.err = true → s.cur = none ∧ 1 ≤ s.errCause.toNat ∧ s.errCause.toNat ≤ 13
  /-- R42, R43. -/
  result : s.resCnt.toNat ≤ 32 ∧ s.resVal.toNat < 2 ^ s.resCnt.toNat
  /-- R54, R55, R206. -/
  entries : ∀ x ∈ s.map, entryOk s.params x
  codes : s.map.Pairwise (fun x y => ¬(x.clen = y.clen ∧ x.code = y.code))
  capacity : s.map.length ≤ s.params.mapEntries
  /-- R56. -/
  maxLen : s.maxLen.toNat = maxCodeLen s.map
  /-- R49. -/
  doneHdr : s.done = true → s.hdrDone = true
  /-- R50, R238. -/
  candBound : s.candLen.toNat ≤ s.maxLen.toNat + 1 ∧ s.cand.toNat < 2 ^ s.candLen.toNat
  candShort : s.err = false → s.candLen.toNat ≤ s.maxLen.toNat
  candHeader : s.hdrDone = false → s.candLen = 0 ∧ s.symCount = 0 ∧ s.lastSymV = false
  /-- R52, R232. -/
  lastSym : s.lastSymV = true → s.lastSymIdx.toNat < s.map.length
  doneEof : s.done = true → s.lastSymV = true ∧ entrySym s.map s.lastSymIdx.toNat = s.params.eofBytes

end Sys2Proof.Machine
end

