-- ==== Sys2Proof/Certificates/Slice0/Obligations.lean ====
section
/-! DEFINITION. The statements about HCD for the provers. Each docstring names the rules of spec/ it formalises. -/

open Sys2Proof Sys2Proof.Machine

/-! ### Encoding -/

/-- R121: every row of the opcode map decodes to its command, RD and WR with every legal count, and opcodes 0xB to 0xF
are reserved. -/
def Obligations.OpcodeMapDecodes : Prop :=
  decode 0x00000000 = .cmd .nop ∧ decode 0x10000000 = .cmd .reset ∧
    (∀ n : BitVec 6, n.toNat ≤ 32 → decode (0x20000000 ||| n.setWidth 32) = .cmd (.rd n)) ∧
    (∀ n : BitVec 6, n.toNat ≤ 32 → decode (0x30000000 ||| n.setWidth 32) = .cmd (.wr n)) ∧
    decode 0x40000000 = .cmd .flush ∧ decode 0x50000000 = .cmd .hent ∧ decode 0x60000000 = .cmd .hdr ∧
    decode 0x70000000 = .cmd .bstep ∧ decode 0x80000000 = .cmd .bsym ∧ decode 0x90000000 = .cmd .body ∧
    decode 0xA0000000 = .cmd .dec ∧ ∀ w : Word, 0xB0000000 ≤ w.toNat → decode w = .illegal .reservedOpcode

/-- R122, R123, R124, R125: what any word decodes to, by its fields as numbers. -/
def Obligations.DecodeChecksEveryField : Prop :=
  ∀ w : Word,
    (0xB ≤ w.toNat / 2 ^ 28 → decode w = .illegal .reservedOpcode) ∧
    (w.toNat / 2 ^ 28 = 2 ∨ w.toNat / 2 ^ 28 = 3 →
      (w.toNat / 2 ^ 6 % 2 ^ 22 ≠ 0 → decode w = .illegal .reservedBits) ∧
      (w.toNat / 2 ^ 6 % 2 ^ 22 = 0 → 32 < w.toNat % 2 ^ 6 → decode w = .illegal .countTooLarge) ∧
      (w.toNat / 2 ^ 6 % 2 ^ 22 = 0 → w.toNat % 2 ^ 6 ≤ 32 →
        decode w = .cmd (if w.toNat / 2 ^ 28 = 2 then .rd (BitVec.ofNat 6 w.toNat) else .wr (BitVec.ofNat 6 w.toNat)))) ∧
    (w.toNat / 2 ^ 28 < 0xB → w.toNat / 2 ^ 28 ≠ 2 → w.toNat / 2 ^ 28 ≠ 3 →
      (w.toNat % 2 ^ 28 ≠ 0 → decode w = .illegal .reservedBits) ∧
      (w.toNat % 2 ^ 28 = 0 → ∃ i : Instr, decode w = .cmd i ∧ i.opcode.toNat = w.toNat / 2 ^ 28))

/-- Decoding an encoded well-formed command gives it back, through the table's numbering too. -/
def Obligations.DecodeInvertsEncode : Prop :=
  ∀ i : Instr, i.wellFormed = true → decode (encode i) = .cmd i ∧ decodeTableWord 32 (encode i).toNat = some i

/-- A word that decodes to a command is that command's encoding, and the command is well formed: no bit is dropped. -/
def Obligations.EncodeInvertsDecode : Prop :=
  ∀ (w : Word) (i : Instr), decode w = .cmd i → encode i = w ∧ i.wellFormed = true

/-! ### Accepting a command -/

/-- A step whose next host move is a due CMD write of a command's word runs exactly that command, with the move taken
off the list (R37, R260); `withFetchWord` makes any command's word that move. When a move is due is the model's choice
(log 1, log 3). -/
def Obligations.StepRunsTheWrittenCommand : Prop :=
  (∀ (s : State) (l : List HostMove) (after : Option Nat) (i : Instr) (w : Word),
    s.moves = { after := after, event := .write (s.params.regBase + 8) 4 w } :: l → after = some 0 ∨ s.atRest = true →
    s.rst = false → decode w = .cmd i → step s = exec i { s with moves := l }) ∧
  ∀ (s : State) (i : Instr), i.wellFormed = true →
    step (s.withFetchWord 32 (encode i).toNat) = exec i { s with rst := false }

/-- R125: a word that is no command has the effects of error entry only, with ILLEGAL_CMD and the INFO value of its
defect (R281): it consumes no bits and writes no result register. That SYMBUF stays as it was is the model's choice
(log 9), and so is that the command is accepted and ends in one move (log 28). -/
def Obligations.IllegalWordRaisesIllegalCmd : Prop :=
  ∀ (w : Word) (e : DecodeError) (s : State), s.busy = false → s.err = false → decode w = .illegal e →
    ∃ t, cmdWrite w s = .next t ∧
      recordsError
        (.illegalCmd (match e with | .reservedOpcode => 0 | .reservedBits => 1 | .countTooLarge => 2)) t ∧
      t.errCause = 11 ∧ sameReader s t ∧ sameWriter s t ∧ sameResult s t ∧ sameMap s t ∧ sameSymBuf s t ∧ sameBody s t ∧
      sameHost s t ∧ t.ovr = s.ovr ∧ t.draws = s.draws

/-- R260, R290: a CMD write while a command runs is dropped with OVR, in phase ERROR it is ignored, and the exact RESET
word resets in both. Nothing else of the state changes. -/
def Obligations.BusyAndErrorTakeOnlyReset : Prop :=
  ∀ (w : Word) (s : State),
    (s.busy = true → w ≠ 0x10000000 → cmdWrite w s = .next { s with ovr := true }) ∧
    (s.busy = false → s.err = true → w ≠ 0x10000000 → cmdWrite w s = .next s) ∧
    (w = 0x10000000 → ∃ t, cmdWrite w s = .next t ∧ t.freshlyReset)

/-- R265: the sequencing table. A command the phase does not allow raises ILLEGAL_SEQ with its opcode before any other
effect; one it allows does not raise it. That SYMBUF stays as it was is the model's choice (log 9), and so is that the
command is accepted and ends in one move, in which no write of the host can set OVR (log 28). -/
def Obligations.PhaseTableIsEnforced : Prop :=
  ∀ (i : Instr) (s : State), s.busy = false → s.err = false → s.pend = .none →
    ((i = .hent ∨ i = .hdr ∨ i = .dec) ∧ s.hdrDone = true ∨
        (i = .bstep ∨ i = .bsym ∨ i = .body) ∧ (s.hdrDone = false ∨ s.done = true) →
      ∃ t, exec i s = .next t ∧ recordsError (.illegalSeq (i.opcode.setWidth 8)) t ∧ t.errCause = 12 ∧ sameReader s t ∧
        sameWriter s t ∧ sameResult s t ∧ sameMap s t ∧ sameSymBuf s t ∧ sameBody s t ∧ sameHost s t ∧ t.ovr = s.ovr) ∧
    (¬((i = .hent ∨ i = .hdr ∨ i = .dec) ∧ s.hdrDone = true ∨
        (i = .bstep ∨ i = .bsym ∨ i = .body) ∧ (s.hdrDone = false ∨ s.done = true)) →
      ∀ t, exec i s = .next t → ¬(t.err = true ∧ t.errCause = 12))

/-- R284, R281: error entry, with every cause's number and its INFO value in ERR_CAUSE as the host reads it, and every
other register as it was. That SYMBUF keeps its bytes is the model's choice, where the spec leaves it unspecified (log 9).
-/
def Obligations.ErrorEntryRecordsTheError : Prop :=
  ∀ (c : Cause) (s : State),
    recordsError c (raise c s) ∧ (raise c s).cur = none ∧ (raise c s).errPos = s.brPos ∧
      (regRead 0x14 (raise c s)).toNat =
        (match c with
          | .hdrTrunc f => f.toNat * 256 + 1
          | .hdrZeroLen => 2
          | .hdrSymTooLong => 3
          | .hdrBadUtf8 => 4
          | .hdrZeroClen => 5
          | .hdrDupCode => 6
          | .hdrMapFull => 7
          | .bodyNoMatch n => n.toNat * 256 + 8
          | .bodyTrunc n => n.toNat * 256 + 9
          | .ioError p => p.toNat * 256 + 10
          | .illegalCmd i => i.toNat * 256 + 11
          | .illegalSeq op => op.toNat * 256 + 12
          | .badConfig => 13) ∧
      (regRead 0x18 (raise c s)) = s.brPos ∧
      sameReader s (raise c s) ∧ sameWriter s (raise c s) ∧ sameResult s (raise c s) ∧ sameMap s (raise c s) ∧
      sameSymBuf s (raise c s) ∧ sameBody s (raise c s) ∧ sameHost s (raise c s) ∧ (raise c s).ovr = s.ovr ∧
      (raise c s).draws = s.draws

/-! ### Reset -/

/-- R264: RESET, in any phase and while a command runs, gives every register marked "reset" its reset value, keeps CFG,
WDATA, INT_EN and MAP_SEL, empties the map and withdraws the outstanding request. -/
def Obligations.ResetCommandResetsTheUnit : Prop :=
  ∀ s : State, ∃ t, exec .reset s = .next t ∧
    (∀ off, off % 4 = 0 → off < 256 →
      regRead off t =
        if off = 0x04 ∨ off = 0x0C ∨ off = 0x48 ∨ off = 0x50 then regRead off s
        else if off = 0 then 0x48554646 else 0) ∧
    t.freshlyReset ∧ t.irq = false ∧ t.phase = .header ∧ sameHost s t

/-- R324: after a RESET the streams restart, a partial byte of the writer is not sent, and a withdrawn offer may or may
not have been taken. The record of the ended run is the model's (log 8). -/
def Obligations.ResetRestartsTheStreams : Prop :=
  ∀ s : State, ∃ t, exec .reset s = .next t ∧ t.srcStream = [] ∧ t.outStream = [] ∧ t.woutStream = [] ∧ t.bwCnt = 0 ∧
    (t.outEnded = s.outEnded ++ s.outStream ∨
      ∃ b, s.pend = .out b ∧ t.outEnded = s.outEnded ++ s.outStream ++ [b]) ∧
    (t.woutEnded = s.woutEnded ++ s.woutStream ∨
      ∃ b, s.pend = .wout b ∧ t.woutEnded = s.woutEnded ++ s.woutStream ++ [b])

/-- R320, R321: asserting rst, whatever the unit is doing, gives every register its reset value; while it is asserted a
register write has no effect and a register read returns the reset value. -/
def Obligations.RstInputResetsTheUnit : Prop :=
  (∀ s : State, ∃ t, deliver (.rst true) s = .next t ∧ t.rst = true ∧
    (∀ off, off % 4 = 0 → off < 256 → regRead off t = if off = 0 then 0x48554646 else 0) ∧
    t.freshlyReset ∧ t.irq = false ∧ t.phase = .header) ∧
  ∀ (s : State) (off : Nat) (v : Word), s.rst = true → off % 4 = 0 → off < 256 →
    deliver (.write (s.params.regBase + off) 4 v) s = .next s ∧
    deliver (.read (s.params.regBase + off) 4) s =
      .next { s with readData := some (if off = 0 then 0x48554646 else 0) }

/-- R322, R32: the machine right after reset, for every parameter value. -/
def Obligations.ResetStateReadsItsResetValues : Prop :=
  ∀ p : Params,
    (∀ off, off % 4 = 0 → off < 256 → regRead off (State.resetWith p) = if off = 0 then 0x48554646 else 0) ∧
    (State.resetWith p).freshlyReset ∧ (State.resetWith p).phase = .header ∧ (State.resetWith p).irq = false

/-! ### The register bus -/

/-- R81: an access of another width, or at an offset that is no multiple of 4, is refused and has no next state. -/
def Obligations.IllegalAccessIsRefused : Prop :=
  ∀ (s : State) (off width : Nat) (v : Word), off < 256 → width ≠ 4 ∨ off % 4 ≠ 0 →
    deliver (.read (s.params.regBase + off) width) s = .refused .busError ∧
    deliver (.write (s.params.regBase + off) width v) s = .refused .busError

/-- R34: the reserved offsets read 0, also while a command runs (deduced, log 19), and a write to them changes nothing.
-/
def Obligations.ReservedOffsetsReadZero : Prop :=
  ∀ (s : State) (off : Nat) (v : Word), off % 4 = 0 → 0x60 ≤ off → off ≤ 0xFC →
    deliver (.read (s.params.regBase + off) 4) s = .next { s with readData := some 0 } ∧
    deliver (.write (s.params.regBase + off) 4 v) s = .next s

/-- R92: a legal read changes nothing but what the host has read (and the count of draws), so a second read returns the
same value, except while a command runs. -/
def Obligations.ReadsHaveNoSideEffect : Prop :=
  ∀ (s : State) (off : Nat), off % 4 = 0 → off < 256 →
    ∃ d n, deliver (.read (s.params.regBase + off) 4) s = .next { s with readData := d, draws := n } ∧
      (s.busy = false →
        deliver (.read (s.params.regBase + off) 4) { s with readData := d, draws := n } =
          .next { s with readData := d, draws := n })

/-- R59: while BUSY = 1, STATUS and INT_PEND read their current value, ID and CMD their constants, and every other
register a fresh draw; once BUSY = 0, every read returns the register's value, which the last clause gives for each
offset (R33 to R53, R57): the number its fields make, the reserved bits 0. The draws are numbered by the model (log 6). -/
def Obligations.ReadsWhileBusyAreDraws : Prop :=
  (∀ (s : State) (off : Nat), s.rst = false → off % 4 = 0 → off ≤ 0x5C →
    (s.busy = true →
      deliver (.read (s.params.regBase + off) 4) s =
        if off = 0x00 then .next { s with readData := some 0x48554646 }
        else if off = 0x08 then .next { s with readData := some 0 }
        else if off = 0x10 then .next { s with readData := some s.statusWord }
        else if off = 0x4C then .next { s with readData := some s.intPendWord }
        else .next { s with readData := some (Config.freeWord s.draws), draws := s.draws + 1 }) ∧
    (s.busy = false →
      deliver (.read (s.params.regBase + off) 4) s = .next { s with readData := some (regRead off s) })) ∧
  ∀ s : State,
    (regRead 0x00 s).toNat = 0x48554646 ∧ (regRead 0x04 s).toNat = s.cfgL.toNat ∧ (regRead 0x08 s).toNat = 0 ∧
    (regRead 0x0C s).toNat = s.wdata.toNat ∧ (regRead 0x14 s).toNat = s.errInfo.toNat * 256 + s.errCause.toNat ∧
    (regRead 0x18 s).toNat = s.errPos.toNat ∧ (regRead 0x1C s).toNat = s.resVal.toNat ∧
    (regRead 0x20 s).toNat = s.resCnt.toNat ∧ (regRead 0x24 s).toNat = s.brPos.toNat ∧
    (regRead 0x28 s).toNat = s.brBuf.toNat * 256 + s.brCnt.toNat ∧ (regRead 0x2C s).toNat = s.bwPos.toNat ∧
    (regRead 0x30 s).toNat = s.bwAcc.toNat * 256 + s.bwCnt.toNat % 8 ∧
    (regRead 0x34 s).toNat = s.maxLen.toNat * 2 ^ 24 + s.map.length % 2 ^ 17 ∧
    (regRead 0x38 s).toNat = s.cand.toNat ∧ (regRead 0x3C s).toNat = s.candLen.toNat ∧
    (regRead 0x40 s).toNat = s.symCount.toNat ∧
    (regRead 0x44 s).toNat = s.lastSymV.toNat * 2 ^ 31 + s.lastSymIdx.toNat ∧
    (regRead 0x48 s).toNat = s.intEnErri.toNat * 2 + s.intEnCmdc.toNat ∧
    (regRead 0x4C s).toNat = s.intPendErri.toNat * 2 + s.intPendCmdc.toNat ∧
    (regRead 0x50 s).toNat = s.mapSelOff.toNat * 65536 + s.mapSelIdx.toNat

/-- R60: register writes while a command runs. -/
def Obligations.WritesWhileBusyAreDropped : Prop :=
  ∀ (s : State) (off : Nat) (v : Word), s.busy = true → s.rst = false → off % 4 = 0 → off < 256 →
    (off = 0x04 ∨ off = 0x0C ∨ off = 0x50 ∨ (off = 0x08 ∧ v ≠ 0x10000000) →
      deliver (.write (s.params.regBase + off) 4 v) s = .next { s with ovr := true }) ∧
    (off = 0x08 ∧ v = 0x10000000 →
      ∃ t, deliver (.write (s.params.regBase + off) 4 v) s = .next t ∧ t.freshlyReset) ∧
    (off = 0x48 →
      deliver (.write (s.params.regBase + off) 4 v) s =
        .next { s with intEnCmdc := v.getLsbD 0, intEnErri := v.getLsbD 1 }) ∧
    (off = 0x4C →
      deliver (.write (s.params.regBase + off) 4 v) s =
        .next { s with
          intPendCmdc := s.intPendCmdc && !v.getLsbD 0, intPendErri := s.intPendErri && !v.getLsbD 1 }) ∧
    (off ≠ 0x04 → off ≠ 0x08 → off ≠ 0x0C → off ≠ 0x48 → off ≠ 0x4C → off ≠ 0x50 →
      deliver (.write (s.params.regBase + off) 4 v) s = .next s)

/-- R35, R36, R38, R53, R57: with BUSY = 0 a write sets the defined fields of CFG, WDATA, INT_EN and MAP_SEL, which then
read back with their reserved bits 0, ones written to INT_PEND clear its bits, and a write to a read-only register
changes nothing (R33, R35); in phase ERROR too (R290). -/
def Obligations.WritesSetTheirFields : Prop :=
  ∀ (s : State) (v : Word), s.busy = false → s.rst = false →
    (∃ t, deliver (.write (s.params.regBase + 0x04) 4 v) s = .next t ∧ (regRead 0x04 t).toNat = v.toNat % 64 ∧
      t = { s with cfgL := t.cfgL }) ∧
    (∃ t, deliver (.write (s.params.regBase + 0x0C) 4 v) s = .next t ∧ regRead 0x0C t = v ∧
      t = { s with wdata := t.wdata }) ∧
    (∃ t, deliver (.write (s.params.regBase + 0x48) 4 v) s = .next t ∧ (regRead 0x48 t).toNat = v.toNat % 4 ∧
      t = { s with intEnCmdc := t.intEnCmdc, intEnErri := t.intEnErri }) ∧
    (∃ t, deliver (.write (s.params.regBase + 0x50) 4 v) s = .next t ∧ regRead 0x50 t = v ∧
      t.mapSelIdx.toNat = v.toNat % 65536 ∧ t.mapSelOff.toNat = v.toNat / 65536 ∧
      t = { s with mapSelIdx := t.mapSelIdx, mapSelOff := t.mapSelOff }) ∧
    (∃ t, deliver (.write (s.params.regBase + 0x4C) 4 v) s = .next t ∧ regRead 0x4C t = regRead 0x4C s &&& ~~~v ∧
      t = { s with intPendCmdc := t.intPendCmdc, intPendErri := t.intPendErri }) ∧
    ∀ off, off % 4 = 0 → off = 0x00 ∨ (0x10 ≤ off ∧ off ≤ 0x44) ∨ (0x54 ≤ off ∧ off ≤ 0x5C) →
      deliver (.write (s.params.regBase + off) 4 v) s = .next s

/-- R39, R49, R53: each STATUS bit as the host reads it, the reserved bits 0, IRQ the irq output's formula, and the
phase as those bits give it. BUSY and the WAIT bits are views of CUR and PEND (deduced, log 11). -/
def Obligations.StatusBitsAreTheFlags : Prop :=
  ∀ s : State,
    (regRead 0x10 s).getLsbD 0 = s.busy ∧ (regRead 0x10 s).getLsbD 1 = s.err ∧ (regRead 0x10 s).getLsbD 2 = s.hdrDone ∧
    (regRead 0x10 s).getLsbD 3 = s.done ∧ (regRead 0x10 s).getLsbD 4 = s.srcEnd ∧ (regRead 0x10 s).getLsbD 5 = s.ovr ∧
    (regRead 0x10 s).getLsbD 6 = ((s.intPendCmdc && s.intEnCmdc) || (s.intPendErri && s.intEnErri)) ∧
    (regRead 0x10 s).getLsbD 6 = s.irq ∧ (regRead 0x10 s).getLsbD 7 = false ∧
    ((regRead 0x10 s).getLsbD 8 = true ↔ s.pend = .src) ∧ ((regRead 0x10 s).getLsbD 9 = true ↔ ∃ b, s.pend = .out b) ∧
    ((regRead 0x10 s).getLsbD 10 = true ↔ ∃ b, s.pend = .wout b) ∧
    (∀ i, 11 ≤ i → (regRead 0x10 s).getLsbD i = false) ∧
    s.phase =
      if (regRead 0x10 s).getLsbD 1 then .error
      else if (regRead 0x10 s).getLsbD 2 = false then .header
      else if (regRead 0x10 s).getLsbD 3 = false then .body
      else .finished

/-- R57: the map window shows the entry MAP_SEL.IDX selects, the symbol from byte MAP_SEL.OFF on, and 0 where no valid
entry is selected. The map is the list of its valid entries (deduced, log 10). -/
def Obligations.MapWindowShowsTheEntry : Prop :=
  ∀ s : State,
    (∀ x : MapEntry, s.mapSelIdx.toNat < s.params.mapEntries → s.map[s.mapSelIdx.toNat]? = some x → x.sym.length < 65536 →
      (regRead 0x54 s).toNat = 2 ^ 31 + x.clen.toNat * 2 ^ 16 + x.sym.length ∧
      (regRead 0x58 s).toNat = x.code.toNat ∧
      ∀ j, j < 4 →
        ((regRead 0x5C s).extractLsb' (24 - 8 * j) 8 : Byte) = (x.sym[s.mapSelOff.toNat + j]?).getD 0) ∧
    (s.params.mapEntries ≤ s.mapSelIdx.toNat ∨ s.map.length ≤ s.mapSelIdx.toNat →
      regRead 0x54 s = 0 ∧ regRead 0x58 s = 0 ∧ regRead 0x5C s = 0)

/-! ### NOP, the bit reader and RD -/

/-- R263: NOP in any phase but ERROR completes, and nothing changes but INT_PEND.CMDC. That it is accepted and ends in one move
is the model's choice (log 28), and so is that SYMBUF stays as it was (log 9). -/
def Obligations.NopOnlyCompletes : Prop :=
  ∀ s : State, s.canRun → exec .nop s = .next { s with intPendCmdc := true }

/-- R161, R165, R42, R43: RD n returns the next n bits of the source, or all that remain where it ends, the first bit
the most significant of RES_VAL; it advances BR_POS by their number and leaves everything but the reader alone.
`availBits`, what the source gives without a further host move, is the model's (log 2). SYMBUF's part of the frame is
the model's choice (log 9). -/
def Obligations.RdReturnsTheNextBits : Prop :=
  ∀ (n : BitVec 6) (s : State), n.toNat ≤ 32 → s.canRun → n.toNat ≤ s.availBits.length ∨ s.sourceEnds →
    ∃ t, exec (.rd n) s = .next t ∧ t.completed ∧
      t.resCnt.toNat = (s.availBits.take n.toNat).length ∧
      t.resVal.toNat = bitsVal (s.availBits.take n.toNat) ∧
      t.brPos = s.brPos + BitVec.ofNat 32 (s.availBits.take n.toNat).length ∧
      t.availBits = s.availBits.drop n.toNat ∧
      t.srcEnd = (s.srcEnd || decide (s.availBits.length < n.toNat)) ∧
      sameError s t ∧ t.intPendErri = s.intPendErri ∧ t.ovr = s.ovr ∧ ownFrame s t (.rd n)

/-- R164: a SRC `Error` answer during RD is IO_ERROR(0): the bits delivered before it stay delivered, and no result is
written. (For HENT, HDR and DEC see HentReportsTruncation and HentReportsTailTruncation, for BSTEP, BSYM, BODY and DEC
CorruptBodyIsFatal, each through `runsDry`.) -/
def Obligations.SrcErrorEndsRd : Prop :=
  ∀ (n : BitVec 6) (s : State), n.toNat ≤ 32 → s.canRun → s.srcEnd = false → s.availBits.length < n.toNat →
    readyStop s.srcReady = some .error →
    ∃ t, exec (.rd n) s = .next t ∧ recordsError (.ioError 0) t ∧ t.errCause = 10 ∧ t.errInfo = 0 ∧ t.phase = .error ∧
      t.brPos = s.brPos + BitVec.ofNat 32 s.availBits.length ∧ t.brCnt = 0 ∧ sameResult s t

/-- R86, R87, R88: where the host has not answered, a command holds on its port with the WAIT bit set, and takes no
further step by itself. An RD holds on SRC with the bits before the missing byte delivered; a WR on WOUT with the bits up
to the unanswered byte written, and a FLUSH with nothing changed; BSTEP, BSYM, BODY and DEC on OUT with byte `j` of the
symbol they emit offered and the earlier ones sent. (HENT, HDR, DEC and the body commands hold on SRC in
HentReportsTruncation, HentReportsTailTruncation and CorruptBodyIsFatal, through `runsDry`.) -/
def Obligations.RdHoldsOnTheSource : Prop :=
  (∀ (n : BitVec 6) (s : State), n.toNat ≤ 32 → s.canRun → s.srcEnd = false → s.availBits.length < n.toNat →
    readyStop s.srcReady = none →
    ∃ t, exec (.rd n) s = .next t ∧ t.holds ∧ t.pend = .src ∧ (regRead 0x10 t).getLsbD 8 = true ∧ unitOp t = t ∧
      t.brPos = s.brPos + BitVec.ofNat 32 s.availBits.length ∧ sameResult s t) ∧
  (∀ (n : BitVec 6) (s : State) (k : Nat), n.toNat ≤ 32 → s.canRun → s.bwCnt.toNat ≤ 7 →
    s.woutReady = List.replicate k .ack → k < (s.bwCnt.toNat + n.toNat) / 8 →
    ∃ t b, exec (.wr n) s = .next t ∧ t.holds ∧ t.pend = .wout b ∧ (regRead 0x10 t).getLsbD 10 = true ∧ unitOp t = t ∧
      t.woutStream.length = s.woutStream.length + k ∧
      bytesBits (t.woutStream ++ [b]) =
        s.writtenBits ++ (bitsOf n.toNat s.wdata.toNat).take (8 * (k + 1) - s.bwCnt.toNat) ∧
      t.bwPos + s.bwCnt.setWidth 32 = s.bwPos + BitVec.ofNat 32 (8 * (k + 1))) ∧
  (∀ s : State, s.canRun → s.bwCnt ≠ 0 → s.woutReady = [] →
    ∃ t, exec .flush s = .next t ∧ t.holds ∧ t.pend = .wout s.bwAcc ∧ (regRead 0x10 t).getLsbD 10 = true ∧ unitOp t = t ∧
      sameWriter s t) ∧
  ∀ (i : Instr) (s : State) (hdr : List Bool) (m ys : List MapEntry) (pre : List Bool) (b : Bool) (rest : List Bool)
    (e : Nat) (x : MapEntry) (j : Nat) (c : Byte), Inv s → s.canRun →
    BodyAt i s hdr m ys pre (b :: rest) (List.replicate j .ack) → m[e]? = some x → codeBits x = pre ++ [b] →
    x.sym ≠ s.params.eofBytes → x.sym[j]? = some c →
    ∃ t, exec i s = .next t ∧ t.holds ∧ t.pend = .out c ∧ (regRead 0x10 t).getLsbD 9 = true ∧ unitOp t = t ∧
      t.outStream = s.outStream ++ symBytes ys ++ x.sym.take j ∧ t.symCount = s.symCount + BitVec.ofNat 32 ys.length ∧
      t.lastSymV = true ∧ t.lastSymIdx.toNat = e ∧ t.cand = 0 ∧ t.candLen = 0 ∧ t.done = false ∧ t.availBits = rest

/-- R162: the unit requests a byte only when the reader's buffer is empty, a bit is wanted and `End` has not been
answered. -/
def Obligations.TopUpIsLazy : Prop :=
  ∀ s : State, s.pend ≠ .src → (unitOp s).pend = .src →
    s.brCnt = 0 ∧ s.srcEnd = false ∧ ∃ c n k v r, s.cur = some { instr := c, pos := .read n k v r } ∧ k < n

/-- R163: once `End` is answered the unit never requests a byte again, and SRC_END stays until a reset. -/
def Obligations.EndIsFinal : Prop :=
  ∀ s t : State, Inv s → s.srcEnd = true → step s = .next t →
    t.freshlyReset ∨ (t.srcEnd = true ∧ t.pend ≠ .src ∧ t.srcStream = s.srcStream ∧ t.brPos = s.brPos)

/-- R167, R44: no step but a reset moves the reader backward or changes a byte it has fetched. -/
def Obligations.ReaderOnlyMovesForward : Prop :=
  ∀ s t : State, Inv s → step s = .next t →
    t.freshlyReset ∨ (s.srcStream <+: t.srcStream ∧ s.delivered ≤ t.delivered)

/-! ### The ports -/

/-- R86, R87, R161, R181: an answer to the outstanding request ends the hold and has its effect. The last three clauses,
that an answer to no request has no effect in any state, are the model's choice (log 16): R264 says so only of an answer
that arrives after a reset. -/
def Obligations.PortAnswersEndTheHold : Prop :=
  ∀ (s : State) (b c : Byte),
    (s.pend = .src →
      deliver (.answerSrc (.byte b)) s =
        .next { s with pend := .none, brBuf := b, brCnt := 8, srcStream := s.srcStream ++ [b] } ∧
      deliver (.answerSrc .endOfData) s = .next { s with pend := .none, srcEnd := true } ∧
      ∃ t, deliver (.answerSrc .error) s = .next t ∧ recordsError (.ioError 0) t ∧ sameReader s t) ∧
    (s.pend = .out c → deliver (.answerOut .ack) s = .next { s with pend := .none, outStream := s.outStream ++ [c] }) ∧
    (s.pend = .wout c →
      deliver (.answerWout .ack) s =
        .next { s with pend := .none, woutStream := s.woutStream ++ [c], bwAcc := 0, bwCnt := 0 }) ∧
    (s.pend ≠ .src → ∀ a, deliver (.answerSrc a) s = .next s) ∧
    ((∀ c, s.pend ≠ .out c) → ∀ a, deliver (.answerOut a) s = .next s) ∧
    ((∀ c, s.pend ≠ .wout c) → ∀ a, deliver (.answerWout a) s = .next s)

/-- R261, R60: while a command runs, a host move that is neither a reset nor a port answer changes nothing the command
reads or writes but the INT_PEND bits: only OVR, INT_EN, INT_PEND, what the host has read, the answers it has ready, and
the level of rst. -/
def Obligations.HostMovesDoNotDisturbTheCommand : Prop :=
  ∀ (s : State) (e : HostEvent) (t : State), s.busy = true → (∀ a, e ≠ .answerSrc a) → (∀ a, e ≠ .answerOut a) →
    (∀ a, e ≠ .answerWout a) → deliver e s = .next t →
    t.freshlyReset ∨
      t = { s with
        ovr := t.ovr, intEnCmdc := t.intEnCmdc, intEnErri := t.intEnErri, intPendCmdc := t.intPendCmdc,
        intPendErri := t.intPendErri, readData := t.readData, draws := t.draws, srcReady := t.srcReady,
        outReady := t.outReady, woutReady := t.woutReady, rst := t.rst }

/-! ### The bit writer, WR and FLUSH -/

/-- R181, R182, R183: WR n appends the n low bits of WDATA, the first the most significant, to the bits written so
far; each byte goes out as it fills, and at most seven bits stay in the accumulator. SYMBUF's part of the frame is the
model's choice (log 9). -/
def Obligations.WrAppendsTheBits : Prop :=
  ∀ (n : BitVec 6) (s : State), n.toNat ≤ 32 → s.canRun → s.bwCnt.toNat ≤ 7 →
    s.acksWout ((s.bwCnt.toNat + n.toNat) / 8) →
    ∃ t, exec (.wr n) s = .next t ∧ t.completed ∧
      t.writtenBits = s.writtenBits ++ bitsOf n.toNat s.wdata.toNat ∧
      t.woutStream.length = s.woutStream.length + (s.bwCnt.toNat + n.toNat) / 8 ∧
      t.bwCnt.toNat = (s.bwCnt.toNat + n.toNat) % 8 ∧ t.bwPos = s.bwPos + n.setWidth 32 ∧
      sameError s t ∧ t.intPendErri = s.intPendErri ∧ t.ovr = s.ovr ∧ ownFrame s t (.wr n)

/-- R184: FLUSH sends the partial byte padded with zeros to the byte boundary, or nothing where the writer stands on
one; BW_POS does not count the padding. SYMBUF's part of the frame is the model's choice (log 9). -/
def Obligations.FlushPadsAndSends : Prop :=
  ∀ s : State, s.canRun → s.bwCnt.toNat ≤ 7 → s.bwAcc.toNat % 2 ^ (8 - s.bwCnt.toNat) = 0 →
    (s.bwCnt ≠ 0 → s.acksWout 1) →
    ∃ t, exec .flush s = .next t ∧ t.completed ∧
      t.writtenBits = s.writtenBits ++ List.replicate ((8 - s.bwCnt.toNat) % 8) false ∧
      t.woutStream.length = s.woutStream.length + (if s.bwCnt = 0 then 0 else 1) ∧
      t.bwCnt = 0 ∧ (s.bwCnt ≠ 0 → t.bwAcc = 0) ∧ t.bwPos = s.bwPos ∧
      sameError s t ∧ t.intPendErri = s.intPendErri ∧ t.ovr = s.ovr ∧ ownFrame s t .flush

/-- R185, R231: a WOUT `Error` answer is IO_ERROR(2), where the byte offered is lost and BW_POS keeps the count of bits
written; an OUT `Error` answer is IO_ERROR(1), where the symbol's earlier bytes stay sent and SYM_COUNT is not
incremented. -/
def Obligations.SinkErrorsEndTheCommand : Prop :=
  ∀ (s : State) (b : Byte),
    (s.pend = .wout b →
      ∃ t, deliver (.answerWout .error) s = .next t ∧ recordsError (.ioError 2) t ∧ t.errCause = 10 ∧ t.errInfo = 2 ∧
        t.woutStream = s.woutStream ∧ t.bwPos = s.bwPos ∧ t.phase = .error) ∧
    (s.pend = .out b →
      ∃ t, deliver (.answerOut .error) s = .next t ∧ recordsError (.ioError 1) t ∧ t.errCause = 10 ∧ t.errInfo = 1 ∧
        sameBody s t ∧ sameMap s t ∧ t.phase = .error)

/-! ### The header parser, HENT and HDR -/

/-- R201: HENT, HDR and DEC with CFG.L outside 1 to 32 raise BAD_CONFIG(0) before reading any bit. That SYMBUF stays as it
was is the model's choice (log 9), and so is that the command is accepted and ends in one move (log 28). -/
def Obligations.BadLengthIsRefused : Prop :=
  ∀ (i : Instr) (s : State), i = .hent ∨ i = .hdr ∨ i = .dec → s.busy = false → s.err = false → s.hdrDone = false →
    s.cfgL.toNat < 1 ∨ 32 < s.cfgL.toNat →
    ∃ t, exec i s = .next t ∧ recordsError .badConfig t ∧ t.errCause = 13 ∧ t.errInfo = 0 ∧ sameReader s t ∧
      sameMap s t ∧ sameSymBuf s t

/-- R202, R206, R207: HENT on a well-formed entry of the container appends it to the map at index MAP_COUNT, raises
MAXLEN to the maximum, and consumes exactly the entry's bits (R113). -/
def Obligations.HentInsertsTheEntry : Prop :=
  ∀ (s : State) (x : MapEntry) (rest : List Bool), s.canRun → s.hdrDone = false → s.params.symBytesMax ≤ 65535 →
    1 ≤ s.cfgL.toNat → s.cfgL.toNat ≤ 32 → entryFits s.params s.cfgL.toNat x →
    matchCode s.map x.clen.toNat (x.code.setWidth 32) = none → s.map.length < s.params.mapEntries →
    s.availBits = entryBits s.cfgL.toNat x ++ rest →
    ∃ t, exec .hent s = .next t ∧ t.completed ∧ t.map = s.map ++ [x] ∧
      t.maxLen.toNat = max s.maxLen.toNat x.clen.toNat ∧ t.hdrDone = false ∧ t.availBits = rest ∧
      t.brPos = s.brPos + BitVec.ofNat 32 (s.cfgL.toNat + 8 * x.sym.length + 5 + x.clen.toNat) ∧
      t.srcEnd = s.srcEnd ∧ sameError s t ∧ t.intPendErri = s.intPendErri ∧ t.ovr = s.ovr ∧ ownFrame s t .hent

/-- R204: HENT on the MAP_END entry sets HDR_DONE and inserts nothing; with `MAPEND_TAIL = FULL_ENTRY` its code-length
field and that many code bits, whatever they are, are read and discarded, with `SYMBOL_ONLY` nothing after the symbol is
read. -/
def Obligations.HentEndsTheHeaderAtMapEnd : Prop :=
  ∀ (s : State) (c : Nat) (tail rest : List Bool), s.canRun → s.hdrDone = false → paramsLegal s.params = true →
    1 ≤ s.cfgL.toNat → s.cfgL.toNat ≤ 32 → s.params.mapEndBytes.length < 2 ^ s.cfgL.toNat → c ≤ 31 → tail.length = c →
    s.availBits = mapEndBits s.params s.cfgL.toNat c tail ++ rest →
    ∃ t, exec .hent s = .next t ∧ t.completed ∧ t.hdrDone = true ∧ t.map = s.map ∧ t.maxLen = s.maxLen ∧
      t.availBits = rest ∧ t.brPos = s.brPos + BitVec.ofNat 32 (mapEndBits s.params s.cfgL.toNat c tail).length ∧
      t.srcEnd = s.srcEnd ∧ sameError s t ∧ t.intPendErri = s.intPendErri ∧ t.ovr = s.ovr ∧ ownFrame s t .hent

/-- R202, R203, R205, R206, R285, R287: the checks of an entry, in HENT and, after the entries `xs`, in HDR and DEC: a zero or
too long SYMLEN, ill-formed UTF-8 where it is checked, a zero CLEN, a duplicate code, then a full map. Each asks only for the
bits up to the end of the field that fails, whatever `rest` follows, or nothing: it is made before any later bit is wanted.
The map keeps the entries before it and no more, and ERR_POS is the end of the field. Well-formed UTF-8 is as log 18 has it.
-/
def Obligations.HentRejectsBadEntries : Prop :=
  ∀ (i : Instr) (s : State) (xs : List MapEntry) (rest : List Bool), parsesAfter i xs → s.canRun → s.hdrDone = false →
    paramsLegal s.params = true → 1 ≤ s.cfgL.toNat → s.cfgL.toNat ≤ 32 → mapTakes s.params s.cfgL.toNat s.map xs →
    let L := s.cfgL.toNat
    let before := xs.flatMap (entryBits L)
    (s.availBits = before ++ (bitsOf L 0 ++ rest) → headerFails i s xs .hdrZeroLen (before.length + L) rest) ∧
    (∀ n, s.params.symBytesMax < n → n < 2 ^ L → s.availBits = before ++ (bitsOf L n ++ rest) →
      headerFails i s xs .hdrSymTooLong (before.length + L) rest) ∧
    (∀ sym : List Byte, 1 ≤ sym.length → sym.length < 2 ^ L → sym.length ≤ s.params.symBytesMax →
      (s.params.checkUtf8 = true → wellFormedUtf8 sym = false →
        s.availBits = before ++ (bitsOf L sym.length ++ bytesBits sym ++ rest) →
        headerFails i s xs .hdrBadUtf8 (before.length + L + 8 * sym.length) rest) ∧
      (sym ≠ s.params.mapEndBytes → (s.params.checkUtf8 = true → wellFormedUtf8 sym = true) →
        s.availBits = before ++ (bitsOf L sym.length ++ bytesBits sym ++ bitsOf 5 0 ++ rest) →
        headerFails i s xs .hdrZeroClen (before.length + L + 8 * sym.length + 5) rest)) ∧
    (∀ x : MapEntry, entryFits s.params L x → s.availBits = before ++ (entryBits L x ++ rest) →
      (matchCode (s.map ++ xs) x.clen.toNat (x.code.setWidth 32) ≠ none →
        headerFails i s xs .hdrDupCode (before.length + (entryBits L x).length) rest) ∧
      (matchCode (s.map ++ xs) x.clen.toNat (x.code.setWidth 32) = none →
        (s.map ++ xs).length = s.params.mapEntries →
        headerFails i s xs .hdrMapFull (before.length + (entryBits L x).length) rest))

/-- R202, R163, R164, R88, R286: where the bits give out `cut` bits into an entry, in HENT and, after the entries `xs`, in
HDR and DEC: at the source's end HDR_TRUNC names the field it ended in, a SRC `Error` is IO_ERROR(0), and without an
answer the command holds. The map keeps the entries before it, and BR_POS, which ERR_POS then records, counts every bit
the source gave. (An entry whose SYMLEN or symbol is bad, and there: HentRejectsBadEntries.) -/
def Obligations.HentReportsTruncation : Prop :=
  ∀ (i : Instr) (s : State) (xs : List MapEntry) (x : MapEntry) (cut : Nat), parsesAfter i xs → s.canRun →
    s.hdrDone = false → s.params.symBytesMax ≤ 65535 → 1 ≤ s.cfgL.toNat → s.cfgL.toNat ≤ 32 →
    mapTakes s.params s.cfgL.toNat s.map xs → x.sym.length < 2 ^ s.cfgL.toNat →
    (s.cfgL.toNat ≤ cut → 1 ≤ x.sym.length ∧ x.sym.length ≤ s.params.symBytesMax) →
    (s.cfgL.toNat + 8 * x.sym.length ≤ cut →
      x.sym ≠ s.params.mapEndBytes ∧ (s.params.checkUtf8 = true → wellFormedUtf8 x.sym = true)) →
    cut < (entryBits s.cfgL.toNat x).length →
    s.availBits = xs.flatMap (entryBits s.cfgL.toNat) ++ (entryBits s.cfgL.toNat x).take cut →
    ∃ t, exec i s = .next t ∧
      s.runsDry
        (.hdrTrunc
          (if cut < s.cfgL.toNat then 0
          else if cut < s.cfgL.toNat + 8 * x.sym.length then 1
          else if cut < s.cfgL.toNat + 8 * x.sym.length + 5 then 2
          else 3)) t ∧
      t.brPos = s.brPos + BitVec.ofNat 32 s.availBits.length ∧ t.map = s.map ++ xs ∧ t.hdrDone = false ∧
      t.outStream = s.outStream

/-- R204, R163, R164, R88: where the bits give out in the tail of the MAP_END entry, in HENT and, after the entries `xs`, in HDR
and DEC: HDR_TRUNC(2) or HDR_TRUNC(3) at the source's end, IO_ERROR(0) where the port answers `Error`, and a hold without an
answer. HDR_DONE stays 0. -/
def Obligations.HentReportsTailTruncation : Prop :=
  ∀ (i : Instr) (s : State) (xs : List MapEntry) (c cut : Nat) (tail : List Bool), parsesAfter i xs → s.canRun →
    s.hdrDone = false → paramsLegal s.params = true → s.params.mapEndTail = .fullEntry → 1 ≤ s.cfgL.toNat →
    s.cfgL.toNat ≤ 32 → mapTakes s.params s.cfgL.toNat s.map xs → s.params.mapEndBytes.length < 2 ^ s.cfgL.toNat →
    c ≤ 31 → tail.length = c → s.cfgL.toNat + 8 * s.params.mapEndBytes.length ≤ cut →
    cut < (mapEndBits s.params s.cfgL.toNat c tail).length →
    s.availBits = xs.flatMap (entryBits s.cfgL.toNat) ++ (mapEndBits s.params s.cfgL.toNat c tail).take cut →
    ∃ t, exec i s = .next t ∧
      s.runsDry (.hdrTrunc (if cut < s.cfgL.toNat + 8 * s.params.mapEndBytes.length + 5 then 2 else 3)) t ∧
      t.brPos = s.brPos + BitVec.ofNat 32 s.availBits.length ∧ t.map = s.map ++ xs ∧ t.hdrDone = false ∧
      t.outStream = s.outStream

/-- R202, R208, R236: a source that ends at an entry boundary, before any MAP_END entry, ends HDR and DEC in HDR_TRUNC(0),
with the entries before the end in the map. (A source that ends inside an entry: HentReportsTruncation.) -/
def Obligations.HeaderWithoutMapEndIsTruncated : Prop :=
  ∀ (i : Instr) (s : State) (xs : List MapEntry), i = .hdr ∨ i = .dec → s.canRun → s.hdrDone = false →
    s.params.symBytesMax ≤ 65535 → 1 ≤ s.cfgL.toNat → s.cfgL.toNat ≤ 32 → mapTakes s.params s.cfgL.toNat s.map xs →
    s.availBits = xs.flatMap (entryBits s.cfgL.toNat) → s.sourceEnds →
    ∃ t, exec i s = .next t ∧ recordsError (.hdrTrunc 0) t ∧ t.errCause = 1 ∧ t.errInfo = 0 ∧ t.map = s.map ++ xs ∧
      t.hdrDone = false ∧ t.errPos = s.brPos + BitVec.ofNat 32 s.availBits.length ∧ t.outStream = s.outStream

/-- R208: HDR on a whole header inserts its entries in arrival order, sets HDR_DONE, and reads no bit after the MAP_END
entry. -/
def Obligations.HdrParsesTheWholeHeader : Prop :=
  ∀ (s : State) (xs : List MapEntry) (c : Nat) (tail rest : List Bool), s.canRun → s.hdrDone = false →
    paramsLegal s.params = true → 1 ≤ s.cfgL.toNat → s.cfgL.toNat ≤ 32 →
    s.params.mapEndBytes.length < 2 ^ s.cfgL.toNat → c ≤ 31 → tail.length = c →
    mapTakes s.params s.cfgL.toNat s.map xs →
    s.availBits = headerBits s.params s.cfgL.toNat xs c tail ++ rest →
    ∃ t, exec .hdr s = .next t ∧ t.completed ∧ t.hdrDone = true ∧ t.map = s.map ++ xs ∧
      (s.maxLen.toNat = maxCodeLen s.map → t.maxLen.toNat = maxCodeLen (s.map ++ xs)) ∧ t.availBits = rest ∧
      t.brPos = s.brPos + BitVec.ofNat 32 (headerBits s.params s.cfgL.toNat xs c tail).length ∧
      t.srcEnd = s.srcEnd ∧ sameError s t ∧ t.intPendErri = s.intPendErri ∧ t.ovr = s.ovr ∧ ownFrame s t .hdr

/-! ### The body decoder, BSTEP, BSYM, BODY and DEC -/

/-- R230, R231, R232, R233: BSTEP takes one bit. Where the candidate then is a code, the symbol's bytes go to OUT and
it is counted, or, for the EOF symbol, DONE is set and nothing is sent; where it is none and is not overlong, it is
kept. SYMBUF's part of the frame is the model's choice (log 9). -/
def Obligations.BstepMatchesOneBit : Prop :=
  ∀ (s : State) (b : Bool) (rest : List Bool), Inv s → s.canRun → s.hdrDone = true → s.done = false →
    s.availBits = b :: rest →
    (∀ (e : Nat) (x : MapEntry) (l : List SinkAnswer), s.map[e]? = some x → codeBits x = s.candBits ++ [b] →
      x.sym ≠ s.params.eofBytes → s.acksOut x.sym.length l →
      ∃ t, exec .bstep s = .next t ∧ t.completed ∧ t.outStream = s.outStream ++ x.sym ∧ t.outReady = l ∧
        t.symCount = s.symCount + 1 ∧ t.lastSymV = true ∧ t.lastSymIdx.toNat = e ∧ t.cand = 0 ∧ t.candLen = 0 ∧
        t.done = false ∧ t.availBits = rest ∧ t.brPos = s.brPos + 1 ∧ ownFrame s t .bstep) ∧
    (∀ (e : Nat) (x : MapEntry), s.map[e]? = some x → codeBits x = s.candBits ++ [b] → x.sym = s.params.eofBytes →
      ∃ t, exec .bstep s = .next t ∧ t.completed ∧ t.outStream = s.outStream ∧ t.symCount = s.symCount ∧
        t.lastSymV = true ∧ t.lastSymIdx.toNat = e ∧ t.cand = 0 ∧ t.candLen = 0 ∧ t.done = true ∧
        t.availBits = rest ∧ t.brPos = s.brPos + 1 ∧ ownFrame s t .bstep) ∧
    ((∀ x ∈ s.map, codeBits x ≠ s.candBits ++ [b]) → s.candLen.toNat + 1 ≤ s.maxLen.toNat →
      ∃ t, exec .bstep s = .next t ∧ t.completed ∧ t.candBits = s.candBits ++ [b] ∧
        t.candLen.toNat = s.candLen.toNat + 1 ∧ t.outStream = s.outStream ∧ t.symCount = s.symCount ∧
        t.lastSymV = s.lastSymV ∧ t.lastSymIdx = s.lastSymIdx ∧ t.done = false ∧ t.availBits = rest ∧
        t.brPos = s.brPos + 1 ∧ ownFrame s t .bstep)

/-- R238, R230, R163, R164, R88, R285: the corrupt-body checks in BSTEP, BSYM, BODY and DEC, at whatever body step they come:
after the symbols `ys`, each the first that its bits match (R239), with the candidate `pre`. The bit that makes the candidate longer than the longest known code
raises BODY_NO_MATCH with the candidate kept; where the bits give out, the source's end raises BODY_TRUNC, a SRC `Error`
is IO_ERROR(0), and without an answer the command holds. -/
def Obligations.CorruptBodyIsFatal : Prop :=
  ∀ (i : Instr) (s : State) (hdr : List Bool) (m ys : List MapEntry) (pre : List Bool) (l : List SinkAnswer), Inv s →
    s.canRun →
    (∀ (b : Bool) (rest : List Bool), BodyAt i s hdr m ys pre (b :: rest) l → pre.length = maxCodeLen m →
      ∃ t, exec i s = .next t ∧ recordsError (.bodyNoMatch (BitVec.ofNat 8 (maxCodeLen m + 1))) t ∧ t.errCause = 8 ∧
        bodyStands s hdr m ys (pre ++ [b]) t ∧ t.availBits = rest ∧ t.outReady = l ∧ t.srcEnd = s.srcEnd) ∧
    (BodyAt i s hdr m ys pre [] l → pre.length ≤ maxCodeLen m →
      ∃ t, exec i s = .next t ∧ s.runsDry (.bodyTrunc (BitVec.ofNat 8 pre.length)) t ∧
        bodyStands s hdr m ys pre t ∧ t.outReady = l)

/-- R234, R239: BSYM, from whatever candidate stands, takes the bits of the first code they match, in any map the
header parser accepts, and ends after exactly that one match. Where one code is a proper prefix of another, the
shorter is matched. SYMBUF's part of the frame is the model's choice (log 9). -/
def Obligations.BsymDecodesOneSymbol : Prop :=
  ∀ (s : State) (e : Nat) (x : MapEntry) (rest : List Bool) (l : List SinkAnswer), Inv s → s.canRun →
    s.hdrDone = true → s.done = false → s.map[e]? = some x → s.candLen.toNat < x.clen.toNat →
    matchedFirst s.map s.candLen.toNat x → s.candBits ++ s.availBits = codeBits x ++ rest →
    (x.sym ≠ s.params.eofBytes → s.acksOut x.sym.length l) →
    ∃ t, exec .bsym s = .next t ∧ t.completed ∧ t.lastSymV = true ∧ t.lastSymIdx.toNat = e ∧ t.cand = 0 ∧
      t.candLen = 0 ∧ t.availBits = rest ∧ t.brPos = s.brPos + BitVec.ofNat 32 (x.clen.toNat - s.candLen.toNat) ∧
      (x.sym ≠ s.params.eofBytes →
        t.outStream = s.outStream ++ x.sym ∧ t.symCount = s.symCount + 1 ∧ t.done = false ∧ t.outReady = l) ∧
      (x.sym = s.params.eofBytes → t.outStream = s.outStream ∧ t.symCount = s.symCount ∧ t.done = true) ∧
      ownFrame s t .bsym

/-- R235, R231, R232, R239: BODY on the codes of the symbols `ys` and the EOF code, each the first that its bits
match, emits their bytes in order, stops at the EOF code, and consumes no bit after it. The map is any the header
parser accepts. SYMBUF's part of the frame is the model's choice (log 9). -/
def Obligations.BodyDecodesToEof : Prop :=
  ∀ (s : State) (ys : List MapEntry) (e : Nat) (z : MapEntry) (rest : List Bool) (l : List SinkAnswer), Inv s → s.canRun →
    s.hdrDone = true → s.done = false →
    (∀ y ∈ ys, y ∈ s.map ∧ y.sym ≠ s.params.eofBytes) → s.map[e]? = some z → z.sym = s.params.eofBytes →
    matchedInTurn s.map s.candLen.toNat (ys ++ [z]) →
    s.candBits ++ s.availBits = bodyBits ys ++ codeBits z ++ rest → s.acksOut (symBytes ys).length l →
    ∃ t, exec .body s = .next t ∧ t.completed ∧ t.runSucceeded ∧ t.outStream = s.outStream ++ symBytes ys ∧
      t.outReady = l ∧ t.symCount = s.symCount + BitVec.ofNat 32 ys.length ∧ t.lastSymV = true ∧
      t.lastSymIdx.toNat = e ∧ t.cand = 0 ∧ t.candLen = 0 ∧ t.availBits = rest ∧
      t.brPos + s.candLen.setWidth 32 = s.brPos + BitVec.ofNat 32 (bodyBits ys ++ codeBits z).length ∧ ownFrame s t .body

/-- The decode half of the source's round trip (R110 to R114, R236, R237): DEC on a container laid down for the map
entries `xs` and the symbols `ys` ends in a successful run whose OUT bytes are the symbols' bytes in order, and leaves
every bit after the EOF code unread. The map is any the header parser accepts; where one code is a proper prefix of another,
each symbol is the first that its bits match (R239). -/
def Obligations.DecDecodesTheContainer : Prop :=
  ∀ (s : State) (xs ys : List MapEntry) (e c : Nat) (z : MapEntry) (tail rest : List Bool) (l : List SinkAnswer),
    Inv s → s.canRun → s.hdrDone = false → 1 ≤ s.cfgL.toNat → s.cfgL.toNat ≤ 32 →
    s.params.mapEndBytes.length < 2 ^ s.cfgL.toNat → c ≤ 31 → tail.length = c →
    mapTakes s.params s.cfgL.toNat s.map xs →
    (∀ y ∈ ys, y ∈ s.map ++ xs ∧ y.sym ≠ s.params.eofBytes) → (s.map ++ xs)[e]? = some z →
    z.sym = s.params.eofBytes → matchedInTurn (s.map ++ xs) 0 (ys ++ [z]) →
    s.availBits = headerBits s.params s.cfgL.toNat xs c tail ++ (bodyBits ys ++ codeBits z ++ rest) →
    s.acksOut (symBytes ys).length l →
    ∃ t, exec .dec s = .next t ∧ t.completed ∧ t.runSucceeded ∧ t.map = s.map ++ xs ∧
      t.outStream = s.outStream ++ symBytes ys ∧ t.outReady = l ∧ t.symCount = BitVec.ofNat 32 ys.length ∧
      t.lastSymIdx.toNat = e ∧ t.availBits = rest ∧
      t.brPos = s.brPos +
        BitVec.ofNat 32 (headerBits s.params s.cfgL.toNat xs c tail ++ (bodyBits ys ++ codeBits z)).length ∧
      ownFrame s t .dec

/-- R118: the decoded output does not depend on the order of the header's entries: two maps with the same entries and no
code twice give every candidate the same symbol. -/
def Obligations.EntryOrderDoesNotMatter : Prop :=
  ∀ (m m' : List MapEntry) (k : Nat) (v : Word), m.Perm m' →
    m.Pairwise (fun x y => ¬(x.clen = y.clen ∧ x.code = y.code)) →
    (matchCode m k v).map (entrySym m) = (matchCode m' k v).map (entrySym m')

/-! ### Frames -/

/-- What RD leaves alone, whether it completes, holds, ends in an error or is dropped (R30, R160, R165). SYMBUF's part is the
model's choice (log 9). -/
def Obligations.RdLeavesTheRestAlone : Prop :=
  ∀ (n : BitVec 6) (s t : State), (s.cur = none → s.pend = .none) → exec (.rd n) s = .next t →
    ownFrame s t (.rd n) ∧ statusFrame s t ∧ (t.busy = true ∨ t.err = true → sameResult s t) ∧
      t.ovr = (s.ovr || s.busy)

/-- What WR and FLUSH leave alone: "BW shares no state with BR, HP or BD" (R180, R182, R184). SYMBUF's
part is the model's choice (log 9). -/
def Obligations.WriterLeavesTheRestAlone : Prop :=
  ∀ (i : Instr) (s t : State), (∃ n, i = .wr n) ∨ i = .flush → (s.cur = none → s.pend = .none) → exec i s = .next t →
    ownFrame s t i ∧ statusFrame s t ∧ t.ovr = (s.ovr || s.busy)

/-- What HENT and HDR leave alone, and that the map only grows at its end (R54, R200, R206). -/
def Obligations.HeaderParserLeavesTheRestAlone : Prop :=
  ∀ (i : Instr) (s t : State), i = .hent ∨ i = .hdr → (s.cur = none → s.pend = .none) → exec i s = .next t →
    ownFrame s t i ∧ statusFrame s t ∧ t.ovr = (s.ovr || s.busy) ∧ s.map <+: t.map ∧
      (s.hdrDone = true → sameMap s t)

/-- What BSTEP, BSYM, BODY and DEC leave alone: the writer, the results, the host's registers and, but for DEC, the map
(R200, R230, R236); the map and OUT only grow at their ends (R54, R231). SYMBUF's part is the model's choice
(log 9). -/
def Obligations.BodyDecoderLeavesTheRestAlone : Prop :=
  ∀ (i : Instr) (s t : State), i = .bstep ∨ i = .bsym ∨ i = .body ∨ i = .dec → (s.cur = none → s.pend = .none) →
    exec i s = .next t →
    ownFrame s t i ∧ statusFrame s t ∧ t.ovr = (s.ovr || s.busy) ∧ s.map <+: t.map ∧ s.outStream <+: t.outStream

/-- A command that is running, as after a hold (R261), leaves alone in every operation what is not its sub-unit's (R30, R160,
R180, R200, R230), and moves the status registers only as Complete and error entry move them (R262, R284). SYMBUF's part is
the model's choice (log 9). -/
def Obligations.ResumedCommandKeepsItsFrame : Prop :=
  ∀ (s : State) (c : Cur), Inv s → s.cur = some c → ownFrame s (unitOp s) c.instr ∧ statusFrame s (unitOp s) ∧
    (unitOp s).ovr = s.ovr

/-! ### The whole machine -/

/-- The invariant holds right after reset, for every legal parameter value. -/
def Obligations.ResetMeetsTheInvariant : Prop := ∀ p : Params, paramsLegal p = true → Inv (State.resetWith p)

/-- Every step keeps the invariant: the map's codes distinct and MAXLEN their maximum, the buffers within their bounds
and 8*F = BR_POS + BR_CNT, the accumulator's unused bits zero, the candidate never longer than MAXLEN + 1, the error
registers 0 without an error, DONE only with HDR_DONE and on the EOF entry, and CUR and PEND at a position their command
reaches. -/
def Obligations.EveryStepKeepsTheInvariant : Prop := ∀ s t : State, Inv s → step s = .next t → Inv t

/-- R61: ERR, HDR_DONE, DONE, SRC_END and OVR, once set, stay set until a reset. -/
def Obligations.FlagsAreSticky : Prop :=
  ∀ s t : State, Inv s → step s = .next t →
    t.freshlyReset ∨
      ((s.err = true → t.err = true) ∧ (s.hdrDone = true → t.hdrDone = true) ∧ (s.done = true → t.done = true) ∧
        (s.srcEnd = true → t.srcEnd = true) ∧ (s.ovr = true → t.ovr = true))

/-- R290, R291: the first error is the one recorded, and only a reset leaves phase ERROR. -/
def Obligations.FirstErrorIsKept : Prop :=
  ∀ s t : State, Inv s → s.err = true → step s = .next t →
    t.freshlyReset ∨
      (t.err = true ∧ t.errCause = s.errCause ∧ t.errInfo = s.errInfo ∧ t.errPos = s.errPos ∧ t.busy = false ∧
        t.brPos = s.brPos ∧ t.map = s.map ∧ t.outStream = s.outStream)

/-- R54, R200: no step but a reset changes or removes a map entry, and once HDR_DONE is set the map is frozen. -/
def Obligations.MapOnlyGrowsThenFreezes : Prop :=
  ∀ s t : State, Inv s → step s = .next t →
    t.freshlyReset ∨ (s.map <+: t.map ∧ (s.hdrDone = true → t.map = s.map ∧ t.maxLen = s.maxLen))

/-- R261, R88: a command that nothing interrupts runs until it has ended or holds on a port that has no answer ready, and
the answer that comes then has the command go on as it would have with that answer ready: it comes to the state it would
have come to without the hold. That one step runs it that far is the model's choice (log 20). -/
def Obligations.CommandsRunToTheirEndOrAHold : Prop :=
  (∀ (i : Instr) (s : State), s.canRun → ∃ t, exec i s = .next t ∧ (t.busy = false ∨ t.holds)) ∧
  (∀ (i : Instr) (s t : State), s.canRun → exec i s = .next t → t.holds →
    (t.pend = .src → ∀ a, ∃ u, deliver (.answerSrc a) t = .next u ∧
      exec i { s with srcReady := s.srcReady ++ [a] } = .next (unitRun u)) ∧
    ((∃ b, t.pend = .out b) → ∀ a, ∃ u, deliver (.answerOut a) t = .next u ∧
      exec i { s with outReady := s.outReady ++ [a] } = .next (unitRun u)) ∧
    ((∃ b, t.pend = .wout b) → ∀ a, ∃ u, deliver (.answerWout a) t = .next u ∧
      exec i { s with woutReady := s.woutReady ++ [a] } = .next (unitRun u))) ∧
  ∀ s : State, s.moves = [] → s.atRest = false → step s = .next (unitRun s)

/-- R93: at every command boundary the reader has buffered at most seven bits, and 8*F = BR_POS + BR_CNT modulo 2^32. The
equation and the bound are the spec's own inference from R161, which R93 marks as derived. -/
def Obligations.ReadAheadIsBounded : Prop :=
  ∀ s t : State, Inv s → step s = .next t → t.busy = false →
    t.brCnt.toNat ≤ 7 ∧ (8 * t.srcStream.length) % 2 ^ 32 = (t.brPos.toNat + t.brCnt.toNat) % 2 ^ 32

/-- R88, U12: while the unit holds, a step with no host move left is the fault `heldForever`, and only then does a step
fault. The fault is the model's name for the hang (log 12). -/
def Obligations.OnlyAnUnansweredHoldFaults : Prop :=
  ∀ s : State, (s.moves = [] → s.holds → step s = .fault .heldForever) ∧
    ∀ f, step s = .fault f → f = .heldForever ∧ s.holds ∧ s.moves = []
end

