-- ==== Sys2Proof/Laws/State.lean ====
section
/-! SUPPORT. One lemma per field for each update of State the commands share: what it sets, and what it leaves. -/

namespace Sys2Proof.Machine


/-! ### goTo -/

@[simp] theorem goTo_params (i : Instr) (p : Pos) (s : State) : (goTo i p s).params = s.params := rfl
@[simp] theorem goTo_cfgL (i : Instr) (p : Pos) (s : State) : (goTo i p s).cfgL = s.cfgL := rfl
@[simp] theorem goTo_wdata (i : Instr) (p : Pos) (s : State) : (goTo i p s).wdata = s.wdata := rfl
@[simp] theorem goTo_err (i : Instr) (p : Pos) (s : State) : (goTo i p s).err = s.err := rfl
@[simp] theorem goTo_hdrDone (i : Instr) (p : Pos) (s : State) : (goTo i p s).hdrDone = s.hdrDone := rfl
@[simp] theorem goTo_done (i : Instr) (p : Pos) (s : State) : (goTo i p s).done = s.done := rfl
@[simp] theorem goTo_srcEnd (i : Instr) (p : Pos) (s : State) : (goTo i p s).srcEnd = s.srcEnd := rfl
@[simp] theorem goTo_ovr (i : Instr) (p : Pos) (s : State) : (goTo i p s).ovr = s.ovr := rfl
@[simp] theorem goTo_errCause (i : Instr) (p : Pos) (s : State) : (goTo i p s).errCause = s.errCause := rfl
@[simp] theorem goTo_errInfo (i : Instr) (p : Pos) (s : State) : (goTo i p s).errInfo = s.errInfo := rfl
@[simp] theorem goTo_errPos (i : Instr) (p : Pos) (s : State) : (goTo i p s).errPos = s.errPos := rfl
@[simp] theorem goTo_resVal (i : Instr) (p : Pos) (s : State) : (goTo i p s).resVal = s.resVal := rfl
@[simp] theorem goTo_resCnt (i : Instr) (p : Pos) (s : State) : (goTo i p s).resCnt = s.resCnt := rfl
@[simp] theorem goTo_brPos (i : Instr) (p : Pos) (s : State) : (goTo i p s).brPos = s.brPos := rfl
@[simp] theorem goTo_brCnt (i : Instr) (p : Pos) (s : State) : (goTo i p s).brCnt = s.brCnt := rfl
@[simp] theorem goTo_brBuf (i : Instr) (p : Pos) (s : State) : (goTo i p s).brBuf = s.brBuf := rfl
@[simp] theorem goTo_bwPos (i : Instr) (p : Pos) (s : State) : (goTo i p s).bwPos = s.bwPos := rfl
@[simp] theorem goTo_bwCnt (i : Instr) (p : Pos) (s : State) : (goTo i p s).bwCnt = s.bwCnt := rfl
@[simp] theorem goTo_bwAcc (i : Instr) (p : Pos) (s : State) : (goTo i p s).bwAcc = s.bwAcc := rfl
@[simp] theorem goTo_map (i : Instr) (p : Pos) (s : State) : (goTo i p s).map = s.map := rfl
@[simp] theorem goTo_maxLen (i : Instr) (p : Pos) (s : State) : (goTo i p s).maxLen = s.maxLen := rfl
@[simp] theorem goTo_cand (i : Instr) (p : Pos) (s : State) : (goTo i p s).cand = s.cand := rfl
@[simp] theorem goTo_candLen (i : Instr) (p : Pos) (s : State) : (goTo i p s).candLen = s.candLen := rfl
@[simp] theorem goTo_symCount (i : Instr) (p : Pos) (s : State) : (goTo i p s).symCount = s.symCount := rfl
@[simp] theorem goTo_lastSymV (i : Instr) (p : Pos) (s : State) : (goTo i p s).lastSymV = s.lastSymV := rfl
@[simp] theorem goTo_lastSymIdx (i : Instr) (p : Pos) (s : State) : (goTo i p s).lastSymIdx = s.lastSymIdx := rfl
@[simp] theorem goTo_intEnCmdc (i : Instr) (p : Pos) (s : State) : (goTo i p s).intEnCmdc = s.intEnCmdc := rfl
@[simp] theorem goTo_intEnErri (i : Instr) (p : Pos) (s : State) : (goTo i p s).intEnErri = s.intEnErri := rfl
@[simp] theorem goTo_intPendCmdc (i : Instr) (p : Pos) (s : State) : (goTo i p s).intPendCmdc = s.intPendCmdc := rfl
@[simp] theorem goTo_intPendErri (i : Instr) (p : Pos) (s : State) : (goTo i p s).intPendErri = s.intPendErri := rfl
@[simp] theorem goTo_mapSelIdx (i : Instr) (p : Pos) (s : State) : (goTo i p s).mapSelIdx = s.mapSelIdx := rfl
@[simp] theorem goTo_mapSelOff (i : Instr) (p : Pos) (s : State) : (goTo i p s).mapSelOff = s.mapSelOff := rfl
@[simp] theorem goTo_pend (i : Instr) (p : Pos) (s : State) : (goTo i p s).pend = s.pend := rfl
@[simp] theorem goTo_cur (i : Instr) (p : Pos) (s : State) : (goTo i p s).cur = some { instr := i, pos := p } := rfl
@[simp] theorem goTo_symBuf (i : Instr) (p : Pos) (s : State) : (goTo i p s).symBuf = s.symBuf := rfl
@[simp] theorem goTo_symBufLen (i : Instr) (p : Pos) (s : State) : (goTo i p s).symBufLen = s.symBufLen := rfl
@[simp] theorem goTo_rst (i : Instr) (p : Pos) (s : State) : (goTo i p s).rst = s.rst := rfl
@[simp] theorem goTo_srcStream (i : Instr) (p : Pos) (s : State) : (goTo i p s).srcStream = s.srcStream := rfl
@[simp] theorem goTo_outStream (i : Instr) (p : Pos) (s : State) : (goTo i p s).outStream = s.outStream := rfl
@[simp] theorem goTo_woutStream (i : Instr) (p : Pos) (s : State) : (goTo i p s).woutStream = s.woutStream := rfl
@[simp] theorem goTo_outEnded (i : Instr) (p : Pos) (s : State) : (goTo i p s).outEnded = s.outEnded := rfl
@[simp] theorem goTo_woutEnded (i : Instr) (p : Pos) (s : State) : (goTo i p s).woutEnded = s.woutEnded := rfl
@[simp] theorem goTo_srcReady (i : Instr) (p : Pos) (s : State) : (goTo i p s).srcReady = s.srcReady := rfl
@[simp] theorem goTo_outReady (i : Instr) (p : Pos) (s : State) : (goTo i p s).outReady = s.outReady := rfl
@[simp] theorem goTo_woutReady (i : Instr) (p : Pos) (s : State) : (goTo i p s).woutReady = s.woutReady := rfl
@[simp] theorem goTo_moves (i : Instr) (p : Pos) (s : State) : (goTo i p s).moves = s.moves := rfl
@[simp] theorem goTo_readData (i : Instr) (p : Pos) (s : State) : (goTo i p s).readData = s.readData := rfl
@[simp] theorem goTo_draws (i : Instr) (p : Pos) (s : State) : (goTo i p s).draws = s.draws := rfl

/-! ### complete -/

@[simp] theorem complete_params (s : State) : (complete s).params = s.params := rfl
@[simp] theorem complete_cfgL (s : State) : (complete s).cfgL = s.cfgL := rfl
@[simp] theorem complete_wdata (s : State) : (complete s).wdata = s.wdata := rfl
@[simp] theorem complete_err (s : State) : (complete s).err = s.err := rfl
@[simp] theorem complete_hdrDone (s : State) : (complete s).hdrDone = s.hdrDone := rfl
@[simp] theorem complete_done (s : State) : (complete s).done = s.done := rfl
@[simp] theorem complete_srcEnd (s : State) : (complete s).srcEnd = s.srcEnd := rfl
@[simp] theorem complete_ovr (s : State) : (complete s).ovr = s.ovr := rfl
@[simp] theorem complete_errCause (s : State) : (complete s).errCause = s.errCause := rfl
@[simp] theorem complete_errInfo (s : State) : (complete s).errInfo = s.errInfo := rfl
@[simp] theorem complete_errPos (s : State) : (complete s).errPos = s.errPos := rfl
@[simp] theorem complete_resVal (s : State) : (complete s).resVal = s.resVal := rfl
@[simp] theorem complete_resCnt (s : State) : (complete s).resCnt = s.resCnt := rfl
@[simp] theorem complete_brPos (s : State) : (complete s).brPos = s.brPos := rfl
@[simp] theorem complete_brCnt (s : State) : (complete s).brCnt = s.brCnt := rfl
@[simp] theorem complete_brBuf (s : State) : (complete s).brBuf = s.brBuf := rfl
@[simp] theorem complete_bwPos (s : State) : (complete s).bwPos = s.bwPos := rfl
@[simp] theorem complete_bwCnt (s : State) : (complete s).bwCnt = s.bwCnt := rfl
@[simp] theorem complete_bwAcc (s : State) : (complete s).bwAcc = s.bwAcc := rfl
@[simp] theorem complete_map (s : State) : (complete s).map = s.map := rfl
@[simp] theorem complete_maxLen (s : State) : (complete s).maxLen = s.maxLen := rfl
@[simp] theorem complete_cand (s : State) : (complete s).cand = s.cand := rfl
@[simp] theorem complete_candLen (s : State) : (complete s).candLen = s.candLen := rfl
@[simp] theorem complete_symCount (s : State) : (complete s).symCount = s.symCount := rfl
@[simp] theorem complete_lastSymV (s : State) : (complete s).lastSymV = s.lastSymV := rfl
@[simp] theorem complete_lastSymIdx (s : State) : (complete s).lastSymIdx = s.lastSymIdx := rfl
@[simp] theorem complete_intEnCmdc (s : State) : (complete s).intEnCmdc = s.intEnCmdc := rfl
@[simp] theorem complete_intEnErri (s : State) : (complete s).intEnErri = s.intEnErri := rfl
@[simp] theorem complete_intPendCmdc (s : State) : (complete s).intPendCmdc = true := rfl
@[simp] theorem complete_intPendErri (s : State) : (complete s).intPendErri = s.intPendErri := rfl
@[simp] theorem complete_mapSelIdx (s : State) : (complete s).mapSelIdx = s.mapSelIdx := rfl
@[simp] theorem complete_mapSelOff (s : State) : (complete s).mapSelOff = s.mapSelOff := rfl
@[simp] theorem complete_pend (s : State) : (complete s).pend = s.pend := rfl
@[simp] theorem complete_cur (s : State) : (complete s).cur = none := rfl
@[simp] theorem complete_symBuf (s : State) : (complete s).symBuf = s.symBuf := rfl
@[simp] theorem complete_symBufLen (s : State) : (complete s).symBufLen = s.symBufLen := rfl
@[simp] theorem complete_rst (s : State) : (complete s).rst = s.rst := rfl
@[simp] theorem complete_srcStream (s : State) : (complete s).srcStream = s.srcStream := rfl
@[simp] theorem complete_outStream (s : State) : (complete s).outStream = s.outStream := rfl
@[simp] theorem complete_woutStream (s : State) : (complete s).woutStream = s.woutStream := rfl
@[simp] theorem complete_outEnded (s : State) : (complete s).outEnded = s.outEnded := rfl
@[simp] theorem complete_woutEnded (s : State) : (complete s).woutEnded = s.woutEnded := rfl
@[simp] theorem complete_srcReady (s : State) : (complete s).srcReady = s.srcReady := rfl
@[simp] theorem complete_outReady (s : State) : (complete s).outReady = s.outReady := rfl
@[simp] theorem complete_woutReady (s : State) : (complete s).woutReady = s.woutReady := rfl
@[simp] theorem complete_moves (s : State) : (complete s).moves = s.moves := rfl
@[simp] theorem complete_readData (s : State) : (complete s).readData = s.readData := rfl
@[simp] theorem complete_draws (s : State) : (complete s).draws = s.draws := rfl

/-! ### raise -/

@[simp] theorem raise_params (c : Cause) (s : State) : (raise c s).params = s.params := rfl
@[simp] theorem raise_cfgL (c : Cause) (s : State) : (raise c s).cfgL = s.cfgL := rfl
@[simp] theorem raise_wdata (c : Cause) (s : State) : (raise c s).wdata = s.wdata := rfl
@[simp] theorem raise_err (c : Cause) (s : State) : (raise c s).err = true := rfl
@[simp] theorem raise_hdrDone (c : Cause) (s : State) : (raise c s).hdrDone = s.hdrDone := rfl
@[simp] theorem raise_done (c : Cause) (s : State) : (raise c s).done = s.done := rfl
@[simp] theorem raise_srcEnd (c : Cause) (s : State) : (raise c s).srcEnd = s.srcEnd := rfl
@[simp] theorem raise_ovr (c : Cause) (s : State) : (raise c s).ovr = s.ovr := rfl
@[simp] theorem raise_errCause (c : Cause) (s : State) : (raise c s).errCause = c.code := rfl
@[simp] theorem raise_errInfo (c : Cause) (s : State) : (raise c s).errInfo = c.info := rfl
@[simp] theorem raise_errPos (c : Cause) (s : State) : (raise c s).errPos = s.brPos := rfl
@[simp] theorem raise_resVal (c : Cause) (s : State) : (raise c s).resVal = s.resVal := rfl
@[simp] theorem raise_resCnt (c : Cause) (s : State) : (raise c s).resCnt = s.resCnt := rfl
@[simp] theorem raise_brPos (c : Cause) (s : State) : (raise c s).brPos = s.brPos := rfl
@[simp] theorem raise_brCnt (c : Cause) (s : State) : (raise c s).brCnt = s.brCnt := rfl
@[simp] theorem raise_brBuf (c : Cause) (s : State) : (raise c s).brBuf = s.brBuf := rfl
@[simp] theorem raise_bwPos (c : Cause) (s : State) : (raise c s).bwPos = s.bwPos := rfl
@[simp] theorem raise_bwCnt (c : Cause) (s : State) : (raise c s).bwCnt = s.bwCnt := rfl
@[simp] theorem raise_bwAcc (c : Cause) (s : State) : (raise c s).bwAcc = s.bwAcc := rfl
@[simp] theorem raise_map (c : Cause) (s : State) : (raise c s).map = s.map := rfl
@[simp] theorem raise_maxLen (c : Cause) (s : State) : (raise c s).maxLen = s.maxLen := rfl
@[simp] theorem raise_cand (c : Cause) (s : State) : (raise c s).cand = s.cand := rfl
@[simp] theorem raise_candLen (c : Cause) (s : State) : (raise c s).candLen = s.candLen := rfl
@[simp] theorem raise_symCount (c : Cause) (s : State) : (raise c s).symCount = s.symCount := rfl
@[simp] theorem raise_lastSymV (c : Cause) (s : State) : (raise c s).lastSymV = s.lastSymV := rfl
@[simp] theorem raise_lastSymIdx (c : Cause) (s : State) : (raise c s).lastSymIdx = s.lastSymIdx := rfl
@[simp] theorem raise_intEnCmdc (c : Cause) (s : State) : (raise c s).intEnCmdc = s.intEnCmdc := rfl
@[simp] theorem raise_intEnErri (c : Cause) (s : State) : (raise c s).intEnErri = s.intEnErri := rfl
@[simp] theorem raise_intPendCmdc (c : Cause) (s : State) : (raise c s).intPendCmdc = true := rfl
@[simp] theorem raise_intPendErri (c : Cause) (s : State) : (raise c s).intPendErri = true := rfl
@[simp] theorem raise_mapSelIdx (c : Cause) (s : State) : (raise c s).mapSelIdx = s.mapSelIdx := rfl
@[simp] theorem raise_mapSelOff (c : Cause) (s : State) : (raise c s).mapSelOff = s.mapSelOff := rfl
@[simp] theorem raise_pend (c : Cause) (s : State) : (raise c s).pend = .none := rfl
@[simp] theorem raise_cur (c : Cause) (s : State) : (raise c s).cur = none := rfl
@[simp] theorem raise_symBuf (c : Cause) (s : State) : (raise c s).symBuf = s.symBuf := rfl
@[simp] theorem raise_symBufLen (c : Cause) (s : State) : (raise c s).symBufLen = s.symBufLen := rfl
@[simp] theorem raise_rst (c : Cause) (s : State) : (raise c s).rst = s.rst := rfl
@[simp] theorem raise_srcStream (c : Cause) (s : State) : (raise c s).srcStream = s.srcStream := rfl
@[simp] theorem raise_outStream (c : Cause) (s : State) : (raise c s).outStream = s.outStream := rfl
@[simp] theorem raise_woutStream (c : Cause) (s : State) : (raise c s).woutStream = s.woutStream := rfl
@[simp] theorem raise_outEnded (c : Cause) (s : State) : (raise c s).outEnded = s.outEnded := rfl
@[simp] theorem raise_woutEnded (c : Cause) (s : State) : (raise c s).woutEnded = s.woutEnded := rfl
@[simp] theorem raise_srcReady (c : Cause) (s : State) : (raise c s).srcReady = s.srcReady := rfl
@[simp] theorem raise_outReady (c : Cause) (s : State) : (raise c s).outReady = s.outReady := rfl
@[simp] theorem raise_woutReady (c : Cause) (s : State) : (raise c s).woutReady = s.woutReady := rfl
@[simp] theorem raise_moves (c : Cause) (s : State) : (raise c s).moves = s.moves := rfl
@[simp] theorem raise_readData (c : Cause) (s : State) : (raise c s).readData = s.readData := rfl
@[simp] theorem raise_draws (c : Cause) (s : State) : (raise c s).draws = s.draws := rfl

/-! ### takeBit -/

@[simp] theorem takeBit_params (s : State) : (takeBit s).params = s.params := rfl
@[simp] theorem takeBit_cfgL (s : State) : (takeBit s).cfgL = s.cfgL := rfl
@[simp] theorem takeBit_wdata (s : State) : (takeBit s).wdata = s.wdata := rfl
@[simp] theorem takeBit_err (s : State) : (takeBit s).err = s.err := rfl
@[simp] theorem takeBit_hdrDone (s : State) : (takeBit s).hdrDone = s.hdrDone := rfl
@[simp] theorem takeBit_done (s : State) : (takeBit s).done = s.done := rfl
@[simp] theorem takeBit_srcEnd (s : State) : (takeBit s).srcEnd = s.srcEnd := rfl
@[simp] theorem takeBit_ovr (s : State) : (takeBit s).ovr = s.ovr := rfl
@[simp] theorem takeBit_errCause (s : State) : (takeBit s).errCause = s.errCause := rfl
@[simp] theorem takeBit_errInfo (s : State) : (takeBit s).errInfo = s.errInfo := rfl
@[simp] theorem takeBit_errPos (s : State) : (takeBit s).errPos = s.errPos := rfl
@[simp] theorem takeBit_resVal (s : State) : (takeBit s).resVal = s.resVal := rfl
@[simp] theorem takeBit_resCnt (s : State) : (takeBit s).resCnt = s.resCnt := rfl
@[simp] theorem takeBit_brPos (s : State) : (takeBit s).brPos = s.brPos + 1 := rfl
@[simp] theorem takeBit_brCnt (s : State) : (takeBit s).brCnt = s.brCnt - 1 := rfl
@[simp] theorem takeBit_brBuf (s : State) : (takeBit s).brBuf = s.brBuf := rfl
@[simp] theorem takeBit_bwPos (s : State) : (takeBit s).bwPos = s.bwPos := rfl
@[simp] theorem takeBit_bwCnt (s : State) : (takeBit s).bwCnt = s.bwCnt := rfl
@[simp] theorem takeBit_bwAcc (s : State) : (takeBit s).bwAcc = s.bwAcc := rfl
@[simp] theorem takeBit_map (s : State) : (takeBit s).map = s.map := rfl
@[simp] theorem takeBit_maxLen (s : State) : (takeBit s).maxLen = s.maxLen := rfl
@[simp] theorem takeBit_cand (s : State) : (takeBit s).cand = s.cand := rfl
@[simp] theorem takeBit_candLen (s : State) : (takeBit s).candLen = s.candLen := rfl
@[simp] theorem takeBit_symCount (s : State) : (takeBit s).symCount = s.symCount := rfl
@[simp] theorem takeBit_lastSymV (s : State) : (takeBit s).lastSymV = s.lastSymV := rfl
@[simp] theorem takeBit_lastSymIdx (s : State) : (takeBit s).lastSymIdx = s.lastSymIdx := rfl
@[simp] theorem takeBit_intEnCmdc (s : State) : (takeBit s).intEnCmdc = s.intEnCmdc := rfl
@[simp] theorem takeBit_intEnErri (s : State) : (takeBit s).intEnErri = s.intEnErri := rfl
@[simp] theorem takeBit_intPendCmdc (s : State) : (takeBit s).intPendCmdc = s.intPendCmdc := rfl
@[simp] theorem takeBit_intPendErri (s : State) : (takeBit s).intPendErri = s.intPendErri := rfl
@[simp] theorem takeBit_mapSelIdx (s : State) : (takeBit s).mapSelIdx = s.mapSelIdx := rfl
@[simp] theorem takeBit_mapSelOff (s : State) : (takeBit s).mapSelOff = s.mapSelOff := rfl
@[simp] theorem takeBit_pend (s : State) : (takeBit s).pend = s.pend := rfl
@[simp] theorem takeBit_cur (s : State) : (takeBit s).cur = s.cur := rfl
@[simp] theorem takeBit_symBuf (s : State) : (takeBit s).symBuf = s.symBuf := rfl
@[simp] theorem takeBit_symBufLen (s : State) : (takeBit s).symBufLen = s.symBufLen := rfl
@[simp] theorem takeBit_rst (s : State) : (takeBit s).rst = s.rst := rfl
@[simp] theorem takeBit_srcStream (s : State) : (takeBit s).srcStream = s.srcStream := rfl
@[simp] theorem takeBit_outStream (s : State) : (takeBit s).outStream = s.outStream := rfl
@[simp] theorem takeBit_woutStream (s : State) : (takeBit s).woutStream = s.woutStream := rfl
@[simp] theorem takeBit_outEnded (s : State) : (takeBit s).outEnded = s.outEnded := rfl
@[simp] theorem takeBit_woutEnded (s : State) : (takeBit s).woutEnded = s.woutEnded := rfl
@[simp] theorem takeBit_srcReady (s : State) : (takeBit s).srcReady = s.srcReady := rfl
@[simp] theorem takeBit_outReady (s : State) : (takeBit s).outReady = s.outReady := rfl
@[simp] theorem takeBit_woutReady (s : State) : (takeBit s).woutReady = s.woutReady := rfl
@[simp] theorem takeBit_moves (s : State) : (takeBit s).moves = s.moves := rfl
@[simp] theorem takeBit_readData (s : State) : (takeBit s).readData = s.readData := rfl
@[simp] theorem takeBit_draws (s : State) : (takeBit s).draws = s.draws := rfl

/-! ### putBit -/

@[simp] theorem putBit_params (b : Bool) (s : State) : (putBit b s).params = s.params := rfl
@[simp] theorem putBit_cfgL (b : Bool) (s : State) : (putBit b s).cfgL = s.cfgL := rfl
@[simp] theorem putBit_wdata (b : Bool) (s : State) : (putBit b s).wdata = s.wdata := rfl
@[simp] theorem putBit_err (b : Bool) (s : State) : (putBit b s).err = s.err := rfl
@[simp] theorem putBit_hdrDone (b : Bool) (s : State) : (putBit b s).hdrDone = s.hdrDone := rfl
@[simp] theorem putBit_done (b : Bool) (s : State) : (putBit b s).done = s.done := rfl
@[simp] theorem putBit_srcEnd (b : Bool) (s : State) : (putBit b s).srcEnd = s.srcEnd := rfl
@[simp] theorem putBit_ovr (b : Bool) (s : State) : (putBit b s).ovr = s.ovr := rfl
@[simp] theorem putBit_errCause (b : Bool) (s : State) : (putBit b s).errCause = s.errCause := rfl
@[simp] theorem putBit_errInfo (b : Bool) (s : State) : (putBit b s).errInfo = s.errInfo := rfl
@[simp] theorem putBit_errPos (b : Bool) (s : State) : (putBit b s).errPos = s.errPos := rfl
@[simp] theorem putBit_resVal (b : Bool) (s : State) : (putBit b s).resVal = s.resVal := rfl
@[simp] theorem putBit_resCnt (b : Bool) (s : State) : (putBit b s).resCnt = s.resCnt := rfl
@[simp] theorem putBit_brPos (b : Bool) (s : State) : (putBit b s).brPos = s.brPos := rfl
@[simp] theorem putBit_brCnt (b : Bool) (s : State) : (putBit b s).brCnt = s.brCnt := rfl
@[simp] theorem putBit_brBuf (b : Bool) (s : State) : (putBit b s).brBuf = s.brBuf := rfl
@[simp] theorem putBit_bwPos (b : Bool) (s : State) : (putBit b s).bwPos = s.bwPos + 1 := rfl
@[simp] theorem putBit_bwCnt (b : Bool) (s : State) : (putBit b s).bwCnt = s.bwCnt + 1 := rfl
@[simp] theorem putBit_bwAcc (b : Bool) (s : State) : (putBit b s).bwAcc = placeBit s.bwAcc s.bwCnt.toNat b := rfl
@[simp] theorem putBit_map (b : Bool) (s : State) : (putBit b s).map = s.map := rfl
@[simp] theorem putBit_maxLen (b : Bool) (s : State) : (putBit b s).maxLen = s.maxLen := rfl
@[simp] theorem putBit_cand (b : Bool) (s : State) : (putBit b s).cand = s.cand := rfl
@[simp] theorem putBit_candLen (b : Bool) (s : State) : (putBit b s).candLen = s.candLen := rfl
@[simp] theorem putBit_symCount (b : Bool) (s : State) : (putBit b s).symCount = s.symCount := rfl
@[simp] theorem putBit_lastSymV (b : Bool) (s : State) : (putBit b s).lastSymV = s.lastSymV := rfl
@[simp] theorem putBit_lastSymIdx (b : Bool) (s : State) : (putBit b s).lastSymIdx = s.lastSymIdx := rfl
@[simp] theorem putBit_intEnCmdc (b : Bool) (s : State) : (putBit b s).intEnCmdc = s.intEnCmdc := rfl
@[simp] theorem putBit_intEnErri (b : Bool) (s : State) : (putBit b s).intEnErri = s.intEnErri := rfl
@[simp] theorem putBit_intPendCmdc (b : Bool) (s : State) : (putBit b s).intPendCmdc = s.intPendCmdc := rfl
@[simp] theorem putBit_intPendErri (b : Bool) (s : State) : (putBit b s).intPendErri = s.intPendErri := rfl
@[simp] theorem putBit_mapSelIdx (b : Bool) (s : State) : (putBit b s).mapSelIdx = s.mapSelIdx := rfl
@[simp] theorem putBit_mapSelOff (b : Bool) (s : State) : (putBit b s).mapSelOff = s.mapSelOff := rfl
@[simp] theorem putBit_pend (b : Bool) (s : State) : (putBit b s).pend = s.pend := rfl
@[simp] theorem putBit_cur (b : Bool) (s : State) : (putBit b s).cur = s.cur := rfl
@[simp] theorem putBit_symBuf (b : Bool) (s : State) : (putBit b s).symBuf = s.symBuf := rfl
@[simp] theorem putBit_symBufLen (b : Bool) (s : State) : (putBit b s).symBufLen = s.symBufLen := rfl
@[simp] theorem putBit_rst (b : Bool) (s : State) : (putBit b s).rst = s.rst := rfl
@[simp] theorem putBit_srcStream (b : Bool) (s : State) : (putBit b s).srcStream = s.srcStream := rfl
@[simp] theorem putBit_outStream (b : Bool) (s : State) : (putBit b s).outStream = s.outStream := rfl
@[simp] theorem putBit_woutStream (b : Bool) (s : State) : (putBit b s).woutStream = s.woutStream := rfl
@[simp] theorem putBit_outEnded (b : Bool) (s : State) : (putBit b s).outEnded = s.outEnded := rfl
@[simp] theorem putBit_woutEnded (b : Bool) (s : State) : (putBit b s).woutEnded = s.woutEnded := rfl
@[simp] theorem putBit_srcReady (b : Bool) (s : State) : (putBit b s).srcReady = s.srcReady := rfl
@[simp] theorem putBit_outReady (b : Bool) (s : State) : (putBit b s).outReady = s.outReady := rfl
@[simp] theorem putBit_woutReady (b : Bool) (s : State) : (putBit b s).woutReady = s.woutReady := rfl
@[simp] theorem putBit_moves (b : Bool) (s : State) : (putBit b s).moves = s.moves := rfl
@[simp] theorem putBit_readData (b : Bool) (s : State) : (putBit b s).readData = s.readData := rfl
@[simp] theorem putBit_draws (b : Bool) (s : State) : (putBit b s).draws = s.draws := rfl

/-! ### startRead -/

@[simp] theorem startRead_params (i : Instr) (n : Nat) (r : ReadFor) (s : State) : (startRead i n r s).params = s.params := rfl
@[simp] theorem startRead_cfgL (i : Instr) (n : Nat) (r : ReadFor) (s : State) : (startRead i n r s).cfgL = s.cfgL := rfl
@[simp] theorem startRead_wdata (i : Instr) (n : Nat) (r : ReadFor) (s : State) : (startRead i n r s).wdata = s.wdata := rfl
@[simp] theorem startRead_err (i : Instr) (n : Nat) (r : ReadFor) (s : State) : (startRead i n r s).err = s.err := rfl
@[simp] theorem startRead_hdrDone (i : Instr) (n : Nat) (r : ReadFor) (s : State) : (startRead i n r s).hdrDone = s.hdrDone := rfl
@[simp] theorem startRead_done (i : Instr) (n : Nat) (r : ReadFor) (s : State) : (startRead i n r s).done = s.done := rfl
@[simp] theorem startRead_srcEnd (i : Instr) (n : Nat) (r : ReadFor) (s : State) : (startRead i n r s).srcEnd = s.srcEnd := rfl
@[simp] theorem startRead_ovr (i : Instr) (n : Nat) (r : ReadFor) (s : State) : (startRead i n r s).ovr = s.ovr := rfl
@[simp] theorem startRead_errCause (i : Instr) (n : Nat) (r : ReadFor) (s : State) : (startRead i n r s).errCause = s.errCause := rfl
@[simp] theorem startRead_errInfo (i : Instr) (n : Nat) (r : ReadFor) (s : State) : (startRead i n r s).errInfo = s.errInfo := rfl
@[simp] theorem startRead_errPos (i : Instr) (n : Nat) (r : ReadFor) (s : State) : (startRead i n r s).errPos = s.errPos := rfl
@[simp] theorem startRead_resVal (i : Instr) (n : Nat) (r : ReadFor) (s : State) : (startRead i n r s).resVal = s.resVal := rfl
@[simp] theorem startRead_resCnt (i : Instr) (n : Nat) (r : ReadFor) (s : State) : (startRead i n r s).resCnt = s.resCnt := rfl
@[simp] theorem startRead_brPos (i : Instr) (n : Nat) (r : ReadFor) (s : State) : (startRead i n r s).brPos = s.brPos := rfl
@[simp] theorem startRead_brCnt (i : Instr) (n : Nat) (r : ReadFor) (s : State) : (startRead i n r s).brCnt = s.brCnt := rfl
@[simp] theorem startRead_brBuf (i : Instr) (n : Nat) (r : ReadFor) (s : State) : (startRead i n r s).brBuf = s.brBuf := rfl
@[simp] theorem startRead_bwPos (i : Instr) (n : Nat) (r : ReadFor) (s : State) : (startRead i n r s).bwPos = s.bwPos := rfl
@[simp] theorem startRead_bwCnt (i : Instr) (n : Nat) (r : ReadFor) (s : State) : (startRead i n r s).bwCnt = s.bwCnt := rfl
@[simp] theorem startRead_bwAcc (i : Instr) (n : Nat) (r : ReadFor) (s : State) : (startRead i n r s).bwAcc = s.bwAcc := rfl
@[simp] theorem startRead_map (i : Instr) (n : Nat) (r : ReadFor) (s : State) : (startRead i n r s).map = s.map := rfl
@[simp] theorem startRead_maxLen (i : Instr) (n : Nat) (r : ReadFor) (s : State) : (startRead i n r s).maxLen = s.maxLen := rfl
@[simp] theorem startRead_cand (i : Instr) (n : Nat) (r : ReadFor) (s : State) : (startRead i n r s).cand = s.cand := rfl
@[simp] theorem startRead_candLen (i : Instr) (n : Nat) (r : ReadFor) (s : State) : (startRead i n r s).candLen = s.candLen := rfl
@[simp] theorem startRead_symCount (i : Instr) (n : Nat) (r : ReadFor) (s : State) : (startRead i n r s).symCount = s.symCount := rfl
@[simp] theorem startRead_lastSymV (i : Instr) (n : Nat) (r : ReadFor) (s : State) : (startRead i n r s).lastSymV = s.lastSymV := rfl
@[simp] theorem startRead_lastSymIdx (i : Instr) (n : Nat) (r : ReadFor) (s : State) : (startRead i n r s).lastSymIdx = s.lastSymIdx := rfl
@[simp] theorem startRead_intEnCmdc (i : Instr) (n : Nat) (r : ReadFor) (s : State) : (startRead i n r s).intEnCmdc = s.intEnCmdc := rfl
@[simp] theorem startRead_intEnErri (i : Instr) (n : Nat) (r : ReadFor) (s : State) : (startRead i n r s).intEnErri = s.intEnErri := rfl
@[simp] theorem startRead_intPendCmdc (i : Instr) (n : Nat) (r : ReadFor) (s : State) : (startRead i n r s).intPendCmdc = s.intPendCmdc := rfl
@[simp] theorem startRead_intPendErri (i : Instr) (n : Nat) (r : ReadFor) (s : State) : (startRead i n r s).intPendErri = s.intPendErri := rfl
@[simp] theorem startRead_mapSelIdx (i : Instr) (n : Nat) (r : ReadFor) (s : State) : (startRead i n r s).mapSelIdx = s.mapSelIdx := rfl
@[simp] theorem startRead_mapSelOff (i : Instr) (n : Nat) (r : ReadFor) (s : State) : (startRead i n r s).mapSelOff = s.mapSelOff := rfl
@[simp] theorem startRead_pend (i : Instr) (n : Nat) (r : ReadFor) (s : State) : (startRead i n r s).pend = s.pend := rfl
@[simp] theorem startRead_cur (i : Instr) (n : Nat) (r : ReadFor) (s : State) : (startRead i n r s).cur = some { instr := i, pos := .read n 0 0 r } := rfl
@[simp] theorem startRead_symBuf (i : Instr) (n : Nat) (r : ReadFor) (s : State) : (startRead i n r s).symBuf = s.symBuf := rfl
@[simp] theorem startRead_symBufLen (i : Instr) (n : Nat) (r : ReadFor) (s : State) : (startRead i n r s).symBufLen = s.symBufLen := rfl
@[simp] theorem startRead_rst (i : Instr) (n : Nat) (r : ReadFor) (s : State) : (startRead i n r s).rst = s.rst := rfl
@[simp] theorem startRead_srcStream (i : Instr) (n : Nat) (r : ReadFor) (s : State) : (startRead i n r s).srcStream = s.srcStream := rfl
@[simp] theorem startRead_outStream (i : Instr) (n : Nat) (r : ReadFor) (s : State) : (startRead i n r s).outStream = s.outStream := rfl
@[simp] theorem startRead_woutStream (i : Instr) (n : Nat) (r : ReadFor) (s : State) : (startRead i n r s).woutStream = s.woutStream := rfl
@[simp] theorem startRead_outEnded (i : Instr) (n : Nat) (r : ReadFor) (s : State) : (startRead i n r s).outEnded = s.outEnded := rfl
@[simp] theorem startRead_woutEnded (i : Instr) (n : Nat) (r : ReadFor) (s : State) : (startRead i n r s).woutEnded = s.woutEnded := rfl
@[simp] theorem startRead_srcReady (i : Instr) (n : Nat) (r : ReadFor) (s : State) : (startRead i n r s).srcReady = s.srcReady := rfl
@[simp] theorem startRead_outReady (i : Instr) (n : Nat) (r : ReadFor) (s : State) : (startRead i n r s).outReady = s.outReady := rfl
@[simp] theorem startRead_woutReady (i : Instr) (n : Nat) (r : ReadFor) (s : State) : (startRead i n r s).woutReady = s.woutReady := rfl
@[simp] theorem startRead_moves (i : Instr) (n : Nat) (r : ReadFor) (s : State) : (startRead i n r s).moves = s.moves := rfl
@[simp] theorem startRead_readData (i : Instr) (n : Nat) (r : ReadFor) (s : State) : (startRead i n r s).readData = s.readData := rfl
@[simp] theorem startRead_draws (i : Instr) (n : Nat) (r : ReadFor) (s : State) : (startRead i n r s).draws = s.draws := rfl

/-! ### insertEntry -/

@[simp] theorem insertEntry_params (n : BitVec 5) (x : BitVec 31) (s : State) : (insertEntry n x s).params = s.params := rfl
@[simp] theorem insertEntry_cfgL (n : BitVec 5) (x : BitVec 31) (s : State) : (insertEntry n x s).cfgL = s.cfgL := rfl
@[simp] theorem insertEntry_wdata (n : BitVec 5) (x : BitVec 31) (s : State) : (insertEntry n x s).wdata = s.wdata := rfl
@[simp] theorem insertEntry_err (n : BitVec 5) (x : BitVec 31) (s : State) : (insertEntry n x s).err = s.err := rfl
@[simp] theorem insertEntry_hdrDone (n : BitVec 5) (x : BitVec 31) (s : State) : (insertEntry n x s).hdrDone = s.hdrDone := rfl
@[simp] theorem insertEntry_done (n : BitVec 5) (x : BitVec 31) (s : State) : (insertEntry n x s).done = s.done := rfl
@[simp] theorem insertEntry_srcEnd (n : BitVec 5) (x : BitVec 31) (s : State) : (insertEntry n x s).srcEnd = s.srcEnd := rfl
@[simp] theorem insertEntry_ovr (n : BitVec 5) (x : BitVec 31) (s : State) : (insertEntry n x s).ovr = s.ovr := rfl
@[simp] theorem insertEntry_errCause (n : BitVec 5) (x : BitVec 31) (s : State) : (insertEntry n x s).errCause = s.errCause := rfl
@[simp] theorem insertEntry_errInfo (n : BitVec 5) (x : BitVec 31) (s : State) : (insertEntry n x s).errInfo = s.errInfo := rfl
@[simp] theorem insertEntry_errPos (n : BitVec 5) (x : BitVec 31) (s : State) : (insertEntry n x s).errPos = s.errPos := rfl
@[simp] theorem insertEntry_resVal (n : BitVec 5) (x : BitVec 31) (s : State) : (insertEntry n x s).resVal = s.resVal := rfl
@[simp] theorem insertEntry_resCnt (n : BitVec 5) (x : BitVec 31) (s : State) : (insertEntry n x s).resCnt = s.resCnt := rfl
@[simp] theorem insertEntry_brPos (n : BitVec 5) (x : BitVec 31) (s : State) : (insertEntry n x s).brPos = s.brPos := rfl
@[simp] theorem insertEntry_brCnt (n : BitVec 5) (x : BitVec 31) (s : State) : (insertEntry n x s).brCnt = s.brCnt := rfl
@[simp] theorem insertEntry_brBuf (n : BitVec 5) (x : BitVec 31) (s : State) : (insertEntry n x s).brBuf = s.brBuf := rfl
@[simp] theorem insertEntry_bwPos (n : BitVec 5) (x : BitVec 31) (s : State) : (insertEntry n x s).bwPos = s.bwPos := rfl
@[simp] theorem insertEntry_bwCnt (n : BitVec 5) (x : BitVec 31) (s : State) : (insertEntry n x s).bwCnt = s.bwCnt := rfl
@[simp] theorem insertEntry_bwAcc (n : BitVec 5) (x : BitVec 31) (s : State) : (insertEntry n x s).bwAcc = s.bwAcc := rfl
@[simp] theorem insertEntry_map (n : BitVec 5) (x : BitVec 31) (s : State) : (insertEntry n x s).map = s.map ++ [{ clen := n, code := x, sym := parsedSym s }] := rfl
@[simp] theorem insertEntry_maxLen (n : BitVec 5) (x : BitVec 31) (s : State) : (insertEntry n x s).maxLen = if s.maxLen.toNat < n.toNat then n else s.maxLen := rfl
@[simp] theorem insertEntry_cand (n : BitVec 5) (x : BitVec 31) (s : State) : (insertEntry n x s).cand = s.cand := rfl
@[simp] theorem insertEntry_candLen (n : BitVec 5) (x : BitVec 31) (s : State) : (insertEntry n x s).candLen = s.candLen := rfl
@[simp] theorem insertEntry_symCount (n : BitVec 5) (x : BitVec 31) (s : State) : (insertEntry n x s).symCount = s.symCount := rfl
@[simp] theorem insertEntry_lastSymV (n : BitVec 5) (x : BitVec 31) (s : State) : (insertEntry n x s).lastSymV = s.lastSymV := rfl
@[simp] theorem insertEntry_lastSymIdx (n : BitVec 5) (x : BitVec 31) (s : State) : (insertEntry n x s).lastSymIdx = s.lastSymIdx := rfl
@[simp] theorem insertEntry_intEnCmdc (n : BitVec 5) (x : BitVec 31) (s : State) : (insertEntry n x s).intEnCmdc = s.intEnCmdc := rfl
@[simp] theorem insertEntry_intEnErri (n : BitVec 5) (x : BitVec 31) (s : State) : (insertEntry n x s).intEnErri = s.intEnErri := rfl
@[simp] theorem insertEntry_intPendCmdc (n : BitVec 5) (x : BitVec 31) (s : State) : (insertEntry n x s).intPendCmdc = s.intPendCmdc := rfl
@[simp] theorem insertEntry_intPendErri (n : BitVec 5) (x : BitVec 31) (s : State) : (insertEntry n x s).intPendErri = s.intPendErri := rfl
@[simp] theorem insertEntry_mapSelIdx (n : BitVec 5) (x : BitVec 31) (s : State) : (insertEntry n x s).mapSelIdx = s.mapSelIdx := rfl
@[simp] theorem insertEntry_mapSelOff (n : BitVec 5) (x : BitVec 31) (s : State) : (insertEntry n x s).mapSelOff = s.mapSelOff := rfl
@[simp] theorem insertEntry_pend (n : BitVec 5) (x : BitVec 31) (s : State) : (insertEntry n x s).pend = s.pend := rfl
@[simp] theorem insertEntry_cur (n : BitVec 5) (x : BitVec 31) (s : State) : (insertEntry n x s).cur = s.cur := rfl
@[simp] theorem insertEntry_symBuf (n : BitVec 5) (x : BitVec 31) (s : State) : (insertEntry n x s).symBuf = s.symBuf := rfl
@[simp] theorem insertEntry_symBufLen (n : BitVec 5) (x : BitVec 31) (s : State) : (insertEntry n x s).symBufLen = s.symBufLen := rfl
@[simp] theorem insertEntry_rst (n : BitVec 5) (x : BitVec 31) (s : State) : (insertEntry n x s).rst = s.rst := rfl
@[simp] theorem insertEntry_srcStream (n : BitVec 5) (x : BitVec 31) (s : State) : (insertEntry n x s).srcStream = s.srcStream := rfl
@[simp] theorem insertEntry_outStream (n : BitVec 5) (x : BitVec 31) (s : State) : (insertEntry n x s).outStream = s.outStream := rfl
@[simp] theorem insertEntry_woutStream (n : BitVec 5) (x : BitVec 31) (s : State) : (insertEntry n x s).woutStream = s.woutStream := rfl
@[simp] theorem insertEntry_outEnded (n : BitVec 5) (x : BitVec 31) (s : State) : (insertEntry n x s).outEnded = s.outEnded := rfl
@[simp] theorem insertEntry_woutEnded (n : BitVec 5) (x : BitVec 31) (s : State) : (insertEntry n x s).woutEnded = s.woutEnded := rfl
@[simp] theorem insertEntry_srcReady (n : BitVec 5) (x : BitVec 31) (s : State) : (insertEntry n x s).srcReady = s.srcReady := rfl
@[simp] theorem insertEntry_outReady (n : BitVec 5) (x : BitVec 31) (s : State) : (insertEntry n x s).outReady = s.outReady := rfl
@[simp] theorem insertEntry_woutReady (n : BitVec 5) (x : BitVec 31) (s : State) : (insertEntry n x s).woutReady = s.woutReady := rfl
@[simp] theorem insertEntry_moves (n : BitVec 5) (x : BitVec 31) (s : State) : (insertEntry n x s).moves = s.moves := rfl
@[simp] theorem insertEntry_readData (n : BitVec 5) (x : BitVec 31) (s : State) : (insertEntry n x s).readData = s.readData := rfl
@[simp] theorem insertEntry_draws (n : BitVec 5) (x : BitVec 31) (s : State) : (insertEntry n x s).draws = s.draws := rfl

end Sys2Proof.Machine
end

