-- ==== Sys2Proof/Laws/Unit.lean ====
section
/-! SUPPORT. Running the unit: what one operation can do, composing runs, and that a run within `opBudget` comes to rest. -/

namespace Sys2Proof.Machine

/-! ### Composing operations -/

theorem unitOp_of_atRest {s : State} (h : s.atRest = true) : unitOp s = s := by
  unfold State.atRest at h
  unfold unitOp
  split at h <;> simp_all
  split at h <;> simp_all

theorem unitOps_of_atRest {s : State} (h : s.atRest = true) (k : Nat) : unitOps k s = s := by
  cases k <;> simp [unitOps, h]

theorem unitOps_succ (k : Nat) (s : State) : unitOps (k + 1) s = unitOps k (unitOp s) := by
  by_cases h : s.atRest = true
  · rw [unitOp_of_atRest h, unitOps_of_atRest h, unitOps_of_atRest h]
  · simp [unitOps, h]

theorem unitOps_add (j k : Nat) (s : State) : unitOps (j + k) s = unitOps k (unitOps j s) := by
  induction j generalizing s with
  | zero => simp [unitOps]
  | succ j ih => rw [Nat.succ_add, unitOps_succ, unitOps_succ, ih]

/-- A property every operation keeps is kept by a run. -/
theorem unitOps_keeps {P : State → Prop} (hstep : ∀ s, P s → P (unitOp s)) (k : Nat) {s : State} (h : P s) :
    P (unitOps k s) := by
  induction k generalizing s with
  | zero => exact h
  | succ k ih => rw [unitOps_succ]; exact ih (hstep s h)

/-- The unit gets from `s` to `t` by itself. -/
def Runs (s t : State) : Prop := ∃ k, unitOps k s = t

theorem Runs.refl (s : State) : Runs s s := ⟨0, rfl⟩

theorem Runs.trans {s t u : State} (h : Runs s t) (h' : Runs t u) : Runs s u := by
  obtain ⟨j, rfl⟩ := h
  obtain ⟨k, rfl⟩ := h'
  exact ⟨j + k, unitOps_add j k s⟩

theorem Runs.op {s t : State} (h : Runs (unitOp s) t) : Runs s t := by
  obtain ⟨k, rfl⟩ := h
  exact ⟨k + 1, unitOps_succ k s⟩

theorem Runs.op_eq {s u t : State} (hu : unitOp s = u) (h : Runs u t) : Runs s t := Runs.op (hu ▸ h)

/-- Two runs from one state that both come to rest end in the same state. -/
theorem unitOps_atRest_unique {s : State} {j k : Nat} (hj : (unitOps j s).atRest = true)
    (hk : (unitOps k s).atRest = true) : unitOps j s = unitOps k s := by
  rcases Nat.le_total j k with h | h
  · obtain ⟨d, rfl⟩ := Nat.exists_eq_add_of_le h
    rw [unitOps_add, unitOps_of_atRest hj]
  · obtain ⟨d, rfl⟩ := Nat.exists_eq_add_of_le h
    rw [unitOps_add, unitOps_of_atRest hk]

/-! ### The budget -/

/-- What a read still allows its caller to do without a further bit. -/
def readWeight : ReadFor → Nat
  | .rd => 1
  | .symLen => 4
  | .symByte _ _ => 3
  | .tailLen => 3
  | .tailCode => 2
  | .clen => 3
  | .code => 5
  | .bodyBit => 1

/-- What a position still allows without a further bit or answer. -/
def posWeight : Pos → Nat
  | .read _ k _ r => readWeight r + if k = 0 then 0 else 4
  | .emit _ _ => 2
  | .write n i => 2 * (n - i) + 1
  | .flush => 1

/-- A measure that every operation lowers. -/
def runWeight (s : State) : Nat :=
  match s.cur with
  | none => 0
  | some c =>
    1 + posWeight c.pos + (if s.pend = .none then 1 else 0) +
      6 * (s.brCnt.toNat + 8 * s.srcReady.length) + 3 * (s.srcReady.length + s.outReady.length + s.woutReady.length)

theorem runWeight_of_cur_none {s : State} (h : s.cur = none) : runWeight s = 0 := by simp [runWeight, h]

theorem runWeight_pos {s : State} {c : Cur} (h : s.cur = some c) : 0 < runWeight s := by
  simp [runWeight, h]

theorem afterBodyStep_cases (c : Instr) (m : Bool) (s : State) :
    afterBodyStep c m s = complete s ∨ ∃ d, afterBodyStep c m s = startRead d 1 .bodyBit s := by
  cases c <;> simp only [afterBodyStep, bodyLoop, startBodyStep] <;> (try split) <;>
    first | exact .inl trivial | exact .inl rfl | exact .inr ⟨_, rfl⟩

theorem afterEntry_cases (c : Instr) (s : State) :
    afterEntry c s = complete s ∨ (∃ d, afterEntry c s = startRead d 1 .bodyBit s) ∨
      (s.hdrDone = false ∧ ∃ d, afterEntry c s = startRead d s.cfgL.toNat .symLen s) := by
  cases h : s.hdrDone <;> cases c <;> simp only [afterEntry, bodyLoop, startBodyStep, startEntry, h] <;>
    (try split) <;> (try split) <;>
    first
    | contradiction
    | exact .inl trivial
    | exact .inl rfl
    | exact .inr (.inl ⟨_, rfl⟩)
    | exact .inr (.inr ⟨trivial, _, rfl⟩)

/-- What an operation that moves CUR without touching a port leaves alone. -/
def samePorts (s t : State) : Prop :=
  t.pend = s.pend ∧ t.brCnt = s.brCnt ∧ t.srcReady = s.srcReady ∧ t.outReady = s.outReady ∧ t.woutReady = s.woutReady

/-- The command has ended, or stands at a position of weight below `w` with its ports as in `s`. -/
def Lighter (s t : State) (w : Nat) : Prop :=
  t.cur = none ∨ ∃ c, t.cur = some c ∧ posWeight c.pos < w ∧ samePorts s t

theorem runWeight_lt_of_lighter {s t : State} {c : Cur} (hc : s.cur = some c) (h : Lighter s t (posWeight c.pos)) :
    runWeight t < runWeight s := by
  rcases h with h | ⟨d, hd, hw, h1, h2, h3, h4, h5⟩
  · rw [runWeight_of_cur_none h]; exact runWeight_pos hc
  · simp only [runWeight, hc, hd, h1, h2, h3, h4, h5]; omega

theorem lighter_afterBodyStep {s t : State} (c : Instr) (m : Bool) {w : Nat} (hw : 1 < w) (hs : samePorts s t) :
    Lighter s (afterBodyStep c m t) w := by
  rcases afterBodyStep_cases c m t with h | ⟨d, h⟩ <;> rw [h]
  · exact .inl rfl
  · exact .inr ⟨_, rfl, by simpa [posWeight, readWeight] using hw, hs⟩

theorem lighter_afterEntry {s t : State} (c : Instr) {w : Nat} (hw : 1 < w) (hw' : t.hdrDone = false → 4 < w) (hs : samePorts s t) :
    Lighter s (afterEntry c t) w := by
  rcases afterEntry_cases c t with h | ⟨d, h⟩ | ⟨hh, d, h⟩ <;> rw [h]
  · exact .inl rfl
  · exact .inr ⟨_, rfl, by simpa [posWeight, readWeight] using hw, hs⟩
  · exact .inr ⟨_, rfl, by simpa [posWeight, readWeight] using hw' hh, hs⟩

theorem lighter_startRead {s t : State} (c : Instr) (n : Nat) (r : ReadFor) {w : Nat} (hw : readWeight r < w)
    (hs : samePorts s t) : Lighter s (startRead c n r t) w :=
  .inr ⟨_, rfl, by simpa [posWeight] using hw, hs⟩

theorem samePorts_refl (s : State) : samePorts s s := ⟨rfl, rfl, rfl, rfl, rfl⟩

theorem lighter_afterSymbol {s t : State} (c : Instr) {w : Nat} (hw : 3 < w) (hs : samePorts s t) :
    Lighter s (afterSymbol c t) w := by
  unfold afterSymbol
  split
  · exact .inl rfl
  · split
    · split
      · exact lighter_startRead _ _ _ hw hs
      · exact lighter_afterEntry _ (by omega) (by simp) hs
    · exact lighter_startRead _ _ _ hw hs

theorem lighter_bodyBitReturn {s : State} (c : Instr) (k : Nat) (v : Word) :
    Lighter s (bodyBitReturn c k v s) (1 + if k = 0 then 0 else 4) := by
  unfold bodyBitReturn
  split
  · exact .inl rfl
  · simp only
    split
    · unfold bodyMatch
      simp only
      split
      · exact lighter_afterBodyStep _ _ (by omega) (samePorts_refl s)
      · exact .inr ⟨_, rfl, by simp [posWeight], samePorts_refl s⟩
    · unfold bodyNoMatchYet
      split
      · exact .inl rfl
      · exact lighter_afterBodyStep _ _ (by omega) (samePorts_refl s)

theorem lighter_readReturn (c : Instr) (r : ReadFor) (n k : Nat) (v : Word) (s : State) :
    Lighter s (readReturn c r n k v s) (readWeight r + if k = 0 then 0 else 4) := by
  have hr := samePorts_refl s
  cases r <;> simp only [readReturn, readWeight]
  case rd => exact .inl rfl
  case symLen =>
    unfold symLenReturn
    split
    · exact .inl rfl
    · split
      · exact .inl rfl
      · split
        · exact .inl rfl
        · exact lighter_startRead _ _ _ (by simp only [readWeight]; omega) hr
  case symByte m i =>
    unfold symByteReturn
    split
    · exact .inl rfl
    · have : k ≠ 0 := by omega
      simp only [this, ↓reduceIte]
      split
      · exact lighter_startRead _ _ _ (by simp only [readWeight]; omega) hr
      · exact lighter_afterSymbol _ (by omega) hr
  case tailLen =>
    unfold tailLenReturn
    split
    · exact .inl rfl
    · have : k ≠ 0 := by omega
      simp only [this, ↓reduceIte]
      exact lighter_startRead _ _ _ (by simp only [readWeight]; omega) hr
  case tailCode =>
    unfold tailCodeReturn
    split
    · exact .inl rfl
    · exact lighter_afterEntry _ (by omega) (by simp) hr
  case clen =>
    unfold clenReturn
    split
    · exact .inl rfl
    · have : k ≠ 0 := by omega
      simp only [this, ↓reduceIte]
      split
      · exact .inl rfl
      · exact lighter_startRead _ _ _ (by simp only [readWeight]; omega) hr
  case code =>
    unfold codeReturn
    split
    · exact .inl rfl
    · split
      · exact .inl rfl
      · split
        · exact .inl rfl
        · exact lighter_afterEntry _ (by omega) (by intros; omega) hr
  case bodyBit => exact lighter_bodyBitReturn c k v

/-- Every operation of a unit that is not at rest lowers the measure. -/
theorem runWeight_unitOp {s : State} (h : s.atRest = false) : runWeight (unitOp s) < runWeight s := by
  unfold State.atRest at h
  unfold unitOp
  cases hc : s.cur with
  | none => simp [hc] at h
  | some c =>
    simp only [hc] at h ⊢
    have hpos := runWeight_pos hc
    cases hp : s.pend with
    | none =>
      simp only [posOp]
      obtain ⟨i, p⟩ := c
      cases p with
      | read n k v r =>
        simp only [readOp]
        split
        · split
          · split
            · exact runWeight_lt_of_lighter hc (lighter_readReturn _ _ _ _ _ _)
            · simp only [runWeight, hc, hp]; simp
          · rename_i hk hb
            have hb' : (s.brCnt - 1).toNat + 1 = s.brCnt.toNat := by
              have : s.brCnt.toNat ≠ 0 := fun h0 => hb (by simpa using BitVec.eq_of_toNat_eq (by simpa using h0))
              bv_omega
            simp only [runWeight, hc, goTo_cur, goTo_pend, goTo_brCnt, goTo_srcReady, goTo_outReady, goTo_woutReady, takeBit_pend, takeBit_brCnt,
              takeBit_srcReady, takeBit_outReady, takeBit_woutReady, posWeight]
            by_cases hk0 : k = 0 <;> simp only [hk0, hp, ↓reduceIte, Nat.add_eq_zero_iff, Nat.one_ne_zero, and_false] <;> omega
        · exact runWeight_lt_of_lighter hc (lighter_readReturn _ _ _ _ _ _)
      | emit e i =>
        simp only [emitOp]
        split
        · simp only [runWeight, hc, hp, goTo]; simp [posWeight]
        · exact runWeight_lt_of_lighter hc (lighter_afterBodyStep _ _ (by simp [posWeight]) ⟨rfl, rfl, rfl, rfl, rfl⟩)
      | write n i =>
        simp only [writeOp]
        split
        · split
          · simp only [runWeight, hc, hp, goTo, putBit, posWeight]; simp; omega
          · simp only [runWeight, hc, hp, goTo, putBit, posWeight]; simp; omega
        · rw [runWeight_of_cur_none (by rfl)]; exact hpos
      | flush =>
        simp only [flushOp]
        split
        · rw [runWeight_of_cur_none (by rfl)]; exact hpos
        · simp only [runWeight, hc, hp]; simp
    | src =>
      simp only [hp] at h ⊢
      cases hr : s.srcReady with
      | nil => simp [hr] at h
      | cons a l =>
        cases a with
        | byte b => simp only [answerSrc, runWeight, hc, hp, hr]; simp; omega
        | endOfData => simp only [answerSrc, runWeight, hc, hp, hr]; simp; omega
        | error => simp only [answerSrc]; rw [runWeight_of_cur_none (by rfl)]; exact hpos
    | out b =>
      simp only [hp] at h ⊢
      cases hr : s.outReady with
      | nil => simp [hr] at h
      | cons a l =>
        cases a with
        | ack => simp only [answerOut, runWeight, hc, hp, hr]; simp; omega
        | error => simp only [answerOut]; rw [runWeight_of_cur_none (by rfl)]; exact hpos
    | wout b =>
      simp only [hp] at h ⊢
      cases hr : s.woutReady with
      | nil => simp [hr] at h
      | cons a l =>
        cases a with
        | ack => simp only [answerWout, runWeight, hc, hp, hr]; simp; omega
        | error => simp only [answerWout]; rw [runWeight_of_cur_none (by rfl)]; exact hpos

theorem unitOps_atRest_of_weight (k : Nat) (s : State) (h : runWeight s ≤ k) : (unitOps k s).atRest = true := by
  induction k generalizing s with
  | zero =>
    by_contra hr
    have := runWeight_unitOp (by simpa [unitOps] using hr)
    omega
  | succ k ih =>
    rw [unitOps_succ]
    by_cases hr : s.atRest = true
    · rw [unitOp_of_atRest hr, unitOps_of_atRest hr]; exact hr
    · have := runWeight_unitOp (by simpa using hr)
      exact ih _ (by omega)

/-- The writer's position is within the 32 bits of WDATA. -/
def writesAtMost32 (s : State) : Prop := ∀ c n i, s.cur = some { instr := c, pos := .write n i } → n ≤ 32

theorem runWeight_le_budget {s : State} (h : writesAtMost32 s) : runWeight s ≤ opBudget s := by
  unfold runWeight opBudget
  cases hc : s.cur with
  | none => simp
  | some c =>
    obtain ⟨i, p⟩ := c
    have hw : posWeight p ≤ 65 := by
      cases p with
      | read n k v r => cases r <;> simp only [posWeight, readWeight] <;> split <;> omega
      | emit e i => simp [posWeight]
      | write n j => have := h i n j hc; simp only [posWeight]; omega
      | flush => simp [posWeight]
    simp only
    split <;> omega

/-- Within its budget the unit comes to rest (R261, R341). -/
theorem unitOps_budget_atRest {s : State} (h : writesAtMost32 s) : (unitOps (opBudget s) s).atRest = true :=
  unitOps_atRest_of_weight _ _ (runWeight_le_budget h)

/-! ### A whole run -/

theorem markDue_of_unhurried {s : State} (h : s.unhurried = true) : markDue s = s := by
  unfold State.unhurried at h
  unfold markDue
  cases hm : s.moves with
  | nil => rfl
  | cons m l =>
    simp only [hm, Option.isNone_iff_eq_none] at h ⊢
    obtain ⟨a, e⟩ := m
    simp only at h
    subst h
    simp only [Option.map_none]
    cases s
    simp_all

theorem unitRun_of_unhurried {s : State} (h : s.unhurried = true) : unitRun s = unitOps (opBudget s) s := by
  have : slice s = opBudget s := by
    unfold State.unhurried at h
    unfold slice
    cases hm : s.moves with
    | nil => rfl
    | cons m l => simp only [hm, Option.isNone_iff_eq_none] at h; simp [h]
  rw [unitRun, this, markDue_of_unhurried h]

/-- A run that nothing interrupts ends where the unit comes to rest. -/
theorem unitRun_eq_of_runs {s t : State} (hu : s.unhurried = true) (hw : writesAtMost32 s) (hr : Runs s t)
    (ht : t.atRest = true) : unitRun s = t := by
  obtain ⟨k, rfl⟩ := hr
  rw [unitRun_of_unhurried hu]
  exact unitOps_atRest_unique (unitOps_budget_atRest hw) ht

end Sys2Proof.Machine
end

