-- ==== Sys2Proof/Laws/Reader.lean ====
section
/-! SUPPORT. Bit sequences (R13), and what a `ReadBits` call does when its bits are available, and when the source stops
short of them (R161 to R164). -/

namespace Sys2Proof.Machine

/-! ### Bit sequences -/

@[simp] theorem length_bitsOf (n v : Nat) : (bitsOf n v).length = n := by
  induction n with
  | zero => rfl
  | succ n ih => simp [bitsOf, ih]

@[simp] theorem length_byteBits (b : Byte) : (byteBits b).length = 8 := length_bitsOf _ _

theorem bitsVal_foldl (a : Nat) (l : List Bool) :
    l.foldl (fun a b => 2 * a + b.toNat) a = a * 2 ^ l.length + bitsVal l := by
  induction l generalizing a with
  | nil => simp [bitsVal]
  | cons b l ih =>
    simp only [bitsVal, List.foldl_cons, List.length_cons]
    rw [ih, ih (2 * 0 + b.toNat)]
    ring

theorem bitsVal_cons (b : Bool) (l : List Bool) : bitsVal (b :: l) = b.toNat * 2 ^ l.length + bitsVal l := by
  simp only [bitsVal, List.foldl_cons]
  rw [bitsVal_foldl]
  simp [bitsVal]

theorem bitsVal_append (l m : List Bool) : bitsVal (l ++ m) = bitsVal l * 2 ^ m.length + bitsVal m := by
  simp only [bitsVal, List.foldl_append]
  rw [bitsVal_foldl]
  rfl

theorem bitsVal_lt (l : List Bool) : bitsVal l < 2 ^ l.length := by
  induction l with
  | nil => simp [bitsVal]
  | cons b l ih =>
    rw [bitsVal_cons, List.length_cons, Nat.pow_succ]
    cases b <;> simp <;> omega

/-- The bits of a number are its value (R13). -/
theorem bitsVal_bitsOf (n v : Nat) : bitsVal (bitsOf n v) = v % 2 ^ n := by
  induction n with
  | zero => simp [bitsOf, bitsVal, Nat.mod_one]
  | succ n ih =>
    rw [bitsOf, bitsVal_cons, length_bitsOf, ih, Nat.testBit_eq_decide_div_mod_eq]
    rw [Nat.pow_succ, Nat.mod_mul]
    rcases Nat.mod_two_eq_zero_or_one (v / 2 ^ n) with h | h <;> simp [h]; omega

theorem toNat_shiftIn (v : Word) (b : Bool) : (shiftIn v b).toNat = (2 * v.toNat + b.toNat) % 2 ^ 32 := by
  have h : shiftIn v b = BitVec.ofNat 32 (2 * v.toNat + b.toNat) := by
    unfold shiftIn
    apply BitVec.eq_of_getLsbD_eq
    intro i hi
    cases b
    · simp only [BitVec.getLsbD_or, BitVec.getLsbD_shiftLeft, BitVec.getLsbD_ofNat, hi, Bool.toNat_false, Nat.add_zero]
      rcases i with _ | i
      · simp
      · simp [Nat.testBit_succ, BitVec.getLsbD]
    · simp only [BitVec.getLsbD_or, BitVec.getLsbD_shiftLeft, BitVec.getLsbD_ofNat, hi, Bool.toNat_true]
      rcases i with _ | i
      · simp
      · have : (2 * v.toNat + 1) / 2 = v.toNat := by omega
        simp [Nat.testBit_succ, BitVec.getLsbD, this]
  rw [h, BitVec.toNat_ofNat]

/-- Shifting in a sequence that fits appends its value (R13, R128). -/
theorem toNat_foldl_shiftIn (l : List Bool) (v : Word) (h : (v.toNat + 1) * 2 ^ l.length ≤ 2 ^ 32) :
    (l.foldl shiftIn v).toNat = v.toNat * 2 ^ l.length + bitsVal l := by
  induction l generalizing v with
  | nil => simp [bitsVal]
  | cons b l ih =>
    have hp : 0 < 2 ^ l.length := Nat.two_pow_pos _
    rw [List.length_cons, Nat.pow_succ] at h
    have hb : b.toNat ≤ 1 := Bool.toNat_le b
    have h1 : (2 * v.toNat + b.toNat + 1) * 2 ^ l.length ≤ 2 ^ 32 := by nlinarith
    have h2 : 2 * v.toNat + b.toNat < 2 ^ 32 := by nlinarith
    have h3 : (shiftIn v b).toNat = 2 * v.toNat + b.toNat := by rw [toNat_shiftIn, Nat.mod_eq_of_lt h2]
    rw [List.foldl_cons, ih _ (by rw [h3]; exact h1), h3, bitsVal_cons, List.length_cons, Nat.pow_succ]
    ring

theorem foldl_shiftIn_zero {l : List Bool} (h : l.length ≤ 32) : (l.foldl shiftIn 0).toNat = bitsVal l := by
  rw [toNat_foldl_shiftIn]
  · simp
  · simpa using Nat.pow_le_pow_right (by omega) h

/-! ### Reading -/

/-- `t` is `s` after the reader has delivered `m` bits; nothing but the reader's own state differs (R160, R161). -/
abbrev Delivered (s : State) (m : Nat) (t : State) : Prop :=
  t = { s with
    brCnt := t.brCnt, brBuf := t.brBuf, brPos := s.brPos + BitVec.ofNat 32 m, srcStream := t.srcStream,
    srcReady := t.srcReady }

theorem Delivered.elim {s t : State} {m : Nat} (h : Delivered s m t) :
    ∃ cnt buf str rdy, t = { s with
      brCnt := cnt, brBuf := buf, brPos := s.brPos + BitVec.ofNat 32 m, srcStream := str, srcReady := rdy } :=
  ⟨_, _, _, _, h⟩

theorem Delivered.zero (s : State) : Delivered s 0 s := by simp [Delivered]

theorem Delivered.trans {s t u : State} {m n : Nat} (h : Delivered s m t) (h' : Delivered t n u) :
    Delivered s (m + n) u := by
  obtain ⟨_, _, _, _, rfl⟩ := h.elim
  obtain ⟨_, _, _, _, rfl⟩ := h'.elim
  simp [Delivered, BitVec.ofNat_add, BitVec.add_assoc]

theorem Delivered.pend_eq {s t : State} {m : Nat} (h : Delivered s m t) : t.pend = s.pend := by
  obtain ⟨_, _, _, _, rfl⟩ := h.elim
  rfl

theorem nextBit_eq (s : State) (h : s.brCnt ≠ 0) (l : List Bool) (b : Bool) (hl : s.bufBits = b :: l) :
    s.nextBit = b ∧ (takeBit s).bufBits = l := by
  have hn : s.brCnt.toNat ≠ 0 := fun h0 => h (BitVec.eq_of_toNat_eq (by simpa using h0))
  obtain ⟨n, hn'⟩ := Nat.exists_eq_succ_of_ne_zero hn
  have h1 : (s.brCnt - 1).toNat = n := by
    have := s.brCnt.isLt
    have h2 : (s.brCnt - 1).toNat = s.brCnt.toNat - 1 := by
      rw [BitVec.toNat_sub_of_le]; rfl
      simp [BitVec.le_def]; omega
    omega
  unfold State.bufBits at hl
  rw [hn', Nat.succ_eq_add_one, bitsOf] at hl
  injection hl with hb hl
  refine ⟨?_, ?_⟩
  · rw [State.nextBit, hn', ← hb]; rfl
  · rw [State.bufBits]; simp only [takeBit_brCnt, takeBit_brBuf]; rw [h1, hl]

/-- One bit: the operations of `ReadBits` that deliver it, a fetch among them when the buffer is empty (R161, R162). -/
theorem read_bit {s : State} {c : Instr} {n k : Nat} {v : Word} {r : ReadFor} {b : Bool} {rest : List Bool}
    (hc : s.cur = some { instr := c, pos := .read n k v r }) (hp : s.pend = .none) (hk : k < n)
    (ha : s.availBits = b :: rest) :
    ∃ t, Delivered s 1 t ∧ t.availBits = rest ∧ readyStop t.srcReady = readyStop s.srcReady ∧
      Runs s (goTo c (.read n (k + 1) (shiftIn v b) r) t) := by
  by_cases hz : s.brCnt = 0
  · have hbuf : s.bufBits = [] := by simp [State.bufBits, hz, bitsOf]
    have he : s.srcEnd = false := by
      cases he : s.srcEnd with
      | false => rfl
      | true => simp [State.availBits, hbuf, he] at ha
    simp only [State.availBits, hbuf, he] at ha
    match hr : s.srcReady, ha with
    | .byte x :: l, ha =>
      have hx : byteBits x ++ bytesBits (readyBytes l) = b :: rest := by simpa [hr, readyBytes, bytesBits] using ha
      let u : State := { s with srcReady := l, brBuf := x, brCnt := 8, srcStream := s.srcStream ++ [x] }
      have hub : u.bufBits = byteBits x := rfl
      obtain ⟨l', hl'⟩ : ∃ l', u.bufBits = b :: l' ∧ rest = l' ++ bytesBits (readyBytes l) := by
        rw [hub]
        match h8 : byteBits x, hx with
        | y :: l', hx => simp only [List.cons_append, List.cons.injEq] at hx; exact ⟨l', by simp [hx.1], hx.2.symm⟩
        | [], _ => exact absurd (congrArg List.length h8) (by simp)
      have hn := nextBit_eq u (by simp [u]) l' b hl'.1
      refine ⟨takeBit u, ?_, ?_, by simp [u, readyStop], ?_⟩
      · simp [Delivered, u, takeBit]
      · simp only [State.availBits, hn.2, takeBit_srcEnd, takeBit_srcReady]
        simp [u, he, hl'.2]
      · refine Runs.op_eq (u := { s with pend := .src }) (by simp [unitOp, hc, hp, posOp, readOp, hk, hz, he]) ?_
        refine Runs.op_eq (u := { u with pend := .none }) (by simp [unitOp, hc, hr, answerSrc, u]) ?_
        have hnb : ({ u with pend := .none } : State).nextBit = b := hn.1
        refine Runs.op_eq (u := _) ?_ (Runs.refl _)
        simp only [unitOp, hc, u, posOp, readOp, hk, ↓reduceIte]
        simp only [u] at hnb
        rw [if_neg (by decide)]
        have : ∀ x y, x = b → goTo c (.read n (k + 1) (shiftIn v x) r) y = goTo c (.read n (k + 1) (shiftIn v b) r) y := by
          rintro x y rfl; rfl
        rw [this _ _ (by simpa [State.nextBit] using hnb)]
        simp [goTo, takeBit, hp]
    | .endOfData :: l, ha => simp [readyBytes, bytesBits] at ha
    | .error :: l, ha => simp [readyBytes, bytesBits] at ha
    | [], ha => simp [readyBytes, bytesBits] at ha
  · obtain ⟨l', hl'⟩ : ∃ l', s.bufBits = b :: l' := by
      match h8 : s.bufBits with
      | [] =>
        exfalso
        apply hz
        have := congrArg List.length h8
        rw [State.bufBits, length_bitsOf] at this
        exact BitVec.eq_of_toNat_eq (by simpa using this)
      | y :: l' => simp only [State.availBits, h8, List.cons_append, List.cons.injEq] at ha; exact ⟨l', by rw [ha.1]⟩
    have hn := nextBit_eq s hz l' b hl'
    refine ⟨takeBit s, ?_, ?_, rfl, ?_⟩
    · simp [Delivered, takeBit]
    · simp only [State.availBits, hl', List.cons_append, List.cons.injEq, true_and] at ha
      simp [State.availBits, hn.2, ← ha]
    · refine Runs.op_eq (u := _) ?_ (Runs.refl _)
      simp only [unitOp, hc, hp, posOp, readOp, hk, ↓reduceIte]
      rw [if_neg hz, hn.1]

/-- `n - k` bits that are available are delivered, most significant first (R161, R84). -/
theorem read_bits (l : List Bool) {s : State} {c : Instr} {n k : Nat} {v : Word} {r : ReadFor} {rest : List Bool}
    (hc : s.cur = some { instr := c, pos := .read n k v r }) (hp : s.pend = .none) (hn : n = k + l.length)
    (ha : s.availBits = l ++ rest) :
    ∃ t, Delivered s l.length t ∧ t.availBits = rest ∧ readyStop t.srcReady = readyStop s.srcReady ∧
      Runs s (goTo c (.read n n (l.foldl shiftIn v) r) t) := by
  induction l generalizing s k v with
  | nil =>
    refine ⟨s, Delivered.zero s, by simpa using ha, rfl, ?_⟩
    have : goTo c (.read n n (List.foldl shiftIn v []) r) s = s := by
      simp only [List.length_nil, Nat.add_zero] at hn
      subst hn
      simp only [goTo, List.foldl_nil, ← hc]
    rw [this]
    exact Runs.refl s
  | cons b l ih =>
    obtain ⟨t, ht, hta, hs, hr⟩ := read_bit hc hp (by simp at hn; omega) ha
    have htp : t.pend = s.pend := ht.pend_eq
    obtain ⟨u, hu, hua, hs', hr'⟩ := ih (s := goTo c (.read n (k + 1) (shiftIn v b) r) t) (k := k + 1) (v := shiftIn v b) rfl (by simp [htp, hp])
      (by simp at hn; omega) (by simpa [State.availBits, State.bufBits] using hta)
    refine ⟨{ u with cur := t.cur }, ?_, ?_, hs'.trans hs, ?_⟩
    · have h1 : Delivered t l.length { u with cur := t.cur } := by
        have hu := hu
        rw [hu]; simp [goTo]
      have := ht.trans h1
      simpa [Nat.add_comm] using this
    · simpa [State.availBits, State.bufBits] using hua
    · exact hr.trans (by simpa [goTo] using hr')

/-- A `ReadBits(n)` call whose bits are available returns them to its caller (R161). -/
theorem startRead_runs (l : List Bool) {s : State} (c : Instr) (r : ReadFor) {rest : List Bool} (hp : s.pend = .none)
    (ha : s.availBits = l ++ rest) :
    ∃ t, Delivered s l.length t ∧ t.availBits = rest ∧ readyStop t.srcReady = readyStop s.srcReady ∧
      Runs (startRead c l.length r s)
        (readReturn c r l.length l.length (l.foldl shiftIn 0) (goTo c (.read l.length l.length (l.foldl shiftIn 0) r) t)) := by
  obtain ⟨t, ht, hta, hs, hr⟩ := read_bits l (s := startRead c l.length r s) (k := 0) (v := 0) (n := l.length) (c := c) (r := r) (rest := rest)
    rfl (by simpa using hp) (by simp) (by simpa [State.availBits, State.bufBits] using ha)
  have htp : t.pend = s.pend := ht.pend_eq
  refine ⟨{ t with cur := s.cur }, ?_, by simpa [State.availBits, State.bufBits] using hta, hs, ?_⟩
  · unfold Delivered at ht ⊢
    rw [ht]; simp [startRead, goTo]
  · refine hr.trans (Runs.op_eq (u := _) ?_ (Runs.refl _))
    simp [unitOp, htp, hp, posOp, readOp, goTo]

/-- Where the source gives no more bits: the buffer is empty and no byte is ready. -/
theorem availBits_nil {s : State} (h : s.availBits = []) :
    s.brCnt = 0 ∧ (s.srcEnd = false → readyBytes s.srcReady = []) := by
  unfold State.availBits at h
  rw [List.append_eq_nil_iff] at h
  refine ⟨?_, fun he => ?_⟩
  · have := congrArg List.length h.1
    rw [State.bufBits, length_bitsOf] at this
    exact BitVec.eq_of_toNat_eq (by simpa using this)
  · have := h.2
    simp only [he, cond_false] at this
    match hr : readyBytes s.srcReady with
    | [] => rfl
    | b :: l => rw [hr] at this; have := congrArg List.length this; simp [bytesBits] at this

theorem readyStop_of_readyBytes_nil {l : List SrcAnswer} {a : SrcAnswer} (h : readyBytes l = []) (hs : readyStop l = some a) :
    (∃ l', l = a :: l') ∧ (a = .endOfData ∨ a = .error) := by
  match l with
  | [] => simp [readyStop] at hs
  | .byte b :: l => simp [readyBytes] at h
  | .endOfData :: l => simp only [readyStop, Option.some.injEq] at hs; subst hs; exact ⟨⟨_, rfl⟩, .inl rfl⟩
  | .error :: l => simp only [readyStop, Option.some.injEq] at hs; subst hs; exact ⟨⟨_, rfl⟩, .inr rfl⟩

theorem readyBytes_nil_of_readyStop_none {l : List SrcAnswer} (h : readyBytes l = []) (hs : readyStop l = none) : l = [] := by
  match l with
  | [] => rfl
  | .byte b :: l => simp [readyBytes] at h
  | .endOfData :: l => simp [readyStop] at hs
  | .error :: l => simp [readyStop] at hs

/-- A read that wants a bit where the source ends returns what it has (R161, R163). -/
theorem read_atEnd {s : State} {c : Instr} {n k : Nat} {v : Word} {r : ReadFor}
    (hc : s.cur = some { instr := c, pos := .read n k v r }) (hp : s.pend = .none) (hk : k < n) (ha : s.availBits = [])
    (he : s.sourceEnds) :
    ∃ l, Runs s (readReturn c r n k v { s with srcEnd := true, srcReady := l }) := by
  have hz := (availBits_nil ha).1
  by_cases hse : s.srcEnd = true
  · refine ⟨s.srcReady, Runs.op_eq (u := _) ?_ (Runs.refl _)⟩
    simp only [unitOp, hc, hp, posOp, readOp, hk, ↓reduceIte, hz, hse]
    congr 1
    rw [← hc, ← hp, ← hz, ← hse]
  · simp only [Bool.not_eq_true] at hse
    have hs := he.resolve_left (by simp [hse])
    obtain ⟨⟨l, hl⟩, -⟩ := readyStop_of_readyBytes_nil ((availBits_nil ha).2 hse) hs
    refine ⟨l, ?_⟩
    refine Runs.op_eq (u := { s with pend := .src }) (by simp [unitOp, hc, hp, posOp, readOp, hk, hz, hse]) ?_
    refine Runs.op_eq (u := { s with srcEnd := true, srcReady := l }) (by simp [unitOp, hc, hl, answerSrc, hp]) ?_
    refine Runs.op_eq (u := _) ?_ (Runs.refl _)
    simp [unitOp, hc, hp, posOp, readOp, hk, hz]

/-- A read that wants a bit where the port answers `Error` ends the command (R164). -/
theorem read_atError {s : State} {c : Instr} {n k : Nat} {v : Word} {r : ReadFor}
    (hc : s.cur = some { instr := c, pos := .read n k v r }) (hp : s.pend = .none) (hk : k < n) (ha : s.availBits = [])
    (he : s.srcEnd = false) (hs : readyStop s.srcReady = some .error) :
    ∃ l, Runs s (raise (.ioError 0) { s with srcReady := l }) := by
  have hz := (availBits_nil ha).1
  obtain ⟨⟨l, hl⟩, -⟩ := readyStop_of_readyBytes_nil ((availBits_nil ha).2 he) hs
  refine ⟨l, ?_⟩
  refine Runs.op_eq (u := { s with pend := .src }) (by simp [unitOp, hc, hp, posOp, readOp, hk, hz, he]) ?_
  exact Runs.op_eq (by simp [unitOp, hc, hl, answerSrc, raise]) (Runs.refl _)

/-- A read that wants a bit which the host has not answered yet holds on SRC (R88). -/
theorem read_holds {s : State} {c : Instr} {n k : Nat} {v : Word} {r : ReadFor}
    (hc : s.cur = some { instr := c, pos := .read n k v r }) (hp : s.pend = .none) (hk : k < n) (ha : s.availBits = [])
    (he : s.srcEnd = false) (hs : readyStop s.srcReady = none) :
    Runs s { s with pend := .src } ∧ ({ s with pend := .src } : State).atRest = true := by
  have hz := (availBits_nil ha).1
  have hl := readyBytes_nil_of_readyStop_none ((availBits_nil ha).2 he) hs
  exact ⟨Runs.op_eq (by simp [unitOp, hc, hp, posOp, readOp, hk, hz, he]) (Runs.refl _), by simp [State.atRest, hc, hl]⟩

/-- The bits a `ReadBits(n)` call finds before the source stops: it stands at its end with them (R161). -/
theorem startRead_upTo (l : List Bool) {s : State} (c : Instr) (n : Nat) (r : ReadFor) (hp : s.pend = .none)
    (ha : s.availBits = l) (hn : l.length ≤ n) :
    ∃ t, Delivered s l.length t ∧ t.availBits = [] ∧ readyStop t.srcReady = readyStop s.srcReady ∧
      Runs (startRead c n r s) (goTo c (.read n l.length (l.foldl shiftIn 0) r) t) := by
  suffices H : ∀ (l : List Bool) (s : State) (k : Nat) (v : Word), s.cur = some { instr := c, pos := .read n k v r } →
      s.pend = .none → k + l.length ≤ n → s.availBits = l →
      ∃ t, Delivered s l.length t ∧ t.availBits = [] ∧ readyStop t.srcReady = readyStop s.srcReady ∧
        Runs s (goTo c (.read n (k + l.length) (l.foldl shiftIn v) r) t) by
    obtain ⟨t, ht, hta, hs, hr⟩ := H l (startRead c n r s) 0 0 rfl (by simpa using hp) (by simpa using hn)
      (by simpa [State.availBits, State.bufBits] using ha)
    refine ⟨{ t with cur := s.cur }, ?_, by simpa [State.availBits, State.bufBits] using hta, hs, ?_⟩
    · rw [ht]; simp [startRead, goTo]
    · simpa [goTo] using hr
  intro l
  induction l with
  | nil =>
    intro s k v hc _ _ ha
    refine ⟨s, Delivered.zero s, ha, rfl, ?_⟩
    have : goTo c (.read n (k + ([] : List Bool).length) (List.foldl shiftIn v []) r) s = s := by
      simp only [List.length_nil, Nat.add_zero, goTo, List.foldl_nil, ← hc]
    rw [this]
    exact Runs.refl s
  | cons b l ih =>
    intro s k v hc hp hn ha
    simp only [List.length_cons] at hn
    obtain ⟨t, ht, hta, hs, hr⟩ := read_bit hc hp (by omega) ha
    obtain ⟨u, hu, hua, hs', hr'⟩ := ih (goTo c (.read n (k + 1) (shiftIn v b) r) t) (k + 1) (shiftIn v b) rfl
      (by simp [ht.pend_eq, hp]) (by omega) (by simpa [State.availBits, State.bufBits] using hta)
    refine ⟨{ u with cur := t.cur }, ?_, ?_, hs'.trans hs, ?_⟩
    · have h1 : Delivered t l.length { u with cur := t.cur } := by
        rw [hu]; simp [goTo]
      have := ht.trans h1
      simpa [Nat.add_comm] using this
    · simpa [State.availBits, State.bufBits] using hua
    · have h2 := hr.trans (by simpa [goTo] using hr')
      simpa [goTo, Nat.add_comm, Nat.add_left_comm] using h2

end Sys2Proof.Machine
end

