-- ==== Sys2Proof/Laws/Header.lean ====
section
/-! SUPPORT. ParseEntry (R202): what the header parser does with an entry whose bits are available, and with the MAP_END
entry (R204). -/

namespace Sys2Proof.Machine

/-- `t` is `s` after HP has parsed `m` bits: nothing but the reader, SYMBUF and CUR differs (R200, R202). -/
abbrev Parsed (s : State) (m : Nat) (t : State) : Prop :=
  t = { s with
    brCnt := t.brCnt, brBuf := t.brBuf, brPos := s.brPos + BitVec.ofNat 32 m, srcStream := t.srcStream,
    srcReady := t.srcReady, symBuf := t.symBuf, symBufLen := t.symBufLen, cur := t.cur }

theorem Parsed.elim {s t : State} {m : Nat} (h : Parsed s m t) :
    ∃ cnt buf str rdy sb sl cur, t = { s with
      brCnt := cnt, brBuf := buf, brPos := s.brPos + BitVec.ofNat 32 m, srcStream := str, srcReady := rdy,
      symBuf := sb, symBufLen := sl, cur := cur } :=
  ⟨_, _, _, _, _, _, _, h⟩

theorem Parsed.trans {s t u : State} {m n : Nat} (h : Parsed s m t) (h' : Parsed t n u) : Parsed s (m + n) u := by
  obtain ⟨_, _, _, _, _, _, _, rfl⟩ := h.elim
  obtain ⟨_, _, _, _, _, _, _, rfl⟩ := h'.elim
  simp [Parsed, BitVec.ofNat_add, BitVec.add_assoc]

theorem Delivered.parsed {s t : State} {m : Nat} (h : Delivered s m t) (c : Instr) (p : Pos) : Parsed s m (goTo c p t) := by
  obtain ⟨_, _, _, _, rfl⟩ := h.elim
  simp [Parsed, goTo]

theorem Parsed.pend_eq {s t : State} {m : Nat} (h : Parsed s m t) : t.pend = s.pend := by
  obtain ⟨_, _, _, _, _, _, _, rfl⟩ := h.elim
  rfl

theorem Parsed.params_eq {s t : State} {m : Nat} (h : Parsed s m t) : t.params = s.params := by
  obtain ⟨_, _, _, _, _, _, _, rfl⟩ := h.elim
  rfl

theorem Parsed.cfgL_eq {s t : State} {m : Nat} (h : Parsed s m t) : t.cfgL = s.cfgL := by
  obtain ⟨_, _, _, _, _, _, _, rfl⟩ := h.elim
  rfl

theorem Parsed.map_eq {s t : State} {m : Nat} (h : Parsed s m t) : t.map = s.map := by
  obtain ⟨_, _, _, _, _, _, _, rfl⟩ := h.elim
  rfl

/-- A field read by `ReadBits` whose bits are available reaches its caller as their value (R84). -/
theorem read_field (n : Nat) (l : List Bool) {s : State} (c : Instr) (r : ReadFor) {rest : List Bool} (hp : s.pend = .none)
    (hl : l.length = n) (hn : n ≤ 32) (ha : s.availBits = l ++ rest) :
    ∃ t v, Parsed s n t ∧ t.symBuf = s.symBuf ∧ t.symBufLen = s.symBufLen ∧ t.availBits = rest ∧
      readyStop t.srcReady = readyStop s.srcReady ∧ (v : Word).toNat = bitsVal l ∧
      Runs (startRead c n r s) (readReturn c r n n v t) := by
  subst hl
  obtain ⟨t, ht, hta, hs, hr⟩ := startRead_runs l c r hp ha
  have ht' := ht.parsed c (.read l.length l.length (l.foldl shiftIn 0) r)
  obtain ⟨_, _, _, _, he⟩ := ht.elim
  refine ⟨goTo c (.read l.length l.length (l.foldl shiftIn 0) r) t, l.foldl shiftIn 0, ht', ?_, ?_, ?_, hs,
    foldl_shiftIn_zero hn, hr⟩
  · rw [he]; rfl
  · rw [he]; rfl
  · simpa [State.availBits, State.bufBits] using hta

theorem bitsVal_bitsOf_of_lt {n v : Nat} (h : v < 2 ^ n) : bitsVal (bitsOf n v) = v := by
  rw [bitsVal_bitsOf, Nat.mod_eq_of_lt h]

theorem bitsVal_byteBits (b : Byte) : bitsVal (byteBits b) = b.toNat := bitsVal_bitsOf_of_lt b.isLt

theorem bytesBits_cons (b : Byte) (l : List Byte) : bytesBits (b :: l) = byteBits b ++ bytesBits l := rfl

/-- The symbol bytes from byte `i` on (R202). -/
theorem parse_bytes (l : List Byte) {s : State} (c : Instr) {n i : Nat} {rest : List Bool} (hp : s.pend = .none)
    (hl : 1 ≤ l.length) (hn : n = i + l.length) (hi : i ≤ s.symBuf.length) (hn' : n < 65536)
    (ha : s.availBits = bytesBits l ++ rest) :
    ∃ t, Parsed s (8 * l.length) t ∧ parsedSym t = s.symBuf.take i ++ l ∧ t.availBits = rest ∧
      readyStop t.srcReady = readyStop s.srcReady ∧ Runs (startRead c 8 (.symByte n i) s) (afterSymbol c t) := by
  induction l generalizing s i with
  | nil => simp at hl
  | cons b l ih =>
    obtain ⟨t, v, ht, hsb, hsl, hta, hs, hv, hr⟩ := read_field 8 (byteBits b) c (.symByte n i) hp (by simp) (by omega)
      (rest := bytesBits l ++ rest) (by rw [ha, bytesBits_cons, List.append_assoc])
    have hb : v.setWidth 8 = b := by
      apply BitVec.eq_of_toNat_eq
      rw [BitVec.toNat_setWidth, hv, bitsVal_byteBits, Nat.mod_eq_of_lt b.isLt]
    rw [readReturn, symByteReturn, if_neg (by omega), hb, hsb] at hr
    have hlen : (putSymByte s.symBuf i b).length = i + 1 := by simp [putSymByte]; omega
    obtain ⟨_, _, _, _, _, _, _, he⟩ := ht.elim
    by_cases hlast : i + 1 < n
    · rw [if_pos hlast] at hr
      obtain ⟨u, hu, hub, hua, hus, hur⟩ := ih (s := { t with symBuf := putSymByte s.symBuf i b }) (i := i + 1)
        (by rw [← hp]; exact ht.pend_eq) (by simp at hn; omega) (by simp at hn; omega) (by rw [hlen])
        (by simpa [State.availBits, State.bufBits] using hta)
      refine ⟨u, ?_, ?_, hua, hus.trans hs, hr.trans hur⟩
      · obtain ⟨_, _, _, _, _, _, _, hu'⟩ := hu.elim
        rw [hu', he]
        simp only [Parsed, List.length_cons]
        rw [Nat.mul_add, Nat.add_comm (8 * l.length), BitVec.ofNat_add, BitVec.add_assoc]
      · rw [hub]; simp only; rw [List.take_of_length_le (by omega)]; simp [putSymByte]
    · rw [if_neg hlast] at hr
      have hl0 : l = [] := by
        have : l.length = 0 := by simp at hn; omega
        exact List.eq_nil_of_length_eq_zero this
      subst hl0
      refine ⟨{ t with symBuf := putSymByte s.symBuf i b, symBufLen := BitVec.ofNat 16 n }, ?_, ?_, ?_, hs, hr⟩
      · rw [he]; simp [Parsed]
      · simp only [parsedSym, BitVec.toNat_ofNat]
        rw [Nat.mod_eq_of_lt (by omega), List.take_of_length_le (by simp at hn; omega)]; rfl
      · simpa [State.availBits, State.bufBits, bytesBits] using hta

theorem startRead_goTo (c d : Instr) (n : Nat) (r : ReadFor) (p : Pos) (s : State) :
    startRead c n r (goTo d p s) = startRead c n r s := rfl

/-- Fields 1 and 2 of an entry (R202): the parser has the symbol. -/
theorem parse_symbol (sym : List Byte) {s : State} (c : Instr) {rest : List Bool} (hp : s.pend = .none)
    (hL : s.cfgL.toNat ≤ 32) (h1 : 1 ≤ sym.length) (h2 : sym.length < 2 ^ s.cfgL.toNat)
    (h3 : sym.length ≤ s.params.symBytesMax) (hm : s.params.symBytesMax ≤ 65535)
    (ha : s.availBits = bitsOf s.cfgL.toNat sym.length ++ (bytesBits sym ++ rest)) :
    ∃ t, Parsed s (s.cfgL.toNat + 8 * sym.length) t ∧ parsedSym t = sym ∧ t.availBits = rest ∧
      readyStop t.srcReady = readyStop s.srcReady ∧ Runs (startEntry c s) (afterSymbol c t) := by
  obtain ⟨t, v, ht, -, -, hta, hs, hv, hr⟩ := read_field s.cfgL.toNat (bitsOf s.cfgL.toNat sym.length) c .symLen hp (by simp) hL ha
  rw [bitsVal_bitsOf_of_lt h2] at hv
  rw [readReturn, symLenReturn, if_neg (by omega), if_neg (by omega), if_neg (by rw [ht.params_eq]; omega), hv] at hr
  obtain ⟨u, hu, hub, hua, hus, hur⟩ := parse_bytes sym c (s := t) (n := sym.length) (i := 0) (by rw [ht.pend_eq, hp]) h1
    (by omega) (by omega) (by omega) hta
  exact ⟨u, ht.trans hu, by simpa using hub, hua, hus.trans hs, hr.trans hur⟩

/-- A well-formed entry up to its code (R202, R205). -/
theorem parse_clen (x : MapEntry) {s : State} (c : Instr) {rest : List Bool} (hp : s.pend = .none)
    (hL : s.cfgL.toNat ≤ 32) (hm : s.params.symBytesMax ≤ 65535) (hx : entryFits s.params s.cfgL.toNat x)
    (ha : s.availBits = entryBits s.cfgL.toNat x ++ rest) :
    ∃ t v, Parsed s (s.cfgL.toNat + 8 * x.sym.length + 5 + x.clen.toNat) t ∧ parsedSym t = x.sym ∧ t.availBits = rest ∧
      readyStop t.srcReady = readyStop s.srcReady ∧ v = x.code.setWidth 32 ∧
      Runs (startEntry c s) (codeReturn c x.clen.toNat x.clen.toNat v t) := by
  obtain ⟨h1, h2, h3, h4, h5, h6, h7⟩ := hx
  obtain ⟨t, ht, hts, hta, hs, hr⟩ := parse_symbol x.sym c hp hL h1 h2 h3 hm
    (rest := bitsOf 5 x.clen.toNat ++ (codeBits x ++ rest)) (by rw [ha]; simp [entryBits])
  have hu8 : (t.params.checkUtf8 && !wellFormedUtf8 (parsedSym t)) = false := by
    rw [hts, ht.params_eq]
    cases hc : s.params.checkUtf8 with
    | false => rfl
    | true => simp [h5 hc]
  rw [afterSymbol, hu8, if_neg (by simp), hts, if_neg (by rw [ht.params_eq]; exact h4)] at hr
  obtain ⟨u, v, hu, hub, hul, hua, hus, huv, hur⟩ := read_field 5 (bitsOf 5 x.clen.toNat) c .clen
    (by rw [ht.pend_eq, hp]) (by simp) (by omega) hta
  rw [bitsVal_bitsOf_of_lt x.clen.isLt] at huv
  rw [readReturn, clenReturn, if_neg (by omega), if_neg (by omega), huv] at hur
  obtain ⟨w, y, hw, hwb, hwl, hwa, hws, hwv, hwr⟩ := read_field x.clen.toNat (codeBits x) c .code
    (by rw [hu.pend_eq, ht.pend_eq, hp]) (by simp [codeBits]) (by omega) hua
  refine ⟨w, y, ?_, ?_, hwa, hws.trans (hus.trans hs), ?_, hr.trans (hur.trans hwr)⟩
  · exact (ht.trans hu).trans hw
  · rw [← hts, parsedSym, parsedSym, hwb, hwl, hub, hul]
  · apply BitVec.eq_of_toNat_eq
    rw [hwv, codeBits, bitsVal_bitsOf_of_lt h7, BitVec.toNat_setWidth]
    have := x.code.isLt
    omega

/-- A well-formed entry with a new code, and room for it, goes in at the end of the map (R202, R206). -/
theorem parse_entry (x : MapEntry) {s : State} (c : Instr) {rest : List Bool} (hp : s.pend = .none)
    (hL : s.cfgL.toNat ≤ 32) (hm : s.params.symBytesMax ≤ 65535) (hx : entryFits s.params s.cfgL.toNat x)
    (hnew : matchCode s.map x.clen.toNat (x.code.setWidth 32) = none) (hroom : s.map.length < s.params.mapEntries)
    (ha : s.availBits = entryBits s.cfgL.toNat x ++ rest) :
    ∃ t, Parsed s (s.cfgL.toNat + 8 * x.sym.length + 5 + x.clen.toNat) t ∧ t.availBits = rest ∧
      readyStop t.srcReady = readyStop s.srcReady ∧
      Runs (startEntry c s)
        (afterEntry c
          { t with map := s.map ++ [x], maxLen := if s.maxLen.toNat < x.clen.toNat then x.clen else s.maxLen }) := by
  obtain ⟨t, v, ht, hts, hta, hs, hv, hr⟩ := parse_clen x c hp hL hm hx ha
  refine ⟨t, ht, hta, hs, ?_⟩
  subst hv
  rw [codeReturn, if_neg (by omega), ht.map_eq, hnew, if_neg (by simp), if_neg (by rw [ht.params_eq]; omega)] at hr
  have h1 : BitVec.ofNat 5 x.clen.toNat = x.clen := by simp
  have h2 : (x.code.setWidth 32).setWidth 31 = x.code := by
    apply BitVec.eq_of_toNat_eq
    have := x.code.isLt
    simp
  have hml : t.maxLen = s.maxLen := by
    obtain ⟨_, _, _, _, _, _, _, he⟩ := ht.elim
    rw [he]
  rw [h1, h2, insertEntry, hts, ht.map_eq, hml] at hr
  exact hr

/-- The MAP_END entry ends the header and inserts nothing (R204). -/
theorem parse_mapEnd {s : State} (c : Instr) {n : Nat} {tail rest : List Bool} (hp : s.pend = .none)
    (hL : s.cfgL.toNat ≤ 32) (hl : paramsLegal s.params = true) (h2 : s.params.mapEndBytes.length < 2 ^ s.cfgL.toNat)
    (hn : n ≤ 31) (ht : tail.length = n) (ha : s.availBits = mapEndBits s.params s.cfgL.toNat n tail ++ rest) :
    ∃ t, Parsed s (mapEndBits s.params s.cfgL.toNat n tail).length t ∧ t.availBits = rest ∧
      readyStop t.srcReady = readyStop s.srcReady ∧ Runs (startEntry c s) (headerEnd c t) := by
  simp only [paramsLegal, Bool.and_eq_true, decide_eq_true_eq, isOneChar] at hl
  obtain ⟨⟨⟨⟨⟨⟨⟨⟨-, -⟩, -⟩, hm⟩, hme, hone⟩, -⟩, -⟩, h3⟩, -⟩ := hl
  have h1 : 1 ≤ s.params.mapEndBytes.length := by
    rcases hb : s.params.mapEndBytes with _ | ⟨b, l⟩
    · rw [hb] at hone; simp at hone
    · simp
  obtain ⟨t, htp, hts, hta, hs, hr⟩ := parse_symbol s.params.mapEndBytes c hp hL h1 h2 h3 hm
    (rest := (match s.params.mapEndTail with | .fullEntry => bitsOf 5 n ++ tail | .symbolOnly => []) ++ rest)
    (by rw [ha, mapEndBits]; exact (List.append_assoc _ _ _).trans (List.append_assoc _ _ _))
  have hu8 : (t.params.checkUtf8 && !wellFormedUtf8 (parsedSym t)) = false := by rw [hts, hme]; simp
  rw [afterSymbol, hu8, if_neg (by simp), hts, if_pos (by rw [htp.params_eq]), htp.params_eq] at hr
  cases htail : s.params.mapEndTail with
  | symbolOnly =>
    simp only [htail] at hr hta
    exact ⟨t, by simpa [mapEndBits, htail, bytesBits, Nat.mul_comm] using htp, by simpa using hta, hs, hr⟩
  | fullEntry =>
    simp only [htail, List.append_assoc] at hr hta
    obtain ⟨u, v, hu, -, -, hua, hus, huv, hur⟩ := read_field 5 (bitsOf 5 n) c .tailLen
      (by rw [htp.pend_eq, hp]) (by simp) (by omega) hta
    rw [bitsVal_bitsOf_of_lt (by omega)] at huv
    rw [readReturn, tailLenReturn, if_neg (by omega), huv] at hur
    obtain ⟨w, y, hw, -, -, hwa, hws, -, hwr⟩ := read_field n tail c .tailCode
      (by rw [hu.pend_eq, htp.pend_eq, hp]) ht (by omega) hua
    rw [readReturn, tailCodeReturn, if_neg (by omega)] at hwr
    refine ⟨w, ?_, hwa, hws.trans (hus.trans hs), hr.trans (hur.trans hwr)⟩
    have := (htp.trans hu).trans hw
    simpa [mapEndBits, htail, bytesBits, Nat.mul_comm, ht, Nat.add_assoc] using this

theorem maxCodeLen_append (m : List MapEntry) (x : MapEntry) : maxCodeLen (m ++ [x]) = max (maxCodeLen m) x.clen.toNat := by
  simp [maxCodeLen, List.foldl_append]

theorem length_entryBits (len : Nat) (x : MapEntry) :
    (entryBits len x).length = len + 8 * x.sym.length + 5 + x.clen.toNat := by
  simp [entryBits, bytesBits, codeBits, Nat.mul_comm]; omega

/-- Entries in order, and the parser at the start of the next (R208): the map takes them at its end. -/
theorem parse_entries (xs : List MapEntry) {s : State} {c : Instr} (hc : parsesAfter c xs) {rest : List Bool}
    (hp : s.pend = .none) (hd : s.hdrDone = false) (hL : s.cfgL.toNat ≤ 32) (hm : s.params.symBytesMax ≤ 65535)
    (hx : mapTakes s.params s.cfgL.toNat s.map xs) (ha : s.availBits = xs.flatMap (entryBits s.cfgL.toNat) ++ rest) :
    ∃ t ml, Parsed { s with map := s.map ++ xs, maxLen := ml } (xs.flatMap (entryBits s.cfgL.toNat)).length t ∧
      (s.maxLen.toNat = maxCodeLen s.map → ml.toNat = maxCodeLen (s.map ++ xs)) ∧ t.availBits = rest ∧
      readyStop t.srcReady = readyStop s.srcReady ∧ Runs (startEntry c s) (startEntry c t) := by
  induction xs generalizing s with
  | nil => exact ⟨s, s.maxLen, by simp [Parsed], by simp, by simpa using ha, rfl, Runs.refl _⟩
  | cons x xs ih =>
    have hc' : c = .hdr ∨ c = .dec := by rcases hc with ⟨-, h⟩ | h <;> simp_all
    obtain ⟨hfit, hnew, hroom, hxs⟩ := hx
    rw [List.flatMap_cons, List.append_assoc] at ha
    obtain ⟨t, htp, hta, hs, hr⟩ := parse_entry x c hp hL hm hfit hnew hroom ha
    obtain ⟨_, _, _, _, _, _, _, e⟩ := htp.elim
    have htd : t.hdrDone = false := by rw [e]; exact hd
    have hae : ∀ m l, afterEntry c { t with map := m, maxLen := l } = startEntry c { t with map := m, maxLen := l } := by
      intro m l; rcases hc' with rfl | rfl <;> simp [afterEntry, htd]
    rw [hae] at hr
    obtain ⟨u, ml, hu, huml, hua, hus, hur⟩ := ih
      (s := { t with map := s.map ++ [x], maxLen := if s.maxLen.toNat < x.clen.toNat then x.clen else s.maxLen }) (.inr hc')
      (by rw [e]; exact hp) htd (by rw [e]; exact hL) (by rw [e]; exact hm) (by rw [e]; exact hxs)
      (by rw [e] at hta ⊢; simpa [State.availBits, State.bufBits] using hta)
    refine ⟨u, ml, ?_, ?_, hua, hus.trans hs, hr.trans hur⟩
    · obtain ⟨_, _, _, _, _, _, _, e'⟩ := hu.elim
      rw [e', e]
      simp only [Parsed, List.flatMap_cons, List.length_append, length_entryBits, BitVec.ofNat_add, List.append_assoc,
        List.singleton_append, BitVec.add_assoc]
    · intro hml
      have := huml (by
        simp only [maxCodeLen_append, ← hml]
        split <;> omega)
      simpa using this

/-- A whole header (R110, R208): the parser takes its entries in order and ends at MAP_END. -/
theorem parse_header (xs : List MapEntry) {s : State} (c : Instr) (hc : c = .hdr ∨ c = .dec) {n : Nat} {tail rest : List Bool}
    (hp : s.pend = .none) (hd : s.hdrDone = false) (hL : s.cfgL.toNat ≤ 32) (hl : paramsLegal s.params = true)
    (h2 : s.params.mapEndBytes.length < 2 ^ s.cfgL.toNat) (hn : n ≤ 31) (ht : tail.length = n)
    (hx : mapTakes s.params s.cfgL.toNat s.map xs)
    (ha : s.availBits = headerBits s.params s.cfgL.toNat xs n tail ++ rest) :
    ∃ t ml, Parsed { s with map := s.map ++ xs, maxLen := ml } (headerBits s.params s.cfgL.toNat xs n tail).length t ∧
      (s.maxLen.toNat = maxCodeLen s.map → ml.toNat = maxCodeLen (s.map ++ xs)) ∧ t.availBits = rest ∧
      readyStop t.srcReady = readyStop s.srcReady ∧ Runs (startEntry c s) (headerEnd c t) := by
  have hm : s.params.symBytesMax ≤ 65535 := by simp [paramsLegal] at hl; omega
  obtain ⟨t, ml, htp, hml, hta, hs, hr⟩ := parse_entries xs (.inr hc) hp hd hL hm hx
    (rest := mapEndBits s.params s.cfgL.toNat n tail ++ rest) (by rw [ha, headerBits, List.append_assoc])
  have e1 : t.params = s.params := htp.params_eq
  have e2 : t.cfgL = s.cfgL := htp.cfgL_eq
  have e3 : t.pend = s.pend := htp.pend_eq
  obtain ⟨u, hup, hua, hus, hur⟩ := parse_mapEnd c (s := t) (by rw [e3, hp]) (by rw [e2]; exact hL) (by rw [e1]; exact hl)
    (by rw [e1, e2]; exact h2) hn ht (rest := rest) (by rw [e1, e2]; exact hta)
  rw [e1, e2] at hup
  exact ⟨u, ml, by rw [headerBits, List.length_append]; exact htp.trans hup, hml, hua, hus.trans hs, hr.trans hur⟩

/-! ### Where the bits give out -/

/-- `t` is `s` where the command has come to rest `m` bits on: nothing but the reader, SYMBUF, CUR, PEND, the error registers
and INT_PEND differs. -/
abbrev Dried (s : State) (m : Nat) (t : State) : Prop :=
  t = { s with
    brCnt := t.brCnt, brBuf := t.brBuf, brPos := s.brPos + BitVec.ofNat 32 m, srcStream := t.srcStream,
    srcReady := t.srcReady, srcEnd := t.srcEnd, symBuf := t.symBuf, symBufLen := t.symBufLen, cur := t.cur, pend := t.pend,
    err := t.err, errCause := t.errCause, errInfo := t.errInfo, errPos := t.errPos, intPendErri := t.intPendErri,
    intPendCmdc := t.intPendCmdc }

theorem Dried.elim {s t : State} {m : Nat} (h : Dried s m t) :
    ∃ a1 a2 a3 a4 a5 a6 a7 a8 a9 b1 b2 b3 b4 b5 b6, t = { s with
      brCnt := a1, brBuf := a2, brPos := s.brPos + BitVec.ofNat 32 m, srcStream := a3, srcReady := a4, srcEnd := a5,
      symBuf := a6, symBufLen := a7, cur := a8, pend := a9, err := b1, errCause := b2, errInfo := b3, errPos := b4,
      intPendErri := b5, intPendCmdc := b6 } :=
  ⟨_, _, _, _, _, _, _, _, _, _, _, _, _, _, _, h⟩

/-- From `start`, where it stood in `s` at its last bit, the unit comes to rest `m` bits on for want of a bit (R163, R164,
R88). -/
def DriesUp (start s : State) (k : Cause) (m : Nat) : Prop :=
  ∃ t, Runs start t ∧ t.atRest = true ∧ s.runsDry k t ∧ Dried s m t

/-- Bits parsed before the one that is missing. -/
theorem DriesUp.after {s t start next : State} {k : Cause} {m n : Nat} (ht : Parsed s m t)
    (hs : readyStop t.srcReady = readyStop s.srcReady) (hr : Runs start next) (h : DriesUp next t k n) :
    DriesUp start s k (m + n) := by
  obtain ⟨u, hur, hrest, hdry, hu⟩ := h
  refine ⟨u, hr.trans hur, hrest, ?_, ?_⟩
  · unfold State.runsDry State.sourceEnds at *
    rw [hs] at hdry
    obtain ⟨_, _, _, _, _, _, _, e⟩ := ht.elim
    rw [e] at hdry
    exact hdry
  · obtain ⟨_, _, _, _, _, _, _, e⟩ := ht.elim
    obtain ⟨_, _, _, _, _, _, _, _, _, _, _, _, _, _, _, rfl⟩ := hu.elim
    rw [e]
    simp [Dried, BitVec.ofNat_add, BitVec.add_assoc]

/-- A `ReadBits(n)` call that wants more bits than there are (R161, R163, R164, R88); `k` is what its caller raises when it
gets too few. -/
theorem read_dry (l : List Bool) {s : State} (c : Instr) (n : Nat) (r : ReadFor) (k : Cause) (hp : s.pend = .none)
    (ha : s.availBits = l) (hn : l.length < n)
    (hk : ∀ v t, t.candLen = s.candLen → readReturn c r n l.length v t = raise k t) :
    DriesUp (startRead c n r s) s k l.length := by
  obtain ⟨t, ht, hta, hs, hr⟩ := startRead_upTo l c n r hp ha (by omega)
  obtain ⟨_, _, _, _, e⟩ := ht.elim
  have hse : t.srcEnd = s.srcEnd := by rw [e]
  have hpe : t.pend = .none := by rw [ht.pend_eq, hp]
  have hta' : (goTo c (.read n l.length (l.foldl shiftIn 0) r) t).availBits = [] := by
    simpa [State.availBits, State.bufBits] using hta
  by_cases h1 : s.sourceEnds
  · obtain ⟨l', hl⟩ := read_atEnd (s := goTo c (.read n l.length (l.foldl shiftIn 0) r) t) rfl hpe hn hta'
      (by rcases h1 with h | h
          · exact .inl (hse.trans h)
          · exact .inr (hs.trans h))
    rw [hk _ _ (by rw [e]; rfl)] at hl
    refine ⟨_, hr.trans hl, rfl, ⟨fun _ => ⟨⟨rfl, rfl, rfl, rfl, rfl, rfl, rfl, rfl⟩, rfl⟩, ?_, ?_⟩, ?_⟩
    · intro h2 h3
      rcases h1 with h | h <;> simp_all
    · intro h2 h3
      rcases h1 with h | h <;> simp_all
    · rw [e]; simp [Dried, raise, goTo]
  · have h0 : s.srcEnd = false := by
      cases h : s.srcEnd with
      | false => rfl
      | true => exact absurd (.inl h) h1
    have h0' : (goTo c (.read n l.length (l.foldl shiftIn 0) r) t).srcEnd = false := hse.trans h0
    cases h2 : readyStop s.srcReady with
    | none =>
      obtain ⟨hl, hrest⟩ := read_holds (s := goTo c (.read n l.length (l.foldl shiftIn 0) r) t) rfl hpe hn hta' h0'
        (hs.trans h2)
      refine ⟨_, hr.trans hl, hrest, ⟨fun h => absurd h h1, fun _ h => by simp [h2] at h, fun _ _ => ⟨⟨rfl, hrest⟩, rfl, ?_⟩⟩, ?_⟩
      · rw [e]; exact ⟨rfl, rfl, rfl, rfl⟩
      · rw [e]; simp [Dried, goTo]
    | some a =>
      obtain ⟨-, h3⟩ := readyStop_of_readyBytes_nil ((availBits_nil hta').2 h0') (hs.trans h2)
      rcases h3 with rfl | rfl
      · exact absurd (.inr h2) h1
      · obtain ⟨l', hl⟩ := read_atError (s := goTo c (.read n l.length (l.foldl shiftIn 0) r) t) rfl hpe hn hta' h0'
          (hs.trans h2)
        refine ⟨_, hr.trans hl, rfl, ⟨fun h => absurd h h1, fun _ _ => ⟨⟨rfl, rfl, rfl, rfl, rfl, rfl, rfl, rfl⟩, h0'⟩,
          fun _ h => by simp [h2] at h⟩, ?_⟩
        rw [e]; simp [Dried, raise, goTo]

/-- The bits give out among the symbol bytes, from byte `i` on (R202). -/
theorem bytes_dry (l : List Byte) {s : State} (c : Instr) {n i cut : Nat} (hp : s.pend = .none)
    (hn : n = i + l.length) (ha : s.availBits = (bytesBits l).take cut) (hcut : cut < 8 * l.length) :
    DriesUp (startRead c 8 (.symByte n i) s) s (.hdrTrunc 1) cut := by
  induction l generalizing s i cut with
  | nil => simp at hcut
  | cons b l ih =>
    rw [bytesBits_cons] at ha
    by_cases h8 : cut < 8
    · rw [List.take_append_of_le_length (by simp; omega)] at ha
      have hlen : (List.take cut (byteBits b)).length = cut := by simp; omega
      have := read_dry _ c 8 (.symByte n i) (.hdrTrunc 1) hp ha (by omega)
        (fun v t _ => by rw [readReturn, symByteReturn, if_pos (by omega)])
      rwa [hlen] at this
    · rw [List.take_append, List.take_of_length_le (by simp; omega), length_byteBits] at ha
      obtain ⟨t, v, ht, hsb, hsl, hta, hs, hv, hr⟩ := read_field 8 (byteBits b) c (.symByte n i) hp (by simp) (by omega) ha
      simp only [List.length_cons] at hcut hn
      rw [readReturn, symByteReturn, if_neg (by omega), if_pos (by omega)] at hr
      obtain ⟨_, _, _, _, _, _, _, e⟩ := ht.elim
      have := DriesUp.after (t := { t with symBuf := putSymByte t.symBuf i (v.setWidth 8) }) (m := 8) (s := s)
        (by rw [e]) hs hr (ih (i := i + 1) (cut := cut - 8) (by simp [ht.pend_eq, hp]) (by omega)
          (by simpa [State.availBits, State.bufBits] using hta) (by omega))
      rwa [show 8 + (cut - 8) = cut by omega] at this

/-- The bits give out `cut` bits into an entry (R202). -/
theorem entry_dry (x : MapEntry) {s : State} (c : Instr) {cut : Nat} (hp : s.pend = .none) (hL : s.cfgL.toNat ≤ 32)
    (hm : s.params.symBytesMax ≤ 65535) (h2 : x.sym.length < 2 ^ s.cfgL.toNat)
    (h3 : s.cfgL.toNat ≤ cut → 1 ≤ x.sym.length ∧ x.sym.length ≤ s.params.symBytesMax)
    (h4 : s.cfgL.toNat + 8 * x.sym.length ≤ cut →
      x.sym ≠ s.params.mapEndBytes ∧ (s.params.checkUtf8 = true → wellFormedUtf8 x.sym = true))
    (hcut : cut < (entryBits s.cfgL.toNat x).length) (ha : s.availBits = (entryBits s.cfgL.toNat x).take cut) :
    DriesUp (startEntry c s) s
      (.hdrTrunc
        (if cut < s.cfgL.toNat then 0
        else if cut < s.cfgL.toNat + 8 * x.sym.length then 1
        else if cut < s.cfgL.toNat + 8 * x.sym.length + 5 then 2
        else 3)) cut := by
  have hbl : (bytesBits x.sym).length = 8 * x.sym.length := by simp [bytesBits, Nat.mul_comm]
  rw [length_entryBits] at hcut
  have ha' : s.availBits =
      (bitsOf s.cfgL.toNat x.sym.length ++ (bytesBits x.sym ++ (bitsOf 5 x.clen.toNat ++ codeBits x))).take cut := by
    rw [ha]; simp [entryBits]
  clear ha
  by_cases hA : cut < s.cfgL.toNat
  · rw [List.take_append_of_le_length (by simp; omega)] at ha'
    have hl : (List.take cut (bitsOf s.cfgL.toNat x.sym.length)).length = cut := by simp; omega
    have := read_dry _ c s.cfgL.toNat .symLen (.hdrTrunc 0) hp ha' (by omega)
      (fun v t _ => by rw [readReturn, symLenReturn, if_pos (by omega)])
    rw [hl] at this
    rw [if_pos hA]
    exact this
  obtain ⟨h5, h6⟩ := h3 (by omega)
  rw [if_neg hA]
  rw [List.take_append, List.take_of_length_le (by simp; omega), length_bitsOf] at ha'
  by_cases hB : cut < s.cfgL.toNat + 8 * x.sym.length
  · rw [if_pos hB]
    obtain ⟨t, v, ht, -, -, hta, hs, hv, hr⟩ := read_field s.cfgL.toNat (bitsOf s.cfgL.toNat x.sym.length) c .symLen hp
      (by simp) hL ha'
    rw [bitsVal_bitsOf_of_lt h2] at hv
    rw [readReturn, symLenReturn, if_neg (by omega), hv, if_neg (by omega), if_neg (by rw [ht.params_eq]; omega)] at hr
    rw [List.take_append_of_le_length (by omega)] at hta
    have := DriesUp.after ht hs hr (bytes_dry x.sym (s := t) c (n := x.sym.length) (i := 0) (by rw [ht.pend_eq, hp]) (by omega)
      hta (by omega))
    rwa [show s.cfgL.toNat + (cut - s.cfgL.toNat) = cut by omega] at this
  obtain ⟨h7, h8⟩ := h4 (by omega)
  rw [if_neg hB]
  rw [List.take_append, List.take_of_length_le (by omega), hbl] at ha'
  obtain ⟨t, ht, hts, hta, hs, hr⟩ := parse_symbol x.sym c hp hL h5 h2 h6 hm ha'
  have hu8 : (t.params.checkUtf8 && !wellFormedUtf8 (parsedSym t)) = false := by
    rw [hts, ht.params_eq]
    cases hc : s.params.checkUtf8 with
    | false => rfl
    | true => simp [h8 hc]
  rw [afterSymbol, hu8, if_neg (by simp), hts, if_neg (by rw [ht.params_eq]; exact h7)] at hr
  by_cases hC : cut < s.cfgL.toNat + 8 * x.sym.length + 5
  · rw [if_pos hC]
    rw [List.take_append_of_le_length (by simp; omega)] at hta
    have hl : (List.take (cut - s.cfgL.toNat - 8 * x.sym.length) (bitsOf 5 x.clen.toNat)).length =
        cut - s.cfgL.toNat - 8 * x.sym.length := by simp; omega
    have := read_dry _ c 5 .clen (.hdrTrunc 2) (by rw [ht.pend_eq, hp]) hta (by omega)
      (fun v t _ => by rw [readReturn, clenReturn, if_pos (by omega)])
    have := DriesUp.after ht hs hr this
    rwa [hl, show s.cfgL.toNat + 8 * x.sym.length + (cut - s.cfgL.toNat - 8 * x.sym.length) = cut by omega] at this
  rw [if_neg hC]
  rw [List.take_append, List.take_of_length_le (by simp; omega), length_bitsOf] at hta
  obtain ⟨u, v, hu, hub, hul, hua, hus, huv, hur⟩ := read_field 5 (bitsOf 5 x.clen.toNat) c .clen
    (by rw [ht.pend_eq, hp]) (by simp) (by omega) hta
  rw [bitsVal_bitsOf_of_lt x.clen.isLt] at huv
  rw [readReturn, clenReturn, if_neg (by omega), huv, if_neg (by omega)] at hur
  have hl : (List.take (cut - s.cfgL.toNat - 8 * x.sym.length - 5) (codeBits x)).length =
      cut - s.cfgL.toNat - 8 * x.sym.length - 5 := by simp [codeBits]; omega
  have := read_dry _ c x.clen.toNat .code (.hdrTrunc 3) (by rw [hu.pend_eq, ht.pend_eq, hp]) hua (by omega)
    (fun v t _ => by rw [readReturn, codeReturn, if_pos (by omega)])
  have := DriesUp.after (ht.trans hu) (hus.trans hs) (hr.trans hur) this
  rwa [hl, show s.cfgL.toNat + 8 * x.sym.length + 5 + (cut - s.cfgL.toNat - 8 * x.sym.length - 5) = cut by omega] at this

end Sys2Proof.Machine
end

