-- ==== Sys2Proof/Laws/Body.lean ====
section
/-! SUPPORT. Match on a candidate (R55), one BodyStep (R230), Emit (R231), and the bits of one symbol
(R234). -/

namespace Sys2Proof.Machine

/-! ### Bit sequences are equal when their lengths and values are -/

theorem bitsOf_inj {k v w : Nat} (hv : v < 2 ^ k) (hw : w < 2 ^ k) (h : bitsOf k v = bitsOf k w) : v = w := by
  have := congrArg bitsVal h
  rwa [bitsVal_bitsOf_of_lt hv, bitsVal_bitsOf_of_lt hw] at this

theorem bitsVal_inj {l m : List Bool} (hl : l.length = m.length) (h : bitsVal l = bitsVal m) : l = m := by
  induction l generalizing m with
  | nil => exact (List.eq_nil_of_length_eq_zero hl.symm).symm
  | cons b l ih =>
    match m, hl with
    | c :: m, hl =>
      simp only [List.length_cons, Nat.add_right_cancel_iff] at hl
      rw [bitsVal_cons, bitsVal_cons, hl] at h
      have h1 := bitsVal_lt l
      have h2 := bitsVal_lt m
      rw [hl] at h1
      have hbc : b = c := by
        cases b <;> cases c <;> first | rfl | (simp at h; omega)
      subst hbc
      rw [ih hl (by omega)]

/-- The candidate after one more bit (R13, R230). -/
theorem bitsOf_shiftIn {k : Nat} {v : Word} (b : Bool) (hk : k < 32) (hv : v.toNat < 2 ^ k) :
    bitsOf (k + 1) (shiftIn v b).toNat = bitsOf k v.toNat ++ [b] ∧ (shiftIn v b).toNat < 2 ^ (k + 1) := by
  have h1 : (shiftIn v b).toNat = 2 * v.toNat + b.toNat := by
    rw [toNat_shiftIn, Nat.mod_eq_of_lt]
    have : 2 ^ (k + 1) ≤ 2 ^ 32 := Nat.pow_le_pow_right (by omega) (by omega)
    rw [Nat.pow_succ] at this
    cases b <;> simp <;> omega
  have h2 : (shiftIn v b).toNat < 2 ^ (k + 1) := by rw [h1, Nat.pow_succ]; cases b <;> simp <;> omega
  refine ⟨bitsVal_inj (by simp) ?_, h2⟩
  rw [bitsVal_bitsOf_of_lt h2, bitsVal_append, bitsVal_bitsOf_of_lt hv, h1]
  cases b <;> simp [bitsVal, Nat.mul_comm]

/-! ### Match -/

/-- What Match needs of the map (R54, R55, R206). -/
structure MapOk (s : State) : Prop where
  entries : ∀ x ∈ s.map, 1 ≤ x.clen.toNat ∧ x.code.toNat < 2 ^ x.clen.toNat
  codes : s.map.Pairwise (fun x y => ¬(x.clen = y.clen ∧ x.code = y.code))
  maxLen : s.maxLen.toNat = maxCodeLen s.map

theorem Inv.mapOk {s : State} (h : Inv s) : MapOk s :=
  ⟨fun x hx => ⟨(h.entries x hx).1, (h.entries x hx).2.1⟩, h.codes, h.maxLen⟩

theorem le_maxCodeLen {m : List MapEntry} {x : MapEntry} (h : x ∈ m) : x.clen.toNat ≤ maxCodeLen m := by
  suffices H : ∀ (m : List MapEntry) (a : Nat), a ≤ m.foldl (fun a x => max a x.clen.toNat) a ∧
      ∀ x ∈ m, x.clen.toNat ≤ m.foldl (fun a x => max a x.clen.toNat) a from (H m 0).2 x h
  intro m
  induction m with
  | nil => simp
  | cons y m ih =>
    intro a
    have h1 := (ih (max a y.clen.toNat)).1
    refine ⟨by simp only [List.foldl_cons]; omega, ?_⟩
    intro x hx
    rcases List.mem_cons.1 hx with rfl | hx
    · simp only [List.foldl_cons]; omega
    · exact (ih _).2 x hx

/-- An entry matches a candidate exactly when its code is that sequence (R55). -/
theorem matches_iff {x : MapEntry} {k : Nat} {v : Word} (hx : x.code.toNat < 2 ^ x.clen.toNat) (hv : v.toNat < 2 ^ k) :
    (x.clen.toNat == k && x.code.setWidth 32 == v) = true ↔ codeBits x = bitsOf k v.toNat := by
  have hc : (x.code.setWidth 32).toNat = x.code.toNat := by
    rw [BitVec.toNat_setWidth]; have := x.code.isLt; omega
  simp only [Bool.and_eq_true, beq_iff_eq]
  constructor
  · rintro ⟨rfl, rfl⟩; rw [hc, codeBits]
  · intro h
    have hk : x.clen.toNat = k := by simpa [codeBits] using congrArg List.length h
    subst hk
    exact ⟨rfl, BitVec.eq_of_toNat_eq (by rw [hc]; exact bitsOf_inj hx hv h)⟩

theorem matchCode_eq_some {s : State} (hm : MapOk s) {k e : Nat} {v : Word} {x : MapEntry} (hx : s.map[e]? = some x)
    (hv : v.toNat < 2 ^ k) (hcode : codeBits x = bitsOf k v.toNat) : matchCode s.map k v = some e := by
  obtain ⟨he, rfl⟩ := List.getElem?_eq_some_iff.1 hx
  rw [matchCode, List.findIdx?_eq_some_iff_getElem]
  refine ⟨he, (matches_iff (hm.entries _ (List.getElem_mem he)).2 hv).2 hcode, ?_⟩
  intro j hj hmatch
  have hjl : j < s.map.length := by omega
  have h1 := (matches_iff (hm.entries _ (List.getElem_mem hjl)).2 hv).1 hmatch
  have hpair := List.pairwise_iff_getElem.1 hm.codes j e hjl he hj
  apply hpair
  have h2 : codeBits s.map[j] = codeBits s.map[e] := h1.trans hcode.symm
  have hlen : (s.map[j]).clen.toNat = (s.map[e]).clen.toNat := by simpa [codeBits] using congrArg List.length h2
  refine ⟨BitVec.eq_of_toNat_eq hlen, BitVec.eq_of_toNat_eq ?_⟩
  have e1 := (hm.entries _ (List.getElem_mem hjl)).2
  have e2 := (hm.entries _ (List.getElem_mem he)).2
  rw [codeBits, codeBits, hlen] at h2
  rw [hlen] at e1
  exact bitsOf_inj e1 e2 h2

theorem matchCode_eq_none {s : State} (hm : MapOk s) {k : Nat} {v : Word} (hv : v.toNat < 2 ^ k)
    (h : ∀ x ∈ s.map, codeBits x ≠ bitsOf k v.toNat) : matchCode s.map k v = none := by
  rw [matchCode, List.findIdx?_eq_none_iff]
  intro x hx
  have := mt (matches_iff (hm.entries x hx).2 hv).1 (h x hx)
  simpa using this

/-! ### BodyStep -/

/-- `t` is `s` after body bits have been read: nothing but the reader, the candidate and CUR differs (R230). -/
abbrev Stepped (s : State) (m : Nat) (t : State) : Prop :=
  t = { s with
    brCnt := t.brCnt, brBuf := t.brBuf, brPos := s.brPos + BitVec.ofNat 32 m, srcStream := t.srcStream,
    srcReady := t.srcReady, cand := t.cand, candLen := t.candLen, cur := t.cur }

theorem Stepped.elim {s t : State} {m : Nat} (h : Stepped s m t) :
    ∃ cnt buf str rdy cd cl cur, t = { s with
      brCnt := cnt, brBuf := buf, brPos := s.brPos + BitVec.ofNat 32 m, srcStream := str, srcReady := rdy,
      cand := cd, candLen := cl, cur := cur } :=
  ⟨_, _, _, _, _, _, _, h⟩

theorem Stepped.trans {s t u : State} {m n : Nat} (h : Stepped s m t) (h' : Stepped t n u) : Stepped s (m + n) u := by
  obtain ⟨_, _, _, _, _, _, _, rfl⟩ := h.elim
  obtain ⟨_, _, _, _, _, _, _, rfl⟩ := h'.elim
  simp [Stepped, BitVec.ofNat_add, BitVec.add_assoc]

/-- The candidate is a sequence no longer than the longest code (R50, R238). -/
def candOk (s : State) : Prop := s.candLen.toNat ≤ s.maxLen.toNat ∧ s.cand.toNat < 2 ^ s.candLen.toNat

theorem Inv.candOk {s : State} (h : Inv s) (he : s.err = false) : candOk s := ⟨h.candShort he, h.candBound.2⟩

/-- One body bit is read and shifted into the candidate (R230). -/
theorem bodyStep_shift {s : State} (c : Instr) {b : Bool} {rest : List Bool} (hp : s.pend = .none) (hc : candOk s)
    (ha : s.availBits = b :: rest) :
    ∃ t, Stepped s 1 t ∧ t.availBits = rest ∧ readyStop t.srcReady = readyStop s.srcReady ∧
      t.candBits = s.candBits ++ [b] ∧ t.candLen.toNat = s.candLen.toNat + 1 ∧ t.cand.toNat < 2 ^ t.candLen.toNat ∧
      Runs (startBodyStep c s)
        (match matchCode s.map t.candLen.toNat t.cand with | some e => bodyMatch c e t | none => bodyNoMatchYet c t) := by
  obtain ⟨t, v, ht, hsb, hsl, hta, hs, hv, hr⟩ := read_field 1 [b] c .bodyBit hp rfl (by omega) ha
  obtain ⟨_, _, _, _, _, _, _, e⟩ := ht.elim
  have hb : v.getLsbD 0 = b := by
    have : v = BitVec.ofNat 32 b.toNat := BitVec.eq_of_toNat_eq (by rw [hv]; cases b <;> rfl)
    rw [this]; cases b <;> rfl
  have hml := s.maxLen.isLt
  have hcl : (s.candLen + 1).toNat = s.candLen.toNat + 1 := by have := hc.1; bv_omega
  have hsh := bitsOf_shiftIn (k := s.candLen.toNat) (v := s.cand) b (by have := hc.1; omega) hc.2
  rw [readReturn, bodyBitReturn, if_neg (by omega), hb] at hr
  have e1 : t.cand = s.cand := by rw [e]
  have e2 : t.candLen = s.candLen := by rw [e]
  have e3 : t.map = s.map := by rw [e]
  rw [e1, e2] at hr
  refine ⟨{ t with cand := shiftIn s.cand b, candLen := s.candLen + 1 }, ?_, ?_, hs, ?_, hcl, ?_, ?_⟩
  · have hsb' : t.symBuf = s.symBuf := hsb
    have hsl' : t.symBufLen = s.symBufLen := hsl
    rw [e] at hsb' hsl' ⊢
    simp only at hsb' hsl'
    simp [Stepped, hsb', hsl']
  · simpa [State.availBits, State.bufBits] using hta
  · simp only [State.candBits, hcl, hsh.1]
  · simp only [hcl]; exact hsh.2
  · rw [← e3]; exact hr

/-- A bit that completes the code of entry `e` (R230). -/
theorem bodyStep_match {s : State} (c : Instr) {b : Bool} {rest : List Bool} {e : Nat} {x : MapEntry} (hp : s.pend = .none)
    (hm : MapOk s) (hc : candOk s) (hx : s.map[e]? = some x) (hcode : codeBits x = s.candBits ++ [b])
    (ha : s.availBits = b :: rest) :
    ∃ t, Stepped s 1 t ∧ t.availBits = rest ∧ readyStop t.srcReady = readyStop s.srcReady ∧
      Runs (startBodyStep c s) (bodyMatch c e t) := by
  obtain ⟨t, ht, hta, hs, hcb, hcl, hlt, hr⟩ := bodyStep_shift c hp hc ha
  rw [matchCode_eq_some hm hx hlt (by rw [hcode, ← hcb]; rfl)] at hr
  exact ⟨t, ht, hta, hs, hr⟩

/-- A bit after which the candidate is no code (R230). -/
theorem bodyStep_noMatch {s : State} (c : Instr) {b : Bool} {rest : List Bool} (hp : s.pend = .none)
    (hm : MapOk s) (hc : candOk s) (hno : ∀ x ∈ s.map, codeBits x ≠ s.candBits ++ [b]) (ha : s.availBits = b :: rest) :
    ∃ t, Stepped s 1 t ∧ t.availBits = rest ∧ readyStop t.srcReady = readyStop s.srcReady ∧
      t.candBits = s.candBits ++ [b] ∧ t.candLen.toNat = s.candLen.toNat + 1 ∧ t.cand.toNat < 2 ^ t.candLen.toNat ∧
      Runs (startBodyStep c s) (bodyNoMatchYet c t) := by
  obtain ⟨t, ht, hta, hs, hcb, hcl, hlt, hr⟩ := bodyStep_shift c hp hc ha
  rw [matchCode_eq_none hm hlt (by rw [← hcb] at hno; exact hno)] at hr
  exact ⟨t, ht, hta, hs, hcb, hcl, hlt, hr⟩

/-- `Emit(e)` where the host takes every byte (R231): the symbol goes out from byte `i` on, and is counted (R230). -/
theorem emit_runs (n : Nat) {s : State} (c : Instr) {e i : Nat} {l : List SinkAnswer} (hp : s.pend = .none)
    (hn : i + n = (entrySym s.map e).length) (ha : s.outReady = List.replicate n .ack ++ l) :
    Runs (goTo c (.emit e i) s)
      (afterBodyStep c true
        { s with
          cur := some { instr := c, pos := .emit e (i + n) }
          outStream := s.outStream ++ (entrySym s.map e).drop i
          outReady := l
          symCount := s.symCount + 1 }) := by
  induction n generalizing s i with
  | zero =>
    have h1 : (entrySym s.map e)[i]? = none := by rw [List.getElem?_eq_none_iff]; omega
    have h2 : (entrySym s.map e).drop i = [] := by rw [List.drop_eq_nil_iff]; omega
    refine Runs.op_eq ?_ (Runs.refl _)
    simp only [List.replicate_zero, List.nil_append] at ha
    simp [unitOp, hp, posOp, emitOp, h1, h2, goTo, ← ha]
  | succ n ih =>
    have hlt : i < (entrySym s.map e).length := by omega
    have h1 : (entrySym s.map e)[i]? = some (entrySym s.map e)[i] := List.getElem?_eq_getElem hlt
    have h2 : (entrySym s.map e).drop i = (entrySym s.map e)[i] :: (entrySym s.map e).drop (i + 1) :=
      List.drop_eq_getElem_cons hlt
    have hr := ih (i := i + 1)
      (s := { s with
        outStream := s.outStream ++ [(entrySym s.map e)[i]]
        outReady := List.replicate n .ack ++ l }) hp (by simp only; omega) rfl
    refine Runs.op_eq (u := { goTo c (.emit e (i + 1)) s with pend := .out (entrySym s.map e)[i] })
      (by simp [unitOp, hp, posOp, emitOp, h1, goTo]) ?_
    refine Runs.op_eq ?_ (by
      have h3 : i + 1 + n = i + (n + 1) := by omega
      rw [h3] at hr
      rw [h2, List.append_cons]
      exact hr)
    simp [unitOp, ha, List.replicate_succ, answerOut, goTo, hp]

theorem matchedFirst.mono {m : List MapEntry} {k l : Nat} {x : MapEntry} (h : matchedFirst m k x) (hkl : k ≤ l) :
    matchedFirst m l x :=
  fun y hy hl hp => h y hy (by omega) hp

/-- In a prefix-free map every code is matched first (R239). -/
theorem codesPrefixFree.matchedFirst {m : List MapEntry} (h : codesPrefixFree m) {x : MapEntry} (hx : x ∈ m) (k : Nat) :
    matchedFirst m k x := by
  intro y hy _ hp
  obtain ⟨i, hi, rfl⟩ := List.mem_iff_getElem.1 hy
  obtain ⟨j, hj, rfl⟩ := List.mem_iff_getElem.1 hx
  have := h i j _ _ (List.getElem?_eq_getElem hi) (List.getElem?_eq_getElem hj) hp
  subst this
  rfl

/-- Any entries of a prefix-free map are matched in turn, if their codes are not empty (R205, R239). -/
theorem codesPrefixFree.matchedInTurn {m : List MapEntry} (h : codesPrefixFree m) (xs : List MapEntry) {k : Nat}
    (hx : ∀ x ∈ xs, x ∈ m ∧ 1 ≤ x.clen.toNat) (hk : ∀ x, xs.head? = some x → k < x.clen.toNat) :
    matchedInTurn m k xs := by
  induction xs generalizing k with
  | nil => trivial
  | cons x xs ih =>
    refine ⟨hk x rfl, h.matchedFirst (hx x (by simp)).1 k, ih (fun y hy => hx y (by simp [hy])) ?_⟩
    exact fun y hy => (hx y (List.mem_cons_of_mem _ (List.mem_of_mem_head? hy))).2

/-- The bits of a code that is matched first lead to its match and to no other (R230, R234). -/
theorem body_symbol {s : State} (c : Instr) (hc : c = .bsym ∨ c = .body ∨ c = .dec) {e : Nat} {x : MapEntry}
    {rest : List Bool} (hp : s.pend = .none) (hd : s.done = false) (hm : MapOk s) (hco : candOk s)
    (hf : matchedFirst s.map s.candLen.toNat x) (hx : s.map[e]? = some x) (hlt : s.candLen.toNat < x.clen.toNat)
    (hb : s.candBits ++ s.availBits = codeBits x ++ rest) :
    ∃ t, Stepped s (x.clen.toNat - s.candLen.toNat) t ∧ t.availBits = rest ∧
      readyStop t.srcReady = readyStop s.srcReady ∧ Runs (startBodyStep c s) (bodyMatch c e t) := by
  generalize hk : x.clen.toNat - s.candLen.toNat = k
  induction k generalizing s with
  | zero => omega
  | succ k ih =>
    have hlc : s.candBits.length = s.candLen.toNat := by simp [State.candBits]
    have hlx : (codeBits x).length = x.clen.toNat := by simp [codeBits]
    match ha : s.availBits with
    | [] =>
      have := congrArg List.length hb
      rw [ha] at this
      simp [hlc, hlx] at this
      omega
    | b :: av =>
      rw [ha, List.append_cons] at hb
      by_cases hlast : s.candLen.toNat + 1 = x.clen.toNat
      · obtain ⟨h1, h2⟩ := List.append_inj hb (by simp [hlc, hlx, hlast])
        obtain ⟨t, ht, hta, hs, hr⟩ := bodyStep_match c hp hm hco hx h1.symm ha
        have : k = 0 := by omega
        subst this
        exact ⟨t, ht, hta.trans h2, hs, hr⟩
      · have hpre : s.candBits ++ [b] <+: codeBits x := by
          refine List.prefix_of_prefix_length_le (l₃ := codeBits x ++ rest) ⟨av, hb⟩ (List.prefix_append _ _) ?_
          simp [hlc, hlx]; omega
        have hno : ∀ y ∈ s.map, codeBits y ≠ s.candBits ++ [b] := by
          intro y hy hyc
          have h1 := congrArg List.length hyc
          simp only [codeBits, length_bitsOf, List.length_append, hlc, List.length_singleton] at h1
          have h2 := congrArg List.length (hf y hy (by omega) (by rw [hyc]; exact hpre))
          rw [hyc, hlx] at h2
          simp [hlc] at h2
          omega
        obtain ⟨t, ht, hta, hs, hcb, hcl, hcv, hr⟩ := bodyStep_noMatch c hp hm hco hno ha
        obtain ⟨_, _, _, _, _, _, _, he⟩ := ht.elim
        have e1 : t.map = s.map := by rw [he]
        have e2 : t.maxLen = s.maxLen := by rw [he]
        have e3 : t.done = false := by rw [he]; exact hd
        have e4 : t.pend = .none := by rw [he]; exact hp
        have hmax : x.clen.toNat ≤ s.maxLen.toNat := by
          rw [hm.maxLen]; exact le_maxCodeLen (List.mem_of_getElem? hx)
        have hnext : bodyNoMatchYet c t = startBodyStep c t := by
          rw [bodyNoMatchYet, if_neg (by rw [e2]; omega)]
          rcases hc with rfl | rfl | rfl <;> simp [afterBodyStep, bodyLoop, e3]
        rw [hnext] at hr
        obtain ⟨u, hu, hua, hus, hur⟩ := ih (s := t) e4 e3 ⟨by rw [e1]; exact hm.entries, by rw [e1]; exact hm.codes,
          by rw [e1, e2]; exact hm.maxLen⟩ ⟨by rw [e2]; omega, hcv⟩ (by rw [e1]; exact hf.mono (by omega)) (by rw [e1]; exact hx) (by omega)
          (by rw [hcb, hta]; exact hb) (by omega)
        refine ⟨u, ?_, hua, hus.trans hs, hr.trans hur⟩
        have := ht.trans hu
        rwa [Nat.add_comm] at this

/-- A match of an entry that is not EOF: its symbol goes out and is counted (R230, R231). -/
theorem bodyMatch_emit {s : State} (c : Instr) {e : Nat} {x : MapEntry} {l : List SinkAnswer} (hp : s.pend = .none)
    (hx : s.map[e]? = some x) (hne : x.sym ≠ s.params.eofBytes) (ha : s.acksOut x.sym.length l) :
    ∃ cur, Runs (bodyMatch c e s)
      (afterBodyStep c true
        { s with
          lastSymV := true
          lastSymIdx := BitVec.ofNat 16 e
          cand := 0
          candLen := 0
          cur := cur
          outStream := s.outStream ++ x.sym
          outReady := l
          symCount := s.symCount + 1 }) := by
  have hsym : entrySym s.map e = x.sym := by simp [entrySym, hx]
  have hbm : bodyMatch c e s = goTo c (.emit e 0)
      { s with lastSymV := true, lastSymIdx := BitVec.ofNat 16 e, cand := 0, candLen := 0 } := by
    simp [bodyMatch, hsym, hne]
  have hr := emit_runs x.sym.length (i := 0) (e := e) (l := l)
    (s := { s with lastSymV := true, lastSymIdx := BitVec.ofNat 16 e, cand := 0, candLen := 0 }) c hp (by simp [hsym]) ha
  simp only [hsym, List.drop_zero] at hr
  exact ⟨_, by rw [hbm]; exact hr⟩

/-- A match of the EOF entry: DONE, and nothing is sent (R232). -/
theorem bodyMatch_eof {s : State} (c : Instr) {e : Nat} {x : MapEntry} (hx : s.map[e]? = some x)
    (heof : x.sym = s.params.eofBytes) :
    bodyMatch c e s = afterBodyStep c true
      { s with lastSymV := true, lastSymIdx := BitVec.ofNat 16 e, cand := 0, candLen := 0, done := true } := by
  have hsym : entrySym s.map e = x.sym := by simp [entrySym, hx]
  simp [bodyMatch, hsym, heof]

end Sys2Proof.Machine
end

