-- ==== Sys2Proof/Laws/Writer.lean ====
section
/-! SUPPORT. Bits of a byte, and what `WriteBits` does when the host takes its bytes (R181, R183). -/

namespace Sys2Proof.Machine

/-- Bit `i` of a byte in stream order. -/
theorem getElem_byteBits (b : Byte) (i : Nat) (h : i < (byteBits b).length) : (byteBits b)[i] = b.getLsbD (7 - i) := by
  have h8 : i < 8 := by simpa using h
  unfold byteBits at *
  interval_cases i <;> rfl

theorem getLsbD_placeBit (a : Byte) (k : Nat) (b : Bool) (hk : k < 8) (j : Nat) :
    (placeBit a k b).getLsbD j = if j = 7 - k then b else a.getLsbD j := by
  unfold placeBit
  by_cases hj : j < 8
  · have hk' : 7 - k < 8 := by omega
    generalize 7 - k = m at *
    simp only [BitVec.getLsbD_or, BitVec.getLsbD_and, BitVec.getLsbD_not, BitVec.getLsbD_shiftLeft, BitVec.getLsbD_setWidth,
      BitVec.getLsbD_ofBool, BitVec.getLsbD_one]
    by_cases hjm : j = m
    · subst hjm; simp [hj]
    · by_cases h' : j < m
      · simp [hjm, h', hj]
      · have : ¬ (j - m = 0) := by omega
        simp [hjm, this, hj]
  · rw [if_neg (by omega), BitVec.getLsbD_of_ge _ _ (by omega), BitVec.getLsbD_of_ge _ _ (by omega)]

/-- Placing a bit appends it to the accumulated bits (R47, R181). -/
theorem take_placeBit (a : Byte) (k : Nat) (b : Bool) (hk : k < 8) :
    (byteBits (placeBit a k b)).take (k + 1) = (byteBits a).take k ++ [b] := by
  apply List.ext_getElem
  · simp; omega
  · intro i h1 h2
    have hi : i < k + 1 := by simp at h1; omega
    rw [List.getElem_take, getElem_byteBits, getLsbD_placeBit _ _ _ hk]
    by_cases hik : i = k
    · subst hik
      rw [List.getElem_append_right (by simp), if_pos rfl]
      simp
    · rw [List.getElem_append_left (by simp; omega), List.getElem_take, getElem_byteBits, if_neg (by omega)]

/-- `t` is `s` after BW has taken bits and sent bytes; nothing but the writer's own state differs (R180). -/
abbrev Written (s t : State) : Prop :=
  t = { s with
    bwCnt := t.bwCnt, bwAcc := t.bwAcc, bwPos := t.bwPos, woutStream := t.woutStream, woutReady := t.woutReady }

theorem Written.elim {s t : State} (h : Written s t) :
    ∃ cnt acc pos str rdy, t = { s with bwCnt := cnt, bwAcc := acc, bwPos := pos, woutStream := str, woutReady := rdy } :=
  ⟨_, _, _, _, _, h⟩

theorem Written.trans {s t u : State} (h : Written s t) (h' : Written t u) : Written s u := by
  obtain ⟨_, _, _, _, _, rfl⟩ := h.elim
  obtain ⟨_, _, _, _, _, rfl⟩ := h'.elim
  simp [Written]

theorem toNat_succ_of_lt {x : BitVec 4} (h : x.toNat < 8) : (x + 1).toNat = x.toNat + 1 := by bv_omega

/-- One bit is written, and the byte goes out if it is full (R181, R183). -/
theorem write_bit {s : State} {c : Instr} {n i : Nat} (hc : s.cur = some { instr := c, pos := .write n i })
    (hp : s.pend = .none) (hi : i < n) (hcnt : s.bwCnt.toNat ≤ 7) (ha : s.acksWout ((s.bwCnt.toNat + 1) / 8)) :
    ∃ t, Written s t ∧ t.writtenBits = s.writtenBits ++ [writeBit n i s.wdata] ∧
      t.woutStream.length = s.woutStream.length + (s.bwCnt.toNat + 1) / 8 ∧ t.bwCnt.toNat = (s.bwCnt.toNat + 1) % 8 ∧
      t.bwPos = s.bwPos + 1 ∧ t.woutReady = s.woutReady.drop ((s.bwCnt.toNat + 1) / 8) ∧
      Runs s (goTo c (.write n (i + 1)) t) := by
  have hs := toNat_succ_of_lt (x := s.bwCnt) (by omega)
  have hacc := take_placeBit s.bwAcc s.bwCnt.toNat (writeBit n i s.wdata) (by omega)
  by_cases h8 : s.bwCnt.toNat = 7
  · have h1 : (s.bwCnt.toNat + 1) / 8 = 1 := by omega
    rw [h1] at ha ⊢
    have h9 : s.bwCnt + 1#4 = 8#4 := BitVec.eq_of_toNat_eq (hs.trans (by rw [h8]; rfl))
    obtain ⟨l, hl⟩ : ∃ l, s.woutReady = .ack :: l := by
      unfold State.acksWout at ha
      match hw : s.woutReady, ha with
      | x :: l, ha => simp at ha; exact ⟨l, by rw [← ha]⟩
      | [], ha => simp at ha
    refine ⟨{ s with
      bwCnt := 0, bwAcc := 0, bwPos := s.bwPos + 1, woutReady := l,
      woutStream := s.woutStream ++ [placeBit s.bwAcc s.bwCnt.toNat (writeBit n i s.wdata)] },
      ?_, ?_, ?_, ?_, rfl, by simp [hl], ?_⟩
    · simp [Written]
    · rw [h8] at hacc ⊢
      rw [List.take_of_length_le (by simp)] at hacc
      simp [State.writtenBits, State.accBits, bytesBits, hacc, h8]
    · simp
    · simp [h8]
    · refine Runs.op_eq (u := { goTo c (.write n (i + 1)) (putBit (writeBit n i s.wdata) s) with pend := .wout (placeBit s.bwAcc s.bwCnt.toNat (writeBit n i s.wdata)) })
        (by simp [unitOp, hc, hp, posOp, writeOp, hi, putBit, h9, goTo]) ?_
      exact Runs.op_eq (by simp [unitOp, hl, answerWout, putBit, goTo, hp]) (Runs.refl _)
  · have h1 : (s.bwCnt.toNat + 1) / 8 = 0 := by omega
    have h9 : s.bwCnt + 1#4 ≠ 8#4 := fun h => by have h' := hs; rw [show s.bwCnt + 1 = s.bwCnt + 1#4 from rfl, h] at h'; simp at h'; omega
    refine ⟨putBit (writeBit n i s.wdata) s, by simp [Written, putBit], ?_, by simp [h1], by simp only [putBit, hs]; omega, rfl, by simp [h1], ?_⟩
    · simp only [State.writtenBits, State.accBits, putBit, hs, hacc, List.append_assoc]
    · exact Runs.op_eq (by simp [unitOp, hc, hp, posOp, writeOp, hi, putBit, h9, goTo]) (Runs.refl _)

theorem acksWout_drop {s t : State} {j k : Nat} (h : s.acksWout (j + k)) (ht : t.woutReady = s.woutReady.drop j) :
    t.acksWout k := by
  unfold State.acksWout at *
  rw [List.isPrefixOf_iff_prefix] at *
  obtain ⟨l, hl⟩ := h
  refine ⟨l, ?_⟩
  rw [ht, ← hl, List.replicate_add, List.append_assoc, List.drop_append_of_le_length (by simp)]
  simp

theorem acksWout_le {s : State} {j k : Nat} (h : s.acksWout k) (hj : j ≤ k) : s.acksWout j := by
  unfold State.acksWout at *
  rw [List.isPrefixOf_iff_prefix] at *
  refine List.IsPrefix.trans ⟨List.replicate (k - j) .ack, ?_⟩ h
  rw [← List.replicate_add]; congr 1; omega

/-- Bits `i` to `i + m - 1` of a WR. -/
theorem write_upTo (m : Nat) {s : State} {c : Instr} {n i : Nat} (hc : s.cur = some { instr := c, pos := .write n i })
    (hp : s.pend = .none) (hn : i + m ≤ n) (hcnt : s.bwCnt.toNat ≤ 7) (ha : s.acksWout ((s.bwCnt.toNat + m) / 8)) :
    ∃ t, Written s t ∧ t.writtenBits = s.writtenBits ++ (bitsOf (n - i) s.wdata.toNat).take m ∧
      t.woutStream.length = s.woutStream.length + (s.bwCnt.toNat + m) / 8 ∧ t.bwCnt.toNat = (s.bwCnt.toNat + m) % 8 ∧
      t.bwPos = s.bwPos + BitVec.ofNat 32 m ∧ t.woutReady = s.woutReady.drop ((s.bwCnt.toNat + m) / 8) ∧
      Runs s (goTo c (.write n (i + m)) t) := by
  induction m generalizing s i with
  | zero =>
    refine ⟨s, by simp [Written], by simp, by simp; omega, by omega, by simp,
      by rw [show (s.bwCnt.toNat + 0) / 8 = 0 by omega, List.drop_zero], ?_⟩
    have : goTo c (.write n (i + 0)) s = s := by simp only [Nat.add_zero, goTo, ← hc]
    rw [this]; exact Runs.refl s
  | succ m ih =>
    obtain ⟨t, ht, hb, hl, hk, hpos, hrdy, hr⟩ := write_bit hc hp (by omega) hcnt (acksWout_le ha (by omega))
    obtain ⟨_, _, _, _, _, he⟩ := ht.elim
    have hsplit : (s.bwCnt.toNat + (m + 1)) / 8 = (s.bwCnt.toNat + 1) / 8 + (t.bwCnt.toNat + m) / 8 := by omega
    have hwd : t.wdata = s.wdata := by rw [he]
    obtain ⟨u, hu, hub, hul, huk, hupos, hurdy, hur⟩ := ih (s := goTo c (.write n (i + 1)) t) (i := i + 1) rfl
      (by rw [he]; exact hp) (by omega) (by simp; omega) (by
        have := acksWout_drop (t := t) (hsplit ▸ ha) hrdy
        simpa [State.acksWout] using this)
    refine ⟨{ u with cur := s.cur }, ?_, ?_, ?_, ?_, ?_, ?_, ?_⟩
    · obtain ⟨_, _, _, _, _, hu'⟩ := hu.elim
      rw [hu', he]; simp [Written, goTo]
    · have h1 : bitsOf (n - i) s.wdata.toNat = writeBit n i s.wdata :: bitsOf (n - (i + 1)) s.wdata.toNat := by
        have h3 : n - i = (n - (i + 1)) + 1 := by omega
        have h4 : n - 1 - i = n - (i + 1) := by omega
        rw [h3, bitsOf, writeBit, h4]; rfl
      have h2 : u.writtenBits = t.writtenBits ++ (bitsOf (n - (i + 1)) s.wdata.toNat).take m := by
        simpa [State.writtenBits, State.accBits, hwd] using hub
      have h3 : ({ u with cur := s.cur } : State).writtenBits = u.writtenBits := rfl
      rw [h3, h2, hb, h1, List.take_succ_cons, List.append_assoc]; rfl
    · have : u.woutStream.length = t.woutStream.length + (t.bwCnt.toNat + m) / 8 := by simpa using hul
      simp only; omega
    · have : u.bwCnt.toNat = (t.bwCnt.toNat + m) % 8 := by simpa using huk
      simp only; omega
    · have : u.bwPos = t.bwPos + BitVec.ofNat 32 m := by simpa using hupos
      simp only [this, hpos]; rw [BitVec.ofNat_add, BitVec.add_assoc, BitVec.add_comm 1]; rfl
    · have : u.woutReady = t.woutReady.drop ((t.bwCnt.toNat + m) / 8) := by simpa using hurdy
      simp only [this, hrdy, List.drop_drop, hsplit]
    · have h5 : i + 1 + m = i + (m + 1) := by omega
      rw [← h5]
      exact hr.trans (by simpa [goTo] using hur)

/-- Bits `n - m` to `n - 1` of a WR. -/
theorem write_bits (m : Nat) {s : State} {c : Instr} {n i : Nat} (hc : s.cur = some { instr := c, pos := .write n i })
    (hp : s.pend = .none) (hn : n = i + m) (hcnt : s.bwCnt.toNat ≤ 7) (ha : s.acksWout ((s.bwCnt.toNat + m) / 8)) :
    ∃ t, Written s t ∧ t.writtenBits = s.writtenBits ++ bitsOf m s.wdata.toNat ∧
      t.woutStream.length = s.woutStream.length + (s.bwCnt.toNat + m) / 8 ∧ t.bwCnt.toNat = (s.bwCnt.toNat + m) % 8 ∧
      t.bwPos = s.bwPos + BitVec.ofNat 32 m ∧ Runs s (goTo c (.write n n) t) := by
  subst hn
  obtain ⟨t, ht, hb, hl, hk, hpos, -, hr⟩ := write_upTo m hc hp (Nat.le_refl _) hcnt ha
  rw [Nat.add_sub_cancel_left, List.take_of_length_le (by simp)] at hb
  exact ⟨t, ht, hb, hl, hk, hpos, hr⟩

end Sys2Proof.Machine
end

