-- ==== Sys2Proof/Laws/Command.lean ====
section
/-! SUPPORT. Accepting a command (R260): the four things `startCommand` can do, and where a command that runs undisturbed
ends. -/

namespace Sys2Proof.Machine

theorem startCommand_busy {s : State} {i : Instr} {start : State → State} (h : s.busy = true) :
    startCommand i start s = .next { s with ovr := true } := by simp [startCommand, h]

theorem startCommand_err {s : State} {i : Instr} {start : State → State} (h : s.busy = false) (he : s.err = true) :
    startCommand i start s = .next s := by simp [startCommand, h, he]

theorem startCommand_illegalSeq {s : State} {i : Instr} {start : State → State} (h : s.busy = false) (he : s.err = false)
    (ha : allowed i s.phase = false) :
    startCommand i start s = .next (raise (.illegalSeq (i.opcode.setWidth 8)) s) := by simp [startCommand, h, he, ha]

theorem startCommand_run {s : State} {i : Instr} {start : State → State} (h : s.busy = false) (he : s.err = false)
    (ha : allowed i s.phase = true) : startCommand i start s = .next (unitRun (start s)) := by simp [startCommand, h, he, ha]

/-- A command always answers a next state. -/
theorem startCommand_next (s : State) (i : Instr) (start : State → State) : ∃ t, startCommand i start s = .next t := by
  unfold startCommand
  split
  · exact ⟨_, rfl⟩
  · split
    · exact ⟨_, rfl⟩
    · split <;> exact ⟨_, rfl⟩

theorem cur_of_canRun {s : State} (h : s.canRun) : s.cur = none := by simpa [State.busy] using h.1

theorem unhurried_of_moves {s t : State} (h : t.moves = s.moves) (hu : s.unhurried = true) : t.unhurried = true := by
  simpa [State.unhurried, h] using hu

/-- A command an idle unit accepts ends where its undisturbed run comes to rest (R260, R261). -/
theorem startCommand_runs {s t : State} {i : Instr} {start : State → State} (h : s.canRun)
    (ha : allowed i s.phase = true) (hm : (start s).moves = s.moves) (hw : writesAtMost32 (start s))
    (hr : Runs (start s) t) (ht : t.atRest = true) : startCommand i start s = .next t := by
  rw [startCommand_run h.1 h.2.1 ha, unitRun_eq_of_runs (unhurried_of_moves hm h.2.2.2) hw hr ht]

theorem writesAtMost32_startRead (c : Instr) (n : Nat) (r : ReadFor) (s : State) : writesAtMost32 (startRead c n r s) := by
  intro d m i h
  simp [startRead, goTo] at h

theorem phase_header {s : State} (h : s.canRun) (hd : s.hdrDone = false) : s.phase = .header := by
  simp [State.phase, h.2.1, hd]

theorem phase_body {s : State} (h : s.canRun) (hd : s.hdrDone = true) (hn : s.done = false) : s.phase = .body := by
  simp [State.phase, h.2.1, hd, hn]

theorem startHeader_legal {s : State} (c : Instr) (h1 : 1 ≤ s.cfgL.toNat) (h2 : s.cfgL.toNat ≤ 32) :
    startHeader c s = startEntry c s := by
  rw [startHeader, if_neg]
  simp [lengthIllegal]
  omega

theorem execRd_runs {n : BitVec 6} {s t : State} (hn : n.toNat ≤ 32) (h : s.canRun)
    (hr : Runs (startRead (.rd n) n.toNat .rd s) t) (ht : t.atRest = true) : exec (.rd n) s = .next t := by
  have hl : startRd n s = startRead (.rd n) n.toNat .rd s := by rw [startRd, if_pos]; simpa [countLegal] using hn
  refine startCommand_runs h rfl ?_ ?_ ?_ ht <;> rw [hl]
  · rfl
  · exact writesAtMost32_startRead _ _ _ _
  · exact hr

theorem execHent_runs {s t : State} (h : s.canRun) (hd : s.hdrDone = false) (h1 : 1 ≤ s.cfgL.toNat)
    (h2 : s.cfgL.toNat ≤ 32) (hr : Runs (startEntry .hent s) t) (ht : t.atRest = true) : exec .hent s = .next t := by
  refine startCommand_runs h (by simp [allowed, phase_header h hd]) ?_ ?_ ?_ ht <;> rw [startHeader_legal _ h1 h2]
  · rfl
  · exact writesAtMost32_startRead _ _ _ _
  · exact hr

theorem execHdr_runs {s t : State} (h : s.canRun) (hd : s.hdrDone = false) (h1 : 1 ≤ s.cfgL.toNat)
    (h2 : s.cfgL.toNat ≤ 32) (hr : Runs (startEntry .hdr s) t) (ht : t.atRest = true) : exec .hdr s = .next t := by
  refine startCommand_runs h (by simp [allowed, phase_header h hd]) ?_ ?_ ?_ ht <;> rw [startHeader_legal _ h1 h2]
  · rfl
  · exact writesAtMost32_startRead _ _ _ _
  · exact hr

theorem execDec_runs {s t : State} (h : s.canRun) (hd : s.hdrDone = false) (h1 : 1 ≤ s.cfgL.toNat)
    (h2 : s.cfgL.toNat ≤ 32) (hr : Runs (startEntry .dec s) t) (ht : t.atRest = true) : exec .dec s = .next t := by
  refine startCommand_runs h (by simp [allowed, phase_header h hd]) ?_ ?_ ?_ ht <;> rw [startHeader_legal _ h1 h2]
  · rfl
  · exact writesAtMost32_startRead _ _ _ _
  · exact hr

/-- The same for the three commands that parse a header. -/
theorem execHeader_runs {i : Instr} {xs : List MapEntry} {s t : State} (hi : parsesAfter i xs) (h : s.canRun)
    (hd : s.hdrDone = false) (h1 : 1 ≤ s.cfgL.toNat) (h2 : s.cfgL.toNat ≤ 32) (hr : Runs (startEntry i s) t)
    (ht : t.atRest = true) : exec i s = .next t := by
  rcases hi with ⟨rfl, -⟩ | rfl | rfl
  · exact execHent_runs h hd h1 h2 hr ht
  · exact execHdr_runs h hd h1 h2 hr ht
  · exact execDec_runs h hd h1 h2 hr ht

theorem execBstep_runs {s t : State} (h : s.canRun) (hd : s.hdrDone = true) (hn : s.done = false)
    (hr : Runs (startBodyStep .bstep s) t) (ht : t.atRest = true) : exec .bstep s = .next t :=
  startCommand_runs h (by simp [allowed, phase_body h hd hn]) rfl (writesAtMost32_startRead _ _ _ _) hr ht

theorem execBsym_runs {s t : State} (h : s.canRun) (hd : s.hdrDone = true) (hn : s.done = false)
    (hr : Runs (startBodyStep .bsym s) t) (ht : t.atRest = true) : exec .bsym s = .next t :=
  startCommand_runs h (by simp [allowed, phase_body h hd hn]) rfl (writesAtMost32_startRead _ _ _ _) hr ht

theorem execBody_runs {s t : State} (h : s.canRun) (hd : s.hdrDone = true) (hn : s.done = false)
    (hr : Runs (startBodyStep .body s) t) (ht : t.atRest = true) : exec .body s = .next t := by
  have hb : bodyLoop .body s = startBodyStep .body s := by simp [bodyLoop, hn]
  refine startCommand_runs h (by simp [allowed, phase_body h hd hn]) ?_ ?_ ?_ ht <;> rw [hb]
  · rfl
  · exact writesAtMost32_startRead _ _ _ _
  · exact hr

/-- The same for the three commands that begin with a body step. -/
theorem execBodyStep_runs {i : Instr} {s t : State} (hi : i = .bstep ∨ i = .bsym ∨ i = .body) (h : s.canRun)
    (hd : s.hdrDone = true) (hn : s.done = false) (hr : Runs (startBodyStep i s) t) (ht : t.atRest = true) :
    exec i s = .next t := by
  rcases hi with rfl | rfl | rfl
  · exact execBstep_runs h hd hn hr ht
  · exact execBsym_runs h hd hn hr ht
  · exact execBody_runs h hd hn hr ht

end Sys2Proof.Machine
end

