-- ==== Sys2Proof/Laws/BodyRun.lean ====
section
/-! SUPPORT. A body decoded up to a candidate that has matched nothing: the symbols before it (R230, R231), its bits, and the
command that gets there (R233 to R236). -/

namespace Sys2Proof.Machine

/-- `t` is `s` after the symbols `ys` have gone out and bits have been taken (R230, R231). -/
abbrev Decoded (s : State) (ys : List MapEntry) (t : State) : Prop :=
  t = { s with
    brCnt := t.brCnt, brBuf := t.brBuf, brPos := t.brPos, srcStream := t.srcStream, srcReady := t.srcReady, cand := t.cand,
    candLen := t.candLen, lastSymV := t.lastSymV, lastSymIdx := t.lastSymIdx, cur := t.cur, outReady := t.outReady,
    outStream := s.outStream ++ symBytes ys, symCount := s.symCount + BitVec.ofNat 32 ys.length }

theorem Decoded.elim {s t : State} {ys : List MapEntry} (h : Decoded s ys t) :
    ∃ a1 a2 a3 a4 a5 a6 a7 a8 a9 b1 b2, t = { s with
      brCnt := a1, brBuf := a2, brPos := a3, srcStream := a4, srcReady := a5, cand := a6, candLen := a7, lastSymV := a8,
      lastSymIdx := a9, cur := b1, outReady := b2, outStream := s.outStream ++ symBytes ys,
      symCount := s.symCount + BitVec.ofNat 32 ys.length } :=
  ⟨_, _, _, _, _, _, _, _, _, _, _, h⟩

theorem Stepped.decoded {s t u : State} {ys : List MapEntry} {m : Nat} (h : Decoded s ys t) (h' : Stepped t m u) :
    Decoded s ys u := by
  obtain ⟨_, _, _, _, _, _, _, _, _, _, _, rfl⟩ := h.elim
  obtain ⟨_, _, _, _, _, _, _, rfl⟩ := h'.elim
  simp [Decoded]

/-- The map after the entries a header adds still has valid entries and no code twice (R206). -/
theorem mapTakes_ok {len : Nat} (xs : List MapEntry) {m : List MapEntry} {p : Params} (h : mapTakes p len m xs)
    (he : ∀ x ∈ m, 1 ≤ x.clen.toNat ∧ x.code.toNat < 2 ^ x.clen.toNat)
    (hc : m.Pairwise (fun x y => ¬(x.clen = y.clen ∧ x.code = y.code))) (hl : m.length ≤ p.mapEntries) :
    (∀ x ∈ m ++ xs, 1 ≤ x.clen.toNat ∧ x.code.toNat < 2 ^ x.clen.toNat) ∧
      (m ++ xs).Pairwise (fun x y => ¬(x.clen = y.clen ∧ x.code = y.code)) ∧ (m ++ xs).length ≤ p.mapEntries := by
  induction xs generalizing m with
  | nil => rw [List.append_nil]; exact ⟨he, hc, hl⟩
  | cons x xs ih =>
    obtain ⟨hfit, hnew, hroom, hxs⟩ := h
    have := ih hxs (by
      intro y hy
      rcases List.mem_append.1 hy with h | h
      · exact he y h
      · simp only [List.mem_singleton] at h; subst h; exact ⟨hfit.2.2.2.2.2.1, hfit.2.2.2.2.2.2⟩) (by
      rw [List.pairwise_append]
      refine ⟨hc, List.pairwise_singleton _ _, ?_⟩
      intro a ha b hb
      simp only [List.mem_singleton] at hb; subst hb
      rw [matchCode, List.findIdx?_eq_none_iff] at hnew
      have := hnew a ha
      rintro ⟨h1, h2⟩
      simp [h1, h2] at this) (by simp; omega)
    simpa using this

/-- The symbols `ys`, matched in turn, go out, and the command is at its next body step (R230, R231, R235). -/
theorem symbols_run (ys : List MapEntry) {s : State} (c : Instr) (hc : ys ≠ [] → c = .body ∨ c = .dec)
    {more : List Bool} {l : List SinkAnswer} (hp : s.pend = .none) (hd : s.done = false) (hm : MapOk s) (hco : candOk s)
    (hy : ∀ y ∈ ys, y ∈ s.map ∧ y.sym ≠ s.params.eofBytes) (hturn : matchedInTurn s.map s.candLen.toNat ys)
    (hb : s.candBits ++ s.availBits = bodyBits ys ++ more) (hack : s.acksOut (symBytes ys).length l) :
    ∃ t, Decoded s ys t ∧ t.outReady = l ∧ t.candBits ++ t.availBits = more ∧ candOk t ∧
      (ys = [] → t.candLen = s.candLen ∧ t.brPos = s.brPos) ∧
      (ys ≠ [] → t.candLen = 0 ∧ t.brPos + s.candLen.setWidth 32 = s.brPos + BitVec.ofNat 32 (bodyBits ys).length) ∧
      readyStop t.srcReady = readyStop s.srcReady ∧ Runs (startBodyStep c s) (startBodyStep c t) := by
  induction ys generalizing s with
  | nil =>
    refine ⟨s, by simp [Decoded, symBytes], by simpa [State.acksOut, symBytes] using hack, by simpa [bodyBits] using hb, hco,
      fun _ => ⟨rfl, rfl⟩, fun h => absurd rfl h, rfl, Runs.refl _⟩
  | cons y ys ih =>
    replace hc := hc (by simp)
    obtain ⟨hlt, hf, hturn⟩ := hturn
    obtain ⟨hym, hye⟩ := hy y (by simp)
    obtain ⟨j, hj, hjy⟩ := List.mem_iff_getElem.1 hym
    have hxj : s.map[j]? = some y := by rw [List.getElem?_eq_getElem hj, hjy]
    obtain ⟨t, ht, hta, hs, hr⟩ := body_symbol c (.inr hc) hp hd hm hco hf hxj hlt (rest := bodyBits ys ++ more)
      (by rw [hb]; simp [bodyBits])
    obtain ⟨_, _, _, _, _, _, _, he⟩ := ht.elim
    have e1 : t.map = s.map := by rw [he]
    have e2 : t.params = s.params := by rw [he]
    have e3 : t.pend = s.pend := by rw [he]
    have e4 : t.done = s.done := by rw [he]
    have e5 : t.maxLen = s.maxLen := by rw [he]
    have e6 : t.brPos = s.brPos + BitVec.ofNat 32 (y.clen.toNat - s.candLen.toNat) := by rw [he]
    obtain ⟨cur, hr2⟩ := bodyMatch_emit c (s := t) (e := j) (x := y) (l := List.replicate (symBytes ys).length .ack ++ l)
      (by rw [e3, hp]) (by rw [e1]; exact hxj) (by rw [e2]; exact hye)
      (by rw [he]; simp only [State.acksOut] at hack ⊢; rw [hack, ← List.append_assoc, ← List.replicate_add]; simp [symBytes])
    obtain ⟨u, hu, hul, hub, huc, hu0, hu1, hus, hur⟩ := ih
      (s := { t with
        lastSymV := true
        lastSymIdx := BitVec.ofNat 16 j
        cand := 0
        candLen := 0
        cur := cur
        outStream := t.outStream ++ y.sym
        outReady := List.replicate (symBytes ys).length .ack ++ l
        symCount := t.symCount + 1 }) (fun _ => hc) (by rw [← hp]; exact e3) (by rw [← hd]; exact e4)
      ⟨by simp only [e1]; exact hm.entries, by simp only [e1]; exact hm.codes, by simp only [e1, e5]; exact hm.maxLen⟩
      ⟨by simp, by simp⟩ (by simp only [e1, e2]; exact fun y' h' => hy y' (by simp [h']))
      (by simpa [e1] using hturn)
      (by simpa [State.candBits, bitsOf, State.availBits, State.bufBits] using hta) rfl
    have hpos : u.brPos = t.brPos + BitVec.ofNat 32 (bodyBits ys).length := by
      by_cases h0 : ys = []
      · subst h0; simpa [bodyBits] using (hu0 rfl).2
      · simpa using (hu1 h0).2
    refine ⟨u, ?_, hul, hub, huc, by simp, fun _ => ⟨?_, ?_⟩, hus.trans hs, ?_⟩
    · rw [hu, he]
      simp only [Decoded, symBytes, List.flatMap_cons, List.append_assoc, List.length_cons]
      rw [Nat.add_comm, BitVec.ofNat_add, BitVec.add_assoc]; rfl
    · by_cases h0 : ys = []
      · exact (hu0 h0).1
      · exact (hu1 h0).1
    · rw [hpos, e6]
      simp only [bodyBits, List.flatMap_cons, List.length_append, codeBits, length_bitsOf]
      apply BitVec.eq_of_toNat_eq
      simp
      omega
    · have h1 : ∀ u : State, u.done = false → afterBodyStep c true u = startBodyStep c u := by
        intro u h; rcases hc with rfl | rfl <;> simp [afterBodyStep, bodyLoop, h]
      rw [h1 _ (by simp only; rw [e4]; exact hd)] at hr2
      exact hr.trans (hr2.trans hur)

/-- Bits up to a candidate that has matched nothing (R230). -/
theorem prefix_run (k : Nat) {s : State} (c : Instr) {pre more : List Bool} (hk : pre.length = s.candLen.toNat + k)
    (hc : k ≠ 0 → c = .bsym ∨ c = .body ∨ c = .dec) (hp : s.pend = .none) (hd : s.done = false) (hm : MapOk s) (hco : candOk s)
    (hb : s.candBits ++ s.availBits = pre ++ more) (hle : pre.length ≤ s.maxLen.toNat)
    (hno : ∀ x ∈ s.map, codeBits x <+: pre → x.clen.toNat ≤ s.candLen.toNat) :
    ∃ t, Stepped s k t ∧ t.candBits = pre ∧ t.candLen.toNat = pre.length ∧ candOk t ∧ t.availBits = more ∧
      readyStop t.srcReady = readyStop s.srcReady ∧ Runs (startBodyStep c s) (startBodyStep c t) := by
  have hlc : ∀ s : State, s.candBits.length = s.candLen.toNat := fun s => by simp [State.candBits]
  induction k generalizing s with
  | zero =>
    obtain ⟨h1, h2⟩ := List.append_inj hb (by rw [hlc]; omega)
    exact ⟨s, by simp [Stepped], h1, by omega, hco, h2, rfl, Runs.refl _⟩
  | succ k ih =>
    have hc' := hc (by omega)
    match ha : s.availBits with
    | [] =>
      have := congrArg List.length hb
      simp only [ha, List.append_nil, hlc, List.length_append] at this
      omega
    | b :: av =>
      rw [ha, List.append_cons] at hb
      have hpre : s.candBits ++ [b] <+: pre :=
        List.prefix_of_prefix_length_le (l₃ := pre ++ more) ⟨av, hb⟩ (List.prefix_append _ _) (by simp [hlc]; omega)
      have hno1 : ∀ y ∈ s.map, codeBits y ≠ s.candBits ++ [b] := by
        intro y hy hyc
        have h1 := hno y hy (by rw [hyc]; exact hpre)
        have h2 := congrArg List.length hyc
        simp only [codeBits, length_bitsOf, List.length_append, hlc, List.length_singleton] at h2
        omega
      obtain ⟨t, ht, hta, hs, hcb, hcl, hcv, hr⟩ := bodyStep_noMatch c hp hm hco hno1 ha
      obtain ⟨_, _, _, _, _, _, _, he⟩ := ht.elim
      have e1 : t.map = s.map := by rw [he]
      have e2 : t.maxLen = s.maxLen := by rw [he]
      have e3 : t.done = false := by rw [he]; exact hd
      have e4 : t.pend = .none := by rw [he]; exact hp
      have hnext : bodyNoMatchYet c t = startBodyStep c t := by
        rw [bodyNoMatchYet, if_neg (by rw [e2]; omega)]
        rcases hc' with rfl | rfl | rfl <;> simp [afterBodyStep, bodyLoop, e3]
      rw [hnext] at hr
      obtain ⟨u, hu, hub, hul, huc, hua, hus, hur⟩ := ih (s := t) (by omega) (fun _ => hc') e4 e3
        ⟨by rw [e1]; exact hm.entries, by rw [e1]; exact hm.codes, by rw [e1, e2]; exact hm.maxLen⟩ ⟨by rw [e2]; omega, hcv⟩
        (by rw [hcb, hta]; exact hb) (by rw [e2]; exact hle)
        (fun x hx hxp => by have := hno x (by rwa [e1] at hx) hxp; omega)
      refine ⟨u, ?_, hub, hul, huc, hua, hus.trans hs, hr.trans hur⟩
      have := ht.trans hu
      rwa [Nat.add_comm] at this

/-- A body command that gets to the candidate `pre` after `ys` (`BodyAt`) is then at a body step in a state that stands there,
and ends or holds where that body step leads. -/
theorem bodyAt_runs {i : Instr} {s : State} {hdr : List Bool} {m ys : List MapEntry} {pre more : List Bool}
    {l : List SinkAnswer} (hI : Inv s) (h : s.canRun) (hB : BodyAt i s hdr m ys pre more l) (hle : pre.length ≤ maxCodeLen m) :
    ∃ t, bodyStands s hdr m ys pre t ∧ t.availBits = more ∧ t.outReady = l ∧ t.srcEnd = s.srcEnd ∧
      readyStop t.srcReady = readyStop s.srcReady ∧ sameError s t ∧ t.pend = .none ∧ t.params = s.params ∧
      t.maxLen.toNat = maxCodeLen m ∧ MapOk t ∧ candOk t ∧
      ∀ u, Runs (startBodyStep i t) u → u.atRest = true → exec i s = .next u := by
  -- the state `a` in which the body begins
  obtain ⟨a, hbits, ha, hac, hash, hex⟩ : ∃ a : State, s.candBits ++ a.availBits = bodyBits ys ++ (pre ++ more) ∧
      (a.pend = .none ∧ a.done = false ∧ a.hdrDone = true ∧ a.map = m ∧ MapOk a ∧ candOk a ∧ a.params = s.params) ∧
      (a.candLen = s.candLen ∧ a.cand = s.cand ∧ a.symCount = s.symCount ∧ a.outStream = s.outStream ∧
        a.outReady = s.outReady ∧ a.srcEnd = s.srcEnd ∧ sameError s a ∧ a.brPos = s.brPos + BitVec.ofNat 32 hdr.length) ∧
      readyStop a.srcReady = readyStop s.srcReady ∧
      ∀ u, Runs (startBodyStep i a) u → u.atRest = true → exec i s = .next u := by
    obtain ⟨av, hav, hbits⟩ := hB.bits
    rcases hB.begins with ⟨hi, hh, hd, rfl, rfl⟩ | ⟨rfl, hh, h1, h2, hme, xs, c, tail, hc, htl, hx, rfl, rfl⟩
    · exact ⟨s, by rw [hav]; exact hbits, ⟨h.2.2.1, hd, hh, rfl, hI.mapOk, hI.candOk h.2.1, rfl⟩,
        ⟨rfl, rfl, rfl, rfl, rfl, rfl, ⟨rfl, rfl, rfl, rfl⟩, by simp⟩, rfl,
        fun u hr hu => execBodyStep_runs hi h hh hd hr hu⟩
    · obtain ⟨t, ml, ht, hml, hta, hs, hr⟩ := parse_header xs .dec (.inr rfl) h.2.2.1 hh h2 hI.params hme hc htl hx hav
      obtain ⟨_, _, _, _, _, _, _, he⟩ := ht.elim
      obtain ⟨k1, k2, -⟩ := mapTakes_ok xs hx hI.mapOk.entries hI.codes hI.capacity
      have hml' : ml.toNat = maxCodeLen (s.map ++ xs) := hml hI.maxLen
      have hch := hI.candHeader hh
      have hdn : s.done = false := by
        cases hdd : s.done with
        | false => rfl
        | true => have := hI.doneHdr hdd; simp [hh] at this
      refine ⟨{ t with hdrDone := true }, ?_, ?_, ?_, hs, ?_⟩
      · have : ({ t with hdrDone := true } : State).availBits = t.availBits := rfl
        rw [this, hta]; exact hbits
      · rw [he]
        exact ⟨h.2.2.1, hdn, rfl, rfl, ⟨k1, k2, hml'⟩, ⟨by simp [hch.1], hI.candBound.2⟩, rfl⟩
      · rw [he]
        exact ⟨rfl, rfl, rfl, rfl, rfl, rfl, ⟨rfl, rfl, rfl, rfl⟩, rfl⟩
      · intro u hru hu
        refine execDec_runs h hh h1 h2 (hr.trans ?_) hu
        have : t.done = false := by rw [he]; exact hdn
        simpa [headerEnd, afterEntry, bodyLoop, this] using hru
  obtain ⟨g1, g2, g3, g4, g5, g6, g7⟩ := ha
  obtain ⟨f1, f2, f3, f4, f5, f6, f7, f8⟩ := hac
  have hcb : a.candBits = s.candBits := by simp [State.candBits, f1, f2]
  obtain ⟨t, ht, htl, htb, htc, ht0, ht1, hts, htr⟩ := symbols_run ys i (s := a) (more := pre ++ more) (l := l)
    hB.loops g1 g2 g5 g6 (by rw [g4, g7]; exact hB.symbols) (by rw [g4, f1]; exact hB.turn)
    (by rw [hcb]; exact hbits) (by unfold State.acksOut; rw [f5]; exact hB.acks)
  obtain ⟨_, _, _, _, _, _, _, _, _, _, _, e⟩ := ht.elim
  have q1 : t.map = m := by rw [e]; exact g4
  have q2 : t.maxLen = a.maxLen := by rw [e]
  have q3 : t.done = false := by rw [e]; exact g2
  have q4 : t.pend = .none := by rw [e]; exact g1
  have htm : MapOk t := ⟨by rw [q1, ← g4]; exact g5.entries, by rw [q1, ← g4]; exact g5.codes, by rw [q1, q2, ← g4]; exact g5.maxLen⟩
  have hmx : t.maxLen.toNat = maxCodeLen m := by rw [htm.maxLen, q1]
  have hlt : t.candLen.toNat ≤ pre.length := by
    by_cases h0 : ys = []
    · rw [(ht0 h0).1, f1]; exact hB.grows h0
    · rw [(ht1 h0).1]; simp
  obtain ⟨u, hu, hub, hul, huc, hua, hus, hur⟩ := prefix_run (pre.length - t.candLen.toNat) i (s := t) (pre := pre) (more := more)
    (by omega)
    (by
      intro hk
      by_cases h0 : ys = []
      · have hb : i ≠ .bstep := by
          intro hi
          have := hB.one hi
          rw [(ht0 h0).1, f1] at hk
          omega
        rcases hB.begins with ⟨hi, -⟩ | ⟨rfl, -⟩
        · rcases hi with rfl | rfl | rfl
          · exact absurd rfl hb
          · exact .inl rfl
          · exact .inr (.inl rfl)
        · exact .inr (.inr rfl)
      · exact .inr (hB.loops h0))
    q4 q3 htm htc htb (by rw [hmx]; exact hle)
    (by
      intro x hx hxp
      obtain ⟨h0, hx'⟩ := hB.unmatched x (by rwa [q1] at hx) hxp
      rw [(ht0 h0).1, f1]
      exact hx')
  have hdec := Stepped.decoded ht hu
  obtain ⟨_, _, _, _, _, _, _, _, _, _, _, e'⟩ := hdec.elim
  have r1 : u.map = m := by rw [e']; exact g4
  have r2 : u.maxLen = a.maxLen := by rw [e']
  have r3 : u.brPos = t.brPos + BitVec.ofNat 32 (pre.length - t.candLen.toNat) := by
    obtain ⟨_, _, _, _, _, _, _, e2⟩ := hu.elim
    rw [e2]
  refine ⟨u, ⟨r1, by rw [e']; exact g3, by rw [e']; exact g2, by rw [e']; simp [f4], by rw [e']; simp [f3], hub, hul, ?_⟩, hua, ?_,
    by rw [e']; exact f6, hus.trans (hts.trans hash), by rw [e']; exact f7, by rw [e']; exact g1, by rw [e']; exact g7,
    by rw [r2, ← q2, hmx], ⟨by rw [r1, ← g4]; exact g5.entries, by rw [r1, ← g4]; exact g5.codes,
      by rw [r1, r2, ← g4]; exact g5.maxLen⟩, huc, fun w hw hwr => hex w (htr.trans (hur.trans hw)) hwr⟩
  · rw [r3]
    simp only [List.length_append]
    by_cases h0 : ys = []
    · obtain ⟨a1, a2⟩ := ht0 h0
      rw [a1, f1] at hlt
      rw [a2, f8, a1, f1]
      subst h0
      apply BitVec.eq_of_toNat_eq
      simp [bodyBits]
      omega
    · obtain ⟨a1, a2⟩ := ht1 h0
      rw [f1, f8] at a2
      rw [a1]
      show t.brPos + BitVec.ofNat 32 pre.length + s.candLen.setWidth 32 = _
      rw [BitVec.add_assoc, BitVec.add_comm (BitVec.ofNat 32 pre.length), ← BitVec.add_assoc, a2]
      simp only [BitVec.ofNat_add, BitVec.add_assoc]
  · have : u.outReady = t.outReady := by
      obtain ⟨_, _, _, _, _, _, _, e2⟩ := hu.elim
      rw [e2]
    rw [this, htl]

end Sys2Proof.Machine
end

