-- ==== Sys2Proof/Laws/Frames.lean ====
section
/-! SUPPORT. What one operation of a command leaves alone: `unitOp_keepsFrame` says once, for every command, which parts of the
state an operation can change (R30, R160, R180, R200, R230). -/

namespace Sys2Proof.Machine

/-- Command `c` makes reads for `r`. -/
def readsFor (c : Instr) : ReadFor → Prop
  | .rd => ∃ n, c = .rd n
  | .bodyBit => decodesBody c = true
  | _ => parsesHeader c = true

/-- Command `c` reaches this position, and the outstanding request is one it makes there (R58). -/
def requestFits (c : Instr) : Pos → Pend → Prop
  | .read _ _ _ r, q => (q = .none ∨ q = .src) ∧ readsFor c r
  | .emit _ _, q => (q = .none ∨ ∃ b, q = .out b) ∧ decodesBody c = true
  | .write _ _, q => (q = .none ∨ ∃ b, q = .wout b) ∧ ∃ n, c = .wr n
  | .flush, q => (q = .none ∨ ∃ b, q = .wout b) ∧ c = .flush

/-- The unit is idle, or command `c` is still in execution. -/
def staysIn (c : Instr) (t : State) : Prop :=
  (t.cur = none ∧ t.pend = .none) ∨ ∃ p, t.cur = some { instr := c, pos := p } ∧ requestFits c p t.pend

/-- From `s` to `t` an operation of command `c` keeps its frame; the map and OUT only grow at their ends. -/
def KeepsFrame (c : Instr) (s t : State) : Prop :=
  ownFrame s t c ∧ statusFrame s t ∧ t.ovr = s.ovr ∧ (t.busy = true ∨ t.err = true → sameResult s t) ∧
    s.map <+: t.map ∧ s.outStream <+: t.outStream

theorem parsesHeader_cases {c : Instr} : parsesHeader c = true → c = .hent ∨ c = .hdr ∨ c = .dec
    := by cases c <;> simp [parsesHeader]

theorem decodesBody_cases {c : Instr} : decodesBody c = true → c = .bstep ∨ c = .bsym ∨ c = .body ∨ c = .dec
    := by cases c <;> simp [decodesBody]

theorem raise_keepsFrame (c : Instr) (hc : c ≠ .reset) (k : Cause) (s : State) : KeepsFrame c s
    (raise k s) ∧ staysIn c (raise k s) := by
  refine ⟨⟨?_, .inl ⟨k, rfl, rfl, rfl, rfl, rfl, rfl, rfl, rfl⟩, rfl, fun _ => ⟨rfl, rfl⟩, by simp, by simp⟩,
      .inl ⟨rfl, rfl⟩⟩
  cases c <;> simp [ownFrame, sameWriter, sameResult, sameMap, sameSymBuf, sameBody, sameHost, sameReader]

theorem complete_keepsFrame {c : Instr} {s t : State} (h : ownFrame s t c) (he : sameError s t)
    (hi : t.intPendErri = s.intPendErri) (ho : t.ovr = s.ovr)
   (her : t.err = false) (hm : s.map <+: t.map) (hos : s.outStream <+: t.outStream)
       (hp : t.pend = .none) : KeepsFrame c s (complete t) ∧ staysIn c (complete t) := by
  refine ⟨⟨?_, .inr ⟨he, hi, .inr ⟨rfl, rfl⟩⟩, ho, ?_, hm, hos⟩, .inl ⟨rfl, hp⟩⟩
  · cases c <;> exact h
  · rintro (h | h)
    · simp [State.busy] at h
    · simp [her] at h

theorem goTo_keepsFrame {c : Instr} {s t : State} {p : Pos} (h : ownFrame s t c) (he : sameError s t)
    (hi : t.intPendErri = s.intPendErri) (hcm : t.intPendCmdc = s.intPendCmdc) (ho : t.ovr = s.ovr)
   (hr : sameResult s t) (hm : s.map <+: t.map) (hos : s.outStream <+: t.outStream)
       (hf : requestFits c p t.pend) : KeepsFrame c s (goTo c p t) ∧ staysIn c (goTo c p t) := by
  refine ⟨⟨?_, .inr ⟨he, hi, .inl hcm⟩, ho, fun _ => hr, hm, hos⟩, .inr ⟨p, rfl, hf⟩⟩
  cases c <;> exact h

/-- `t` is `s` with changes command `c` makes before it ends, no request outstanding. -/
structure Quiet (c : Instr) (s t : State) : Prop where
  own : ownFrame s t c
  err : sameError s t
  erri : t.intPendErri = s.intPendErri
  cmdc : t.intPendCmdc = s.intPendCmdc
  ovr : t.ovr = s.ovr
  res : sameResult s t
  map : s.map <+: t.map
  out : s.outStream <+: t.outStream
  pend : t.pend = .none
  noerr : t.err = false

theorem Quiet.complete {c s t} (h : Quiet c s t) : KeepsFrame c s (complete t) ∧ staysIn c (complete t)
    := complete_keepsFrame h.own h.err h.erri h.ovr h.noerr h.map h.out h.pend

theorem Quiet.goTo {c s t p} (h : Quiet c s t) (hf : requestFits c p .none) : KeepsFrame c s
    (goTo c p t) ∧ staysIn c (goTo c p t) := goTo_keepsFrame h.own h.err h.erri h.cmdc h.ovr h.res h.map h.out
    (h.pend ▸ hf)

theorem Quiet.raise {c s t} (hc : c ≠ .reset) (h : Quiet c s t) (k : Cause)  : KeepsFrame c s
    (raise k t) ∧ staysIn c (raise k t) := by
  refine ⟨⟨?_, .inl ⟨k, rfl, rfl, rfl, rfl, rfl, rfl, rfl, rfl⟩, h.ovr, fun _ => h.res, h.map, h.out⟩, .inl ⟨rfl,
      rfl⟩⟩
  have := h.own
  cases c <;> exact this

theorem Quiet.bodyLoop {c s t} (h : Quiet c s t) (hc : decodesBody c = true) : KeepsFrame c s
    (bodyLoop c t) ∧ staysIn c (bodyLoop c t) := by
  unfold Machine.bodyLoop; split
  · exact h.complete
  · exact h.goTo ⟨.inl rfl, hc⟩

theorem Quiet.afterBodyStep {c s t} (h : Quiet c s t) (hc : decodesBody c = true) (m) : KeepsFrame c s
    (afterBodyStep c m t) ∧ staysIn c (afterBodyStep c m t) := by
  rcases decodesBody_cases hc with rfl | rfl | rfl | rfl <;> simp only [Machine.afterBodyStep]
  · exact h.complete
  · split
    · exact h.complete
    · exact h.goTo ⟨.inl rfl, hc⟩
  · exact h.bodyLoop rfl
  · exact h.bodyLoop rfl

theorem Quiet.afterEntry {c s t} (h : Quiet c s t) (hc : parsesHeader c = true) : KeepsFrame c s
    (afterEntry c t) ∧ staysIn c (afterEntry c t) := by
  rcases parsesHeader_cases hc with rfl | rfl | rfl <;> simp only [Machine.afterEntry]
  · exact h.complete
  · split
    · exact h.complete
    · exact h.goTo ⟨.inl rfl, hc⟩
  · split
    · exact h.bodyLoop rfl
    · exact h.goTo ⟨.inl rfl, hc⟩

theorem Quiet.refl {c s} (he : s.err = false) (hp : s.pend = .none) : Quiet c s s := by
  refine ⟨?_, ⟨rfl, rfl, rfl, rfl⟩, rfl, rfl, rfl, ⟨rfl, rfl⟩, List.prefix_rfl, List.prefix_rfl, hp, he⟩
  cases c <;> simp [ownFrame, sameWriter, sameResult, sameMap, sameSymBuf, sameBody, sameHost, sameReader]

theorem Quiet.hdr {c s} (hc : parsesHeader c = true) (he : s.err = false) (hp : s.pend = .none) {m : List MapEntry}
    {ml} {sb sl hd} (hm : s.map <+: m) :
   Quiet c s { s with map := m, maxLen := ml, symBuf := sb, symBufLen := sl, hdrDone := hd } := by
  refine ⟨?_, ⟨rfl, rfl, rfl, rfl⟩, rfl, rfl, rfl, ⟨rfl, rfl⟩, hm, List.prefix_rfl, hp, he⟩
  rcases parsesHeader_cases hc with rfl | rfl | rfl <;> simp [ownFrame, sameWriter, sameResult,
      sameBody, sameHost]

theorem Quiet.body {c s} (hc : decodesBody c = true) (he : s.err = false) (hp : s.pend = .none) {a b d e f g h i} :
    Quiet c s { s with
      cand := a, candLen := b, symCount := d, lastSymV := e, lastSymIdx := f, done := g, outReady := i,
      outStream := s.outStream ++ h } := by
  refine ⟨?_, ⟨rfl, rfl, rfl, rfl⟩, rfl, rfl, rfl, ⟨rfl, rfl⟩, List.prefix_rfl, List.prefix_append _ _, hp, he⟩
  rcases decodesBody_cases hc with rfl | rfl | rfl | rfl <;> simp [ownFrame, sameWriter, sameResult, sameMap,
      sameSymBuf, sameHost]

theorem Quiet.start {c s t n r} (h : Quiet c s t) (hf : requestFits c (.read n 0 0 r) .none) : KeepsFrame c s
    (startRead c n r t) ∧ staysIn c (startRead c n r t) := h.goTo hf

theorem requestFits_header {c : Instr} (hc : parsesHeader c = true) {n k v r} (hr : r ≠ .rd ∧ r ≠ .bodyBit) :
    requestFits c (.read n k v r) .none := by
  refine ⟨.inl rfl, ?_⟩
  cases r <;> simp_all [readsFor]

theorem ne_reset_of_parses {c} (hc : parsesHeader c = true) : c ≠ .reset := by rintro rfl; cases hc

theorem ne_reset_of_decodes {c} (hc : decodesBody c = true) : c ≠ .reset := by rintro rfl; cases hc

theorem Quiet.headerEnd {c s t} (h : Quiet c s { t with hdrDone := true }) (hc : parsesHeader c = true) :
    KeepsFrame c s (headerEnd c t) ∧ staysIn c (headerEnd c t) := h.afterEntry hc

theorem afterSymbol_keepsFrame {c s sb sl} (hc : parsesHeader c = true) (he : s.err = false) (hp : s.pend = .none) :
    KeepsFrame c s (afterSymbol c { s with symBuf := sb, symBufLen := sl }) ∧
      staysIn c (afterSymbol c { s with symBuf := sb, symBufLen := sl }) := by
  have q : Quiet c s
      { s with symBuf := sb, symBufLen := sl } := Quiet.hdr (hd := s.hdrDone) hc he hp (List.prefix_rfl)
  have q' : Quiet c s
      { s with symBuf := sb, symBufLen := sl, hdrDone := true } := Quiet.hdr hc he hp (List.prefix_rfl)
  unfold afterSymbol
  split
  · exact q.raise (ne_reset_of_parses hc) _
  · split
    · split
      · exact q.start (requestFits_header hc (by simp))
      · exact Quiet.headerEnd q' hc
    · exact q.start (requestFits_header hc (by simp))

theorem readReturn_keepsFrame {c s r n k v} (he : s.err = false) (hp : s.pend = .none)
    (hc : readsFor c r) :
    KeepsFrame c s (readReturn c r n k v s) ∧ staysIn c (readReturn c r n k v s) := by
  have q : Quiet c s s := Quiet.refl he hp
  cases r <;> simp only [readReturn, readsFor] at hc ⊢
  case rd =>
    obtain ⟨m, rfl⟩ := hc
    refine ⟨⟨?_, .inr ⟨⟨rfl, rfl, rfl, rfl⟩, rfl, .inr ⟨rfl, rfl⟩⟩, rfl, ?_, List.prefix_rfl, List.prefix_rfl⟩,
        .inl ⟨rfl, hp⟩⟩
    · simp [ownFrame, sameWriter, sameMap, sameSymBuf, sameBody, sameHost, rdReturn]
    · rintro (h | h)
      · simp [rdReturn, State.busy] at h
      · simp [rdReturn, he] at h
  case symLen =>
    unfold symLenReturn
    split
    · exact q.raise (ne_reset_of_parses hc) _
    · split
      · exact q.raise (ne_reset_of_parses hc) _
      · split
        · exact q.raise (ne_reset_of_parses hc) _
        · exact q.start (requestFits_header hc (by simp))
  case symByte m i =>
    unfold symByteReturn
    split
    · exact q.raise (ne_reset_of_parses hc) _
    · simp only
      split
      · exact (Quiet.hdr (sb := putSymByte s.symBuf i (v.setWidth 8)) (sl := s.symBufLen) (hd := s.hdrDone)
          (ml := s.maxLen) hc he hp List.prefix_rfl).start (requestFits_header hc (by simp))
      · exact afterSymbol_keepsFrame hc he hp
  case tailLen =>
    unfold tailLenReturn
    split
    · exact q.raise (ne_reset_of_parses hc) _
    · exact q.start (requestFits_header hc (by simp))
  case tailCode =>
    unfold tailCodeReturn
    split
    · exact q.raise (ne_reset_of_parses hc) _
    · exact Quiet.headerEnd (Quiet.hdr hc he hp List.prefix_rfl) hc
  case clen =>
    unfold clenReturn
    split
    · exact q.raise (ne_reset_of_parses hc) _
    · split
      · exact q.raise (ne_reset_of_parses hc) _
      · exact q.start (requestFits_header hc (by simp))
  case code =>
    unfold codeReturn
    split
    · exact q.raise (ne_reset_of_parses hc) _
    · split
      · exact q.raise (ne_reset_of_parses hc) _
      · split
        · exact q.raise (ne_reset_of_parses hc) _
        · exact Quiet.afterEntry (Quiet.hdr (sb := s.symBuf) (sl := s.symBufLen) (hd := s.hdrDone) hc he hp
            (List.prefix_append _ _)) hc
  case bodyBit =>
    unfold bodyBitReturn
    split
    · exact q.raise (ne_reset_of_decodes hc) _
    · simp only
      split
      · rename_i e hm
        unfold bodyMatch
        simp only
        split
        · have := (Quiet.body (s := s) (a := 0) (b := 0) (d := s.symCount) (e := true) (f := BitVec.ofNat 16 e)
            (g := true) (h := []) (i := s.outReady) hc he hp).afterBodyStep hc true
          simpa using this
        · have := (Quiet.body (s := s) (a := 0) (b := 0) (d := s.symCount) (e := true) (f := BitVec.ofNat 16 e)
            (g := s.done) (h := []) (i := s.outReady) hc he hp).goTo (p := .emit e 0) ⟨.inl rfl, hc⟩
          simpa using this
      · unfold bodyNoMatchYet
        have q2 := (Quiet.body (s := s) (a := shiftIn s.cand (v.getLsbD 0)) (b := s.candLen + 1) (d := s.symCount)
            (e := s.lastSymV) (f := s.lastSymIdx) (g := s.done) (h := []) (i := s.outReady) hc he hp)
        simp only [List.append_nil] at q2
        split
        · exact q2.raise (ne_reset_of_decodes hc) _
        · exact q2.afterBodyStep hc false

/-- One operation of command `c` keeps its frame (R261). -/
theorem unitOp_keepsFrame {c p s} (hc : s.cur = some ⟨c, p⟩) (hf : requestFits c p s.pend) (he : s.err = false)
    : KeepsFrame c s (unitOp s) ∧ staysIn c (unitOp s) := by
  have hself : KeepsFrame c s s ∧ staysIn c s := by
    refine ⟨⟨?_, .inr ⟨⟨rfl, rfl, rfl, rfl⟩, rfl, .inl rfl⟩, rfl, fun _ => ⟨rfl, rfl⟩, List.prefix_rfl,
        List.prefix_rfl⟩, .inr ⟨p, hc, hf⟩⟩
    cases c <;> simp [ownFrame, sameWriter, sameResult, sameMap, sameSymBuf, sameBody, sameHost, sameReader]
  unfold unitOp
  rw [hc]
  simp only
  cases hp : s.pend with
  | none =>
    simp only [posOp]
    cases p with
    | read n k v r =>
      simp only [readOp]
      split
      · split
        · split
          · exact readReturn_keepsFrame he hp hf.2
          · refine ⟨⟨?_, .inr ⟨⟨rfl, rfl, rfl, rfl⟩, rfl, .inl rfl⟩, rfl, fun _ => ⟨rfl, rfl⟩, List.prefix_rfl,
              List.prefix_rfl⟩, .inr ⟨_, hc, ⟨.inr rfl, hf.2⟩⟩⟩
            cases c <;> simp [ownFrame, sameWriter, sameResult, sameMap, sameSymBuf, sameBody, sameHost, sameReader]
        · refine ⟨⟨?_, .inr ⟨⟨rfl, rfl, rfl, rfl⟩, rfl, .inl rfl⟩, rfl, fun _ => ⟨rfl, rfl⟩, List.prefix_rfl,
            List.prefix_rfl⟩, .inr ⟨_, rfl, ⟨.inl hp, hf.2⟩⟩⟩
          have h2 := hf.2
          cases c <;> simp [ownFrame, sameWriter, sameResult, sameMap, sameSymBuf, sameBody, sameHost, sameReader]
          all_goals (cases r <;> simp [readsFor, parsesHeader, decodesBody] at h2)
      · exact readReturn_keepsFrame he hp hf.2
    | emit e i =>
      simp only [emitOp]
      split
      · refine ⟨⟨?_, .inr ⟨⟨rfl, rfl, rfl, rfl⟩, rfl, .inl rfl⟩, rfl, fun _ => ⟨rfl, rfl⟩, List.prefix_rfl,
          List.prefix_rfl⟩, .inr ⟨_, rfl, ⟨.inr ⟨_, rfl⟩, hf.2⟩⟩⟩
        cases c <;> simp [ownFrame, sameWriter, sameResult, sameMap, sameSymBuf, sameBody, sameHost, sameReader]
      · have q2 := (Quiet.body (s := s) (a := s.cand) (b := s.candLen) (d := s.symCount + 1) (e := s.lastSymV)
          (f := s.lastSymIdx) (g := s.done) (h := []) (i := s.outReady) hf.2 he hp)
        simp only [List.append_nil] at q2
        exact q2.afterBodyStep hf.2 true
    | write n i =>
      obtain ⟨m, rfl⟩ := hf.2
      simp only [writeOp]
      split
      · split
        · refine ⟨⟨?_, .inr ⟨⟨rfl, rfl, rfl, rfl⟩, rfl, .inl rfl⟩, rfl, fun _ => ⟨rfl, rfl⟩, List.prefix_rfl,
            List.prefix_rfl⟩, .inr ⟨_, rfl, ⟨.inr ⟨_, rfl⟩, hf.2⟩⟩⟩
          simp [ownFrame, sameResult, sameMap, sameSymBuf, sameBody, sameHost, sameReader]
        · refine ⟨⟨?_, .inr ⟨⟨rfl, rfl, rfl, rfl⟩, rfl, .inl rfl⟩, rfl, fun _ => ⟨rfl, rfl⟩, List.prefix_rfl,
            List.prefix_rfl⟩, .inr ⟨_, rfl, ⟨.inl hp, hf.2⟩⟩⟩
          simp [ownFrame, sameResult, sameMap, sameSymBuf, sameBody, sameHost, sameReader]
      · exact (Quiet.refl he hp).complete
    | flush =>
      obtain rfl := hf.2
      simp only [flushOp]
      split
      · exact (Quiet.refl he hp).complete
      · refine ⟨⟨?_, .inr ⟨⟨rfl, rfl, rfl, rfl⟩, rfl, .inl rfl⟩, rfl, fun _ => ⟨rfl, rfl⟩, List.prefix_rfl,
          List.prefix_rfl⟩, .inr ⟨_, hc, ⟨.inr ⟨_, rfl⟩, hf.2⟩⟩⟩
        simp [ownFrame, sameResult, sameMap, sameSymBuf, sameBody, sameHost, sameReader]
  | src =>
    have : ∃ n k v r, p = .read n k v r := by
      cases p <;> simp [requestFits, hp] at hf
      exact ⟨_, _, _, _, rfl⟩
    obtain ⟨n, k, v, r, rfl⟩ := this
    have h2 := hf.2
    simp only
    split
    · exact hself
    · rename_i a l hl
      cases a with
      | byte b =>
        refine ⟨⟨?_, .inr ⟨⟨rfl, rfl, rfl, rfl⟩, rfl, .inl rfl⟩, rfl, fun _ => ⟨rfl, rfl⟩, List.prefix_rfl,
            List.prefix_rfl⟩, .inr ⟨.read n k v r, rfl, ⟨.inl rfl, hf.2⟩⟩⟩
        cases c <;> simp [ownFrame, answerSrc, sameWriter, sameResult, sameMap, sameSymBuf, sameBody, sameHost,
            sameReader]
        all_goals (cases r <;> simp [readsFor, parsesHeader, decodesBody] at h2)
      | endOfData =>
        refine ⟨⟨?_, .inr ⟨⟨rfl, rfl, rfl, rfl⟩, rfl, .inl rfl⟩, rfl, fun _ => ⟨rfl, rfl⟩, List.prefix_rfl,
            List.prefix_rfl⟩, .inr ⟨.read n k v r, rfl, ⟨.inl rfl, hf.2⟩⟩⟩
        cases c <;> simp [ownFrame, answerSrc, sameWriter, sameResult, sameMap, sameSymBuf, sameBody, sameHost,
            sameReader]
        all_goals (cases r <;> simp [readsFor, parsesHeader, decodesBody] at h2)
      | error =>
        refine ⟨⟨?_, .inl ⟨.ioError 0, rfl, rfl, rfl, rfl, rfl, rfl, rfl, rfl⟩, rfl, fun _ => ⟨rfl, rfl⟩,
            List.prefix_rfl, List.prefix_rfl⟩, .inl ⟨rfl, rfl⟩⟩
        cases c <;> simp [ownFrame, answerSrc, sameWriter, sameResult, sameMap, sameSymBuf, sameBody, sameHost,
            sameReader]
        all_goals (cases r <;> simp [readsFor, parsesHeader, decodesBody] at h2)
  | out b =>
    have : decodesBody c = true := by
      cases p <;> simp [requestFits, hp] at hf
      exact hf
    simp only
    split
    · exact hself
    · rename_i a l hl
      cases a with
      | ack =>
        refine ⟨⟨?_, .inr ⟨⟨rfl, rfl, rfl, rfl⟩, rfl, .inl rfl⟩, rfl, fun _ => ⟨rfl, rfl⟩, List.prefix_rfl,
            List.prefix_append _ _⟩, .inr ⟨p, rfl, ?_⟩⟩
        · rcases decodesBody_cases this with rfl | rfl | rfl | rfl <;> simp [ownFrame, answerOut, sameWriter,
            sameResult, sameMap, sameSymBuf, sameHost]
        · cases p <;> simp [requestFits, hp] at hf
          exact ⟨.inl rfl, hf⟩
      | error =>
        refine ⟨⟨?_, .inl ⟨.ioError 1, rfl, rfl, rfl, rfl, rfl, rfl, rfl, rfl⟩, rfl, fun _ => ⟨rfl, rfl⟩,
            List.prefix_rfl, List.prefix_rfl⟩, .inl ⟨rfl, rfl⟩⟩
        rcases decodesBody_cases this with rfl | rfl | rfl | rfl <;> simp [ownFrame, answerOut, sameWriter,
            sameResult, sameMap, sameSymBuf, sameHost]
  | wout b =>
    have : (∃ n, c = .wr n) ∨ c = .flush := by
      cases p <;> simp [requestFits, hp] at hf
      · exact .inl hf
      · exact .inr hf
    simp only
    split
    · exact hself
    · rename_i a l hl
      cases a with
      | ack =>
        refine ⟨⟨?_, .inr ⟨⟨rfl, rfl, rfl, rfl⟩, rfl, .inl rfl⟩, rfl, fun _ => ⟨rfl, rfl⟩, List.prefix_rfl,
            List.prefix_rfl⟩, .inr ⟨p, rfl, ?_⟩⟩
        · rcases this with ⟨n, rfl⟩ | rfl <;> simp [ownFrame, answerWout, sameResult, sameMap,
            sameSymBuf, sameBody, sameHost, sameReader]
        · cases p <;> simp [requestFits, hp] at hf <;> exact ⟨.inl rfl, hf⟩
      | error =>
        refine ⟨⟨?_, .inl ⟨.ioError 2, rfl, rfl, rfl, rfl, rfl, rfl, rfl, rfl⟩, rfl, fun _ => ⟨rfl, rfl⟩,
            List.prefix_rfl, List.prefix_rfl⟩, .inl ⟨rfl, rfl⟩⟩
        rcases this with ⟨n, rfl⟩ | rfl <;> simp [ownFrame, answerWout, raiseWout, sameResult, sameMap,
            sameSymBuf, sameBody, sameHost, sameReader]

theorem KeepsFrame.trans {c s t u} (h : KeepsFrame c s t) (h' : KeepsFrame c t u) (hq : t.busy = true)
    (he : t.err = false) (hcr : c ≠ .reset) : KeepsFrame c s u := by
  obtain ⟨a1, a2, a3, a4, a5, a6⟩ := h
  obtain ⟨b1, b2, b3, b4, b5, b6⟩ := h'
  have hres := a4 (.inl hq)
  refine ⟨?_, ?_, b3.trans a3, fun hh => ⟨(b4 hh).1.trans hres.1, (b4 hh).2.trans hres.2⟩, a5.trans b5, a6.trans b6⟩
  · cases c <;> simp_all [ownFrame, sameWriter, sameResult, sameMap, sameSymBuf, sameBody, sameHost, sameReader]
  · rcases a2 with ⟨k, hk⟩ | ⟨s1, s2, s3⟩
    · rw [hk.1] at he; cases he
    · rcases b2 with hk | ⟨t1, t2, t3⟩
      · exact .inl hk
      · right
        refine ⟨⟨t1.1.trans s1.1, t1.2.1.trans s1.2.1, t1.2.2.1.trans s1.2.2.1, t1.2.2.2.trans s1.2.2.2⟩,
            t2.trans s2, ?_⟩
        rcases s3 with s3 | ⟨s3, s4⟩
        · rcases t3 with t3 | t3
          · exact .inl (t3.trans s3)
          · exact .inr t3
        · rw [s4] at hq; cases hq

end Sys2Proof.Machine
end

