-- ==== Sys2Proof/Laws/Invariant.lean ====
section
/-! SUPPORT. Each operation of the unit and each command keeps the invariant. `RunInv` and `SteadyInv` are what holds inside a
running command, between its operations. -/

namespace Sys2Proof.Machine

/-- The part of the invariant that does not speak of CUR, PEND or errors, for a running command. -/
structure RunInv (s : State) : Prop where
  noErr : s.err = false ∧ s.errCause = 0 ∧ s.errInfo = 0 ∧ s.errPos = 0
  rstLow : s.rst = false
  params : paramsLegal s.params = true
  bufBound : s.brCnt.toNat ≤ 7
  endEmpty : s.srcEnd = true → s.brCnt = 0
  readAhead : s.brPos + s.brCnt.setWidth 32 = BitVec.ofNat 32 (8 * s.srcStream.length)
  accBound : s.bwCnt.toNat ≤ 7
  accZeros : s.bwAcc.toNat % 2 ^ (8 - s.bwCnt.toNat) = 0
  result : s.resCnt.toNat ≤ 32 ∧ s.resVal.toNat < 2 ^ s.resCnt.toNat
  entries : ∀ x ∈ s.map, entryOk s.params x
  codes : s.map.Pairwise (fun x y => ¬(x.clen = y.clen ∧ x.code = y.code))
  capacity : s.map.length ≤ s.params.mapEntries
  maxLen : s.maxLen.toNat = maxCodeLen s.map
  doneHdr : s.done = true → s.hdrDone = true
  candBound : s.candLen.toNat ≤ s.maxLen.toNat + 1 ∧ s.cand.toNat < 2 ^ s.candLen.toNat
  candHeader : s.hdrDone = false → s.candLen = 0 ∧ s.symCount = 0 ∧ s.lastSymV = false
  lastSym : s.lastSymV = true → s.lastSymIdx.toNat < s.map.length
  doneEof : s.done = true → s.lastSymV = true ∧ entrySym s.map s.lastSymIdx.toNat = s.params.eofBytes

theorem RunInv.ne8 {s : State} (h : RunInv s) : s.brCnt ≠ 8 := by
  intro e
  have := h.bufBound
  rw [e] at this
  simp at this

theorem RunInv.acc8 {s : State} (h : RunInv s) : s.bwCnt ≠ 8 := by
  intro e
  have := h.accBound
  rw [e] at this
  simp at this

theorem RunInv.raise {s : State} (h : RunInv s) (c : Cause) (hc : 1 ≤ c.code.toNat ∧ c.code.toNat ≤ 13) : Inv
    (raise c s) where
  params := h.params
  idle := fun _ => rfl
  inReset := fun _ => rfl
  position := by intro c hc; simp at hc
  bufBound := by have := h.bufBound; simp; omega
  bufFresh := fun e => absurd e h.ne8
  endEmpty := h.endEmpty
  readAhead := h.readAhead
  accBound := by have := h.accBound; simp; omega
  accFull := fun e => absurd e h.acc8
  accZeros := .inr h.accZeros
  noError := by simp [Machine.raise]
  anError := fun _ => ⟨rfl, hc⟩
  result := h.result
  entries := h.entries
  codes := h.codes
  capacity := h.capacity
  maxLen := h.maxLen
  doneHdr := h.doneHdr
  candBound := h.candBound
  candShort := by simp [Machine.raise]
  candHeader := h.candHeader
  lastSym := h.lastSym
  doneEof := h.doneEof

theorem code_bound (c : Cause) : 1 ≤ c.code.toNat ∧ c.code.toNat ≤ 13 := by cases c <;> simp [Cause.code]

theorem RunInv.complete {s : State} (h : RunInv s) (hc : s.candLen.toNat ≤ s.maxLen.toNat) (hp : s.pend = .none)
    : Inv (complete s) where
  params := h.params
  idle := fun _ => hp
  inReset := fun _ => rfl
  position := by intro c hc; simp at hc
  bufBound := by have := h.bufBound; simp; omega
  bufFresh := fun e => absurd e h.ne8
  endEmpty := h.endEmpty
  readAhead := h.readAhead
  accBound := by have := h.accBound; simp; omega
  accFull := fun e => absurd e h.acc8
  accZeros := .inr h.accZeros
  noError := fun _ => h.noErr.2
  anError := by simp [h.noErr.1]
  result := h.result
  entries := h.entries
  codes := h.codes
  capacity := h.capacity
  maxLen := h.maxLen
  doneHdr := h.doneHdr
  candBound := h.candBound
  candShort := fun _ => hc
  candHeader := h.candHeader
  lastSym := h.lastSym
  doneEof := h.doneEof

theorem RunInv.goTo {s : State} (h : RunInv s) (hc : s.candLen.toNat ≤ s.maxLen.toNat) (hp : s.pend = .none)
    {i : Instr} {p : Pos} (hpos : posOk (goTo i p s) i p) :
    Inv (goTo i p s) where
  params := h.params
  idle := by simp
  inReset := by simp [h.rstLow]
  position := by intro c hc; simp at hc; subst hc; exact ⟨hpos, by simp [hp, pendOk]⟩
  bufBound := by have := h.bufBound; simp; omega
  bufFresh := fun e => absurd e h.ne8
  endEmpty := h.endEmpty
  readAhead := h.readAhead
  accBound := by have := h.accBound; simp; omega
  accFull := fun e => absurd e h.acc8
  accZeros := .inr h.accZeros
  noError := fun _ => h.noErr.2
  anError := by simp [h.noErr.1]
  result := h.result
  entries := h.entries
  codes := h.codes
  capacity := h.capacity
  maxLen := h.maxLen
  doneHdr := h.doneHdr
  candBound := h.candBound
  candShort := fun _ => hc
  candHeader := h.candHeader
  lastSym := h.lastSym
  doneEof := h.doneEof

/-- Running, with the candidate within the longest code. -/
structure SteadyInv (s : State) : Prop where
  run : RunInv s
  cand : s.candLen.toNat ≤ s.maxLen.toNat
  pend : s.pend = .none

theorem SteadyInv.startBody {s : State} (h : SteadyInv s) {c : Instr} (hc : decodesBody c = true)
    (hh : s.hdrDone = true) (hd : s.done = false) : Inv (startBodyStep c s) :=
  h.run.goTo h.cand h.pend ⟨by omega, by simp, hc, hh, hd, rfl⟩

theorem SteadyInv.bodyLoop {s : State} (h : SteadyInv s) {c : Instr} (hc : decodesBody c = true)
    (hh : s.hdrDone = true) : Inv (bodyLoop c s) := by
  unfold Machine.bodyLoop
  split
  · exact h.run.complete h.cand h.pend
  · rename_i hd; exact h.startBody hc hh (by simpa using hd)

theorem SteadyInv.afterBodyStep {s : State} (h : SteadyInv s) {c : Instr} (hc : decodesBody c = true)
    (hh : s.hdrDone = true) (m : Bool) (hd : m = false → s.done = false) :
    Inv (afterBodyStep c m s) := by
  cases c <;> simp only [Machine.afterBodyStep] <;>
    first | exact h.run.complete h.cand h.pend | exact h.bodyLoop rfl hh | skip
  split
  · exact h.run.complete h.cand h.pend
  · rename_i hm; exact h.startBody rfl hh (hd (by simpa using hm))

theorem SteadyInv.startEntry {s : State} (h : SteadyInv s) {c : Instr} (hc : parsing s c) : Inv (startEntry c s) :=
  h.run.goTo h.cand h.pend ⟨by omega, by simp, hc, rfl⟩

theorem SteadyInv.afterEntry {s : State} (h : SteadyInv s) {c : Instr} (hp : parsesHeader c = true)
    (h1 : 1 ≤ s.cfgL.toNat) (h2 : s.cfgL.toNat ≤ 32) : Inv (afterEntry c s) := by
  rcases parsesHeader_cases hp with rfl | rfl | rfl <;> simp only [Machine.afterEntry]
  · exact h.run.complete h.cand h.pend
  · split
    · exact h.run.complete h.cand h.pend
    · rename_i hh; exact h.startEntry ⟨rfl, by simpa using hh, h1, h2⟩
  · split
    · rename_i hh; exact h.bodyLoop rfl hh
    · rename_i hh; exact h.startEntry ⟨rfl, by simpa using hh, h1, h2⟩

theorem SteadyInv.startRead {s : State} (h : SteadyInv s) {c : Instr} {n : Nat} {r : ReadFor}
    (hc : callerOk s c n r) : Inv (startRead c n r s) := by
  refine h.run.goTo h.cand h.pend ⟨by omega, by simp, ?_⟩
  cases r <;> exact hc

theorem SteadyInv.raise {s : State} (h : SteadyInv s) (c : Cause) : Inv (raise c s) := h.run.raise c (code_bound c)

theorem SteadyInv.headerEnd {s : State} (h : SteadyInv s) {c : Instr} (hc : parsing s c) : Inv (headerEnd c s) := by
  have hr := h.run
  exact SteadyInv.afterEntry (s := { s with hdrDone := true }) ⟨
      { hr with doneHdr := fun _ => rfl, candHeader := by simp }, h.cand, h.pend⟩ hc.1 hc.2.2.1 hc.2.2.2

theorem symbolOk_of {s : State} {n : Nat} (h1 : 1 ≤ n) (h2 : n ≤ s.params.symBytesMax)
    (hl : (parsedSym s).length = n) (hne : parsedSym s ≠ s.params.mapEndBytes)
   (hu : ¬ (s.params.checkUtf8 && !wellFormedUtf8 (parsedSym s)) = true) : symbolOk s.params (parsedSym s) := by
  refine ⟨by omega, by omega, hne, fun hc => ?_⟩
  simpa [hc] using hu

theorem SteadyInv.afterSymbol {s : State} (h : SteadyInv s) {c : Instr} (hc : parsing s c) {n : Nat} (h1 : 1 ≤ n)
    (h2 : n ≤ s.params.symBytesMax) (hl : (parsedSym s).length = n) : Inv (afterSymbol c s) := by
  unfold Machine.afterSymbol
  split
  · exact h.raise _
  · rename_i hu
    split
    · split
      · exact h.startRead ⟨hc, rfl⟩
      · exact h.headerEnd hc
    · rename_i hne
      exact h.startRead ⟨hc, rfl, symbolOk_of h1 h2 hl hne hu⟩

theorem SteadyInv.symLenReturn {s : State} (h : SteadyInv s) {c : Instr} (hc : parsing s c) (n k : Nat) (v : Word)
    : Inv (symLenReturn c n k v s) := by
  unfold Machine.symLenReturn
  split
  · exact h.raise _
  · split
    · exact h.raise _
    · split
      · exact h.raise _
      · exact h.startRead ⟨hc, rfl, by omega, by omega, by omega⟩

theorem SteadyInv.symByteReturn {s : State} (h : SteadyInv s) {c : Instr} (hc : parsing s c) {n i k : Nat}
    {v : Word} (hi : i < n) (hn : n ≤ s.params.symBytesMax) (hb : i ≤ s.symBuf.length) : Inv
    (symByteReturn c n i k v s) := by
  have hr := h.run
  have hlen : (putSymByte s.symBuf i (v.setWidth 8)).length = i + 1 := by simp [putSymByte]; omega
  unfold Machine.symByteReturn
  split
  · exact h.raise _
  · simp only
    split
    · exact SteadyInv.startRead (s := { s with symBuf := putSymByte s.symBuf i (v.setWidth 8) }) (r := .symByte n
        (i + 1)) ⟨{ hr with }, h.cand, h.pend⟩ ⟨hc, rfl, by omega, by omega, by simp [hlen]⟩
    · have hp := hr.params
      simp [paramsLegal] at hp
      refine SteadyInv.afterSymbol (s :=
          { s with symBuf := putSymByte s.symBuf i (v.setWidth 8), symBufLen := BitVec.ofNat 16 n })
        ⟨{ hr with }, h.cand, h.pend⟩ hc (n := n) (by omega) hn ?_
      simp [parsedSym, hlen]; omega

theorem SteadyInv.tailLenReturn {s : State} (h : SteadyInv s) {c : Instr} (hc : parsing s c) {k : Nat} {v : Word}
    (hk : k ≤ 5) (hv : v.toNat < 2 ^ k) : Inv (tailLenReturn c k v s) := by
  unfold Machine.tailLenReturn
  split
  · exact h.raise _
  · have : k = 5 := by omega
    subst this
    exact h.startRead ⟨hc, by omega⟩

theorem SteadyInv.tailCodeReturn {s : State} (h : SteadyInv s) {c : Instr} (hc : parsing s c) {n k : Nat} : Inv
    (tailCodeReturn c n k s) := by
  unfold Machine.tailCodeReturn
  split
  · exact h.raise _
  · exact h.headerEnd hc

theorem SteadyInv.clenReturn {s : State} (h : SteadyInv s) {c : Instr} (hc : parsing s c)
    (hs : symbolOk s.params (parsedSym s)) {k : Nat} {v : Word} (hk : k ≤ 5) (hv : v.toNat < 2 ^ k) : Inv
    (clenReturn c k v s) := by
  unfold Machine.clenReturn
  split
  · exact h.raise _
  · have : k = 5 := by omega
    subst this
    split
    · exact h.raise _
    · exact h.startRead ⟨hc, by omega, by omega, hs⟩

theorem SteadyInv.codeReturn {s : State} (h : SteadyInv s) {c : Instr} (hc : parsing s c)
    (hs : symbolOk s.params (parsedSym s)) {n k : Nat} {v : Word} (h1 : 1 ≤ n) (h31 : n ≤ 31) (hk : k ≤ n)
    (hv : v.toNat < 2 ^ k) : Inv (codeReturn c n k v s) := by
  have hr := h.run
  unfold Machine.codeReturn
  split
  · exact h.raise _
  · have : k = n := by omega
    subst this
    split
    · exact h.raise _
    · rename_i hnew
      split
      · exact h.raise _
      · rename_i hroom
        have hch := hr.candHeader hc.2.1
        have hcl : (BitVec.ofNat 5 k).toNat = k := by simp; omega
        have hp31 : 2 ^ k ≤ 2 ^ 31 := Nat.pow_le_pow_right (by omega) h31
        have hcv : (v.setWidth 31).toNat = v.toNat := by simp; omega
        have hmatch : matchCode s.map k v = none := by simpa using hnew
        refine SteadyInv.afterEntry (s := insertEntry _ _ s) ⟨{ hr with
          entries := ?_
          codes := ?_
          capacity := ?_
          maxLen := ?_
          candBound := ?_
          lastSym := ?_
          doneEof := ?_ }, ?_, h.pend⟩ hc.1 hc.2.2.1 hc.2.2.2
        · intro x hx
          rcases List.mem_append.1 hx with hx | hx
          · exact hr.entries x hx
          · simp only [List.mem_singleton] at hx
            subst hx
            exact ⟨by simp only [hcl]; omega, by simp only [hcl, hcv]; exact hv, hs⟩
        · simp only [insertEntry]
          rw [List.pairwise_append]
          refine ⟨hr.codes, List.pairwise_singleton _ _, ?_⟩
          intro a ha b hb
          simp only [List.mem_singleton] at hb
          subst hb
          rintro ⟨e1, e2⟩
          rw [matchCode, List.findIdx?_eq_none_iff] at hmatch
          have := hmatch a ha
          rw [e1, e2] at this
          simp [hcl] at this
          apply this
          apply BitVec.eq_of_toNat_eq; simp; omega
        · have := hr.capacity; simp [insertEntry]; omega
        · simp only [insertEntry, maxCodeLen_append, ← hr.maxLen]
          split <;> omega
        · simp [insertEntry, hch.1]; have := hr.candBound.2; rw [hch.1] at this; simpa using this
        · simp [hch.2.2]
        · intro hd; have := hr.doneHdr hd; rw [hc.2.1] at this; cases this
        · simp [insertEntry, hch.1]

theorem SteadyInv.rdReturn {s : State} (h : SteadyInv s) {k : Nat} {v : Word} (hk : k ≤ 32) (hv : v.toNat < 2 ^ k)
    : Inv (rdReturn k v s) := by
  have hr := h.run
  have e : (BitVec.ofNat 6 k).toNat = k := by simp; omega
  refine RunInv.complete { hr with result := ?_ } h.cand h.pend
  simp only [e]; exact ⟨hk, hv⟩

theorem SteadyInv.bodyMatch {s : State} (hr : RunInv s) (hp : s.pend = .none) {c : Instr}
    (hc : decodesBody c = true) (hh : s.hdrDone = true) (hd : s.done = false) {e : Nat}
    (he : e < s.map.length) : Inv (bodyMatch c e s) := by
  have hpar := hr.params
  simp [paramsLegal] at hpar
  have hcap := hr.capacity
  have e16 : (BitVec.ofNat 16 e).toNat = e := by simp; omega
  unfold Machine.bodyMatch
  simp only
  split
  · rename_i heof
    refine SteadyInv.afterBodyStep (m := true) (s :=
        { s with lastSymV := true, lastSymIdx := BitVec.ofNat 16 e, cand := 0, candLen := 0, done := true }) ⟨{ hr with
      doneHdr := fun _ => hh, candBound := by simp, candHeader := by simp [hh],
          lastSym := by intro _; rw [e16]; exact he
      doneEof := by intro _; rw [e16]; exact ⟨rfl, heof⟩ }, by simp, hp⟩ hc hh (by simp)
  · refine RunInv.goTo (s :=
      { s with lastSymV := true, lastSymIdx := BitVec.ofNat 16 e, cand := 0, candLen := 0 }) { hr with
      candBound := by simp, candHeader := by simp [hh], lastSym := by intro _; rw [e16]; exact he
      doneEof := by simp [hd] } (by simp) hp ?_
    exact ⟨hc, hh, hd, rfl, he, by omega⟩

theorem matchCode_lt {m : List MapEntry} {k : Nat} {v : Word} {e : Nat} (h : matchCode m k v = some e)
    : e < m.length := by
  rw [matchCode, List.findIdx?_eq_some_iff_getElem] at h
  exact h.1

theorem SteadyInv.bodyBitReturn {s : State} (h : SteadyInv s) {c : Instr} (hc : decodesBody c = true)
    (hh : s.hdrDone = true) (hd : s.done = false) (k : Nat) (v : Word) : Inv (bodyBitReturn c k v s) := by
  have hr := h.run
  unfold Machine.bodyBitReturn
  split
  · exact h.raise _
  · simp only
    have h5 := s.maxLen.isLt
    have hcl : (s.candLen + 1).toNat = s.candLen.toNat + 1 := by have := h.cand; bv_omega
    have hsh := bitsOf_shiftIn (k := s.candLen.toNat) (v := s.cand) (v.getLsbD 0)
        (by have := h.cand; omega) hr.candBound.2
    have hr' : RunInv { s with cand := shiftIn s.cand (v.getLsbD 0), candLen := s.candLen + 1 } := { hr with
      candBound := by simp only [hcl]; exact ⟨by have := h.cand; omega, hsh.2⟩
      candHeader := by simp [hh] }
    split
    · rename_i e he
      exact SteadyInv.bodyMatch hr' h.pend hc hh hd (matchCode_lt he)
    · unfold bodyNoMatchYet
      split
      · exact hr'.raise _ (code_bound _)
      · rename_i hle
        exact SteadyInv.afterBodyStep (m := false) ⟨hr', by omega, h.pend⟩ hc hh (fun _ => hd)

/-- A `ReadBits` call that has returned leaves the invariant, whoever called it. -/
theorem SteadyInv.readReturn {s : State} (h : SteadyInv s) {c : Instr} {r : ReadFor} {n k : Nat} {v : Word}
    (hc : callerOk s c n r) (hk : k ≤ n) (hv : v.toNat < 2 ^ k) :
    Inv (readReturn c r n k v s) := by
  cases r <;> simp only [Machine.readReturn]
  case rd => exact h.rdReturn (by have := hc.2; omega) hv
  case symLen => exact h.symLenReturn hc.1 _ _ _
  case symByte m i => exact h.symByteReturn hc.1 hc.2.2.1 hc.2.2.2.1 hc.2.2.2.2
  case tailLen => exact h.tailLenReturn hc.1 (by have := hc.2; omega) hv
  case tailCode => exact h.tailCodeReturn hc.1
  case clen => exact h.clenReturn hc.1 hc.2.2 (by have := hc.2.1; omega) hv
  case code => exact h.codeReturn hc.1 hc.2.2.2 hc.2.1 hc.2.2.1 hk hv
  case bodyBit => exact h.bodyBitReturn hc.1 hc.2.1 hc.2.2.1 _ _

theorem Inv.run {s : State} (h : Inv s) {c : Cur} (hc : s.cur = some c) (h8 : s.brCnt.toNat ≤ 7)
    (ha : s.bwCnt.toNat ≤ 7) : RunInv s := by
  have he : s.err = false := by
    cases he : s.err with
    | false => rfl
    | true => have := (h.anError he).1; rw [hc] at this; cases this
  have hr : s.rst = false := by
    cases he : s.rst with
    | false => rfl
    | true => have := h.inReset he; rw [hc] at this; cases this
  exact { h with
    noErr := ⟨he, h.noError he⟩, rstLow := hr, bufBound := h8, accBound := ha
    accZeros := h.accZeros.resolve_left (by simp [State.writerLost, he]) }

theorem Inv.err_of_cur {s : State} (h : Inv s) {c : Cur} (hc : s.cur = some c) : s.err = false := by
  cases he : s.err with
  | false => rfl
  | true => have := (h.anError he).1; rw [hc] at this; cases this

theorem Inv.acc7 {s : State} (h : Inv s) (hp : ∀ b, s.pend ≠ .wout b) : s.bwCnt.toNat ≤ 7 := by
  by_contra hn
  have h8 : s.bwCnt = 8 := BitVec.eq_of_toNat_eq (by have := h.accBound; simp; omega)
  obtain ⟨b, hb⟩ := h.accFull h8
  exact hp b hb

theorem Inv.buf7 {s : State} (h : Inv s) (hf : ¬ freshByte s) : s.brCnt.toNat ≤ 7 := by
  by_contra hn
  have h8 : s.brCnt = 8 := BitVec.eq_of_toNat_eq (by have := h.bufBound; simp; omega)
  exact hf (h.bufFresh h8)

theorem ne_zero_toNat {n} {x : BitVec n} (h : x ≠ 0) : x.toNat ≠ 0 := fun e => h
    (BitVec.eq_of_toNat_eq (by simpa using e))

theorem readOp_inv {s : State} (h : Inv s) {c : Instr} {n k : Nat} {v : Word} {r : ReadFor}
    (hc : s.cur = some { instr := c, pos := .read n k v r }) (hp : s.pend = .none) :
    Inv (readOp c n k v r s) := by
  obtain ⟨hpos, -⟩ := h.position _ hc
  obtain ⟨hkn, hv, hcall⟩ := hpos
  have ha := h.acc7 (by simp [hp])
  have hcand := h.candShort (h.err_of_cur hc)
  unfold readOp
  split
  · rename_i hk
    split
    · rename_i h0
      split
      · exact SteadyInv.readReturn ⟨h.run hc (by rw [h0]; simp) ha, hcand, hp⟩ hcall hkn hv
      · rename_i hse
        exact { h with
          idle := by simp [hc]
          position := by
            intro d hd; simp only [hc, Option.some.injEq] at hd; subst hd
            exact ⟨⟨hkn, hv, hcall⟩, ⟨n, k, v, r, rfl, hk, h0, by simpa using hse⟩⟩
          bufFresh := by simp [h0]
          accFull := fun e => absurd e (by intro e'; rw [e'] at ha; simp at ha) }
    · rename_i h0
      have hn0 := ne_zero_toNat h0
      have h1 : (s.brCnt - 1).toNat = s.brCnt.toNat - 1 := by bv_omega
      have hb := h.bufBound
      have hr0 : s.rst = false := by
        cases he : s.rst with
        | false => rfl
        | true => have := h.inReset he; rw [hc] at this; cases this
      have he := h.err_of_cur hc
      have hrun : RunInv (takeBit s) := { h with
        noErr := ⟨he, h.noError he⟩, rstLow := hr0
        bufBound := by simp only [takeBit_brCnt]; omega
        endEmpty := fun e => absurd (h.endEmpty e) h0
        readAhead := by
          have := h.readAhead
          simp only [takeBit_brCnt, takeBit_brPos, takeBit_srcStream, ← this]
          apply BitVec.eq_of_toNat_eq
          simp [BitVec.toNat_add]; omega
        accBound := ha
        accZeros := h.accZeros.resolve_left (by simp [State.writerLost, he]) }
      refine RunInv.goTo hrun hcand hp ⟨hk, ?_, ?_⟩
      · have h32 : n ≤ 32 := by
          cases r <;> simp only [callerOk] at hcall
          case rd => exact hcall.2
          case symLen => have := hcall.1.2.2.2; omega
          all_goals omega
        exact (bitsOf_shiftIn s.nextBit (by omega) hv).2
      · cases r <;> exact hcall
  · rename_i hk
    have hnf : ¬ freshByte s := by
      rintro ⟨-, c', n', k', v', r', hc', hk'⟩
      rw [hc] at hc'; simp at hc'; omega
    exact SteadyInv.readReturn ⟨h.run hc (h.buf7 hnf) ha, hcand, hp⟩ hcall hkn hv

theorem placeBit_zeros : ∀ (a : Byte) (k : Nat) (b : Bool), k < 8 → a.toNat % 2 ^ (8 - k) = 0 →
    (placeBit a k b).toNat % 2 ^ (8 - (k + 1)) = 0 := by
  intro a k b hk
  have : ∀ k, k < 8 → ∀ (b : Bool) (a : Byte),
      a.toNat % 2 ^ (8 - k) = 0 → (placeBit a k b).toNat % 2 ^ (8 - (k + 1)) = 0 := by decide
  exact this k hk b a

theorem writeOp_inv {s : State} (h : Inv s) {c : Instr} {n i : Nat}
    (hc : s.cur = some { instr := c, pos := .write n i }) (hp : s.pend = .none) :
    Inv (writeOp c n i s) := by
  obtain ⟨hpos, -⟩ := h.position _ hc
  have ha := h.acc7 (by simp [hp])
  have hcand := h.candShort (h.err_of_cur hc)
  have hnf : ¬ freshByte s := by
    rintro ⟨-, c', n', k', v', r', hc', hk'⟩
    rw [hc] at hc'; simp at hc'
  have hrun := h.run hc (h.buf7 hnf) ha
  unfold writeOp
  split
  · rename_i hi
    have h1 : (s.bwCnt + 1).toNat = s.bwCnt.toNat + 1 := by bv_omega
    have hz := placeBit_zeros s.bwAcc s.bwCnt.toNat (writeBit n i s.wdata) (by omega) hrun.accZeros
    simp only
    split
    · rename_i h8
      have h8' : s.bwCnt + 1 = 8 := h8
      refine { h with
        idle := by simp
        inReset := by simp [hrun.rstLow]
        position := ?_
        bufFresh := fun e => absurd e hrun.ne8
        accBound := ?_
        accFull := fun _ => ⟨_, rfl⟩
        accZeros := .inr ?_
        anError := by simp [hrun.noErr.1] }
      · intro d hd; simp at hd; subst hd
        exact ⟨⟨hpos.1, hpos.2.1, hi⟩, rfl,
            by simp only [goTo_bwCnt]; rw [show (putBit (writeBit n i s.wdata) s).bwCnt = 8 from h8']; decide,
            .inl ⟨_, _, rfl⟩⟩
      · simp only [goTo_bwCnt, putBit_bwCnt]; omega
      · simp only [goTo_bwCnt, goTo_bwAcc, putBit, h1]; exact hz
    · rename_i h8
      have h8' : s.bwCnt + 1 ≠ 8 := h8
      have h9 : s.bwCnt.toNat + 1 ≠ 8 := fun e => h8' (BitVec.eq_of_toNat_eq (by rw [h1, e]; rfl))
      refine RunInv.goTo (s := putBit (writeBit n i s.wdata) s)
          { hrun with accBound := ?_, accZeros := ?_ } hcand hp ⟨hpos.1, hpos.2.1, hi⟩
      · simp only [putBit_bwCnt]; omega
      · simp only [putBit, h1]; exact hz
  · exact hrun.complete hcand hp

theorem flushOp_inv {s : State} (h : Inv s) {c : Instr} (hc : s.cur = some { instr := c, pos := .flush })
    (hp : s.pend = .none) :
    Inv (flushOp s) := by
  obtain ⟨hpos, -⟩ := h.position _ hc
  have ha := h.acc7 (by simp [hp])
  have hcand := h.candShort (h.err_of_cur hc)
  have hnf : ¬ freshByte s := by
    rintro ⟨-, c', n', k', v', r', hc', hk'⟩
    rw [hc] at hc'; simp at hc'
  have hrun := h.run hc (h.buf7 hnf) ha
  unfold flushOp
  split
  · exact hrun.complete hcand hp
  · rename_i h0
    exact { h with
      idle := by simp [hc]
      position := by
        intro d hd; simp only [hc, Option.some.injEq] at hd; subst hd
        exact ⟨hpos, rfl, h0, .inr ⟨rfl, Nat.lt_of_le_of_lt ha (by decide)⟩⟩
      bufFresh := fun e => absurd e hrun.ne8
      accFull := fun _ => ⟨_, rfl⟩ }

theorem emitOp_inv {s : State} (h : Inv s) {c : Instr} {e i : Nat}
    (hc : s.cur = some { instr := c, pos := .emit e i }) (hp : s.pend = .none) :
    Inv (emitOp c e i s) := by
  obtain ⟨⟨hd, hh, hdn, hcl, he, hi⟩, -⟩ := h.position _ hc
  have ha := h.acc7 (by simp [hp])
  have hcand := h.candShort (h.err_of_cur hc)
  have hnf : ¬ freshByte s := by
    rintro ⟨-, c', n', k', v', r', hc', hk'⟩
    rw [hc] at hc'; simp at hc'
  have hrun := h.run hc (h.buf7 hnf) ha
  unfold emitOp
  split
  · rename_i b hb
    exact { h with
      idle := by simp
      inReset := by simp [hrun.rstLow]
      position := by
        intro d hd'; simp at hd'; subst hd'
        have := (List.getElem?_eq_some_iff.1 hb).1
        exact ⟨⟨hd, hh, hdn, hcl, he, this⟩, e, i, rfl, hb⟩
      bufFresh := fun e => absurd e hrun.ne8
      accFull := fun e => absurd e hrun.acc8
      anError := by simp [hrun.noErr.1] }
  · exact SteadyInv.afterBodyStep (s := { s with symCount := s.symCount + 1 }) (m := true)
      ⟨{ hrun with candHeader := by simp [hh] }, hcand, hp⟩ hd hh (by simp)

theorem answerSrc_inv {s : State} (h : Inv s) {c : Cur} (hc : s.cur = some c) (hp : s.pend = .src) (a : SrcAnswer)
    : Inv (answerSrc a s) := by
  obtain ⟨hpos, hpd⟩ := h.position _ hc
  rw [hp] at hpd
  obtain ⟨n, k, v, r, hpos', hk, h0, hse⟩ := hpd
  have ha := h.acc7 (by simp [hp])
  have hrun := h.run hc (by rw [h0]; simp) ha
  have hra := hrun.readAhead
  obtain ⟨ci, cp⟩ := c
  simp only at hpos'
  subst hpos'
  cases a with
  | byte b =>
    exact { h with
      idle := fun _ => rfl
      position := by
        intro d hd; simp only [answerSrc, hc, Option.some.injEq] at hd; subst hd
        refine ⟨?_, trivial⟩
        exact ⟨hpos.1, hpos.2.1, by have := hpos.2.2; cases r <;> exact this⟩
      bufBound := by simp [answerSrc]
      bufFresh := fun _ => ⟨rfl, ci, n, k, v, r, hc, hk⟩
      endEmpty := by simp [answerSrc, hse]
      readAhead := by
        rw [h0] at hra
        simp only [answerSrc, List.length_append, List.length_singleton]
        rw [Nat.mul_add, BitVec.ofNat_add, ← hra]; simp
      accFull := fun e => absurd e hrun.acc8 }
  | endOfData =>
    exact { h with
      idle := fun _ => rfl
      position := by
        intro d hd; simp only [answerSrc, hc, Option.some.injEq] at hd; subst hd
        refine ⟨?_, trivial⟩
        exact ⟨hpos.1, hpos.2.1, by have := hpos.2.2; cases r <;> exact this⟩
      bufFresh := fun e => absurd e hrun.ne8
      endEmpty := fun _ => h0
      accFull := fun e => absurd e hrun.acc8 }
  | error => exact hrun.raise _ (code_bound _)

theorem answerOut_inv {s : State} (h : Inv s) {c : Cur} {b : Byte} (hc : s.cur = some c) (hp : s.pend = .out b)
    (a : SinkAnswer) : Inv (answerOut a b s) := by
  obtain ⟨hpos, hpd⟩ := h.position _ hc
  have ha := h.acc7 (by simp [hp])
  have hnf : ¬ freshByte s := by rintro ⟨hpn, -⟩; rw [hp] at hpn; cases hpn
  have hrun := h.run hc (h.buf7 hnf) ha
  cases a with
  | ack =>
    exact { h with
      idle := fun _ => rfl
      position := by
        intro d hd; simp only [answerOut, hc, Option.some.injEq] at hd; subst hd
        refine ⟨?_, trivial⟩
        cases c with | mk ci cp => cases cp with
        | read n k v r => exact ⟨hpos.1, hpos.2.1, by have := hpos.2.2; cases r <;> exact this⟩
        | emit e i => exact hpos
        | write n i => exact hpos
        | flush => exact hpos
      bufFresh := fun e => absurd e hrun.ne8
      accFull := fun e => absurd e hrun.acc8 }
  | error => exact hrun.raise _ (code_bound _)

theorem answerWout_inv {s : State} (h : Inv s) {c : Cur} {b : Byte} (hc : s.cur = some c) (hp : s.pend = .wout b)
    (a : SinkAnswer) : Inv (answerWout a b s) := by
  obtain ⟨hpos, hpd⟩ := h.position _ hc
  have hnf : ¬ freshByte s := by rintro ⟨hpn, -⟩; rw [hp] at hpn; cases hpn
  have h7 := h.buf7 hnf
  have he := h.err_of_cur hc
  have hr0 : s.rst = false := by
    cases he : s.rst with
    | false => rfl
    | true => have := h.inReset he; rw [hc] at this; cases this
  have hne : s.brCnt ≠ 8 := fun e => by rw [e] at h7; simp at h7
  cases a with
  | ack =>
    exact { h with
      idle := fun _ => rfl
      position := by
        intro d hd; simp only [answerWout, hc, Option.some.injEq] at hd; subst hd
        refine ⟨?_, trivial⟩
        cases c with | mk ci cp => cases cp with
        | read n k v r => exact ⟨hpos.1, hpos.2.1, by have := hpos.2.2; cases r <;> exact this⟩
        | emit e i => exact hpos
        | write n i => exact hpos
        | flush => exact hpos
      bufFresh := fun e => absurd e hne
      accBound := by simp [answerWout]
      accFull := by simp [answerWout]
      accZeros := .inr (by simp [answerWout]) }
  | error =>
    have hlt := (Config.freeCnt s.draws).isLt
    have h3 : ((Config.freeCnt s.draws).setWidth 4).toNat ≤ 7 := by simp; omega
    exact { h with
      idle := fun _ => rfl
      inReset := fun _ => rfl
      position := by intro c hc; simp [answerWout, raiseWout] at hc
      bufFresh := fun e => absurd e hne
      accBound := by simp only [answerWout, raiseWout, raise_bwCnt]; omega
      accFull := by
        intro e
        simp only [answerWout, raiseWout, raise_bwCnt] at e
        rw [e] at h3; simp at h3
      accZeros := .inl ⟨rfl, rfl, rfl⟩
      noError := by simp [answerWout, raiseWout, Machine.raise]
      anError := fun _ => ⟨rfl, code_bound (.ioError 2)⟩
      candShort := by simp [answerWout, raiseWout, Machine.raise] }

theorem Inv.ready {s : State} (h : Inv s) (l1) (l2) (l3) : Inv
    { s with srcReady := l1, outReady := l2, woutReady := l3 } := by
  refine { h with position := ?_ }
  intro c hc
  have := h.position c hc
  refine ⟨?_, ?_⟩
  · have h1 := this.1
    cases c with | mk ci cp => cases cp with
    | read n k v r => exact ⟨h1.1, h1.2.1, by have := h1.2.2; cases r <;> exact this⟩
    | emit e i => exact h1
    | write n i => exact h1
    | flush => exact h1
  · have h1 := this.2
    simp only at h1 ⊢
    cases hp : s.pend <;> rw [hp] at h1 <;> exact h1

/-- One operation of the unit keeps the invariant (R261). -/
theorem unitOp_inv {s : State} (h : Inv s) : Inv (unitOp s) := by
  unfold unitOp
  split
  · exact h
  · rename_i c hc
    split
    · rename_i hp
      cases c with | mk ci cp => cases cp with
      | read n k v r => exact readOp_inv h hc hp
      | emit e i => exact emitOp_inv h hc hp
      | write n i => exact writeOp_inv h hc hp
      | flush => exact flushOp_inv h hc hp
    · rename_i hp
      split
      · exact h
      · rename_i a l hl; exact answerSrc_inv (h.ready l s.outReady s.woutReady) hc hp a
    · rename_i b hp
      split
      · exact h
      · rename_i a l hl; exact answerOut_inv (h.ready s.srcReady l s.woutReady) hc hp a
    · rename_i b hp
      split
      · exact h
      · rename_i a l hl; exact answerWout_inv (h.ready s.srcReady s.outReady l) hc hp a

theorem Inv.posOk_congr {s t : State} (h1 : t.params = s.params) (h2 : t.cfgL = s.cfgL) (h3 : t.hdrDone = s.hdrDone)
    (h4 : t.done = s.done)
   (h5 : t.symBuf = s.symBuf) (h6 : t.symBufLen = s.symBufLen) (h7 : t.map = s.map)
       (h8 : t.candLen = s.candLen) {c : Instr} {p : Pos} (h : posOk s c p) : posOk t c p := by
  have hps : parsedSym t = parsedSym s := by simp [parsedSym, h5, h6]
  cases p with
  | read n k v r =>
    refine ⟨h.1, h.2.1, ?_⟩
    have := h.2.2
    cases r <;> simpa only [callerOk, parsing, h1, h2, h3, h4, h5, hps] using this
  | emit e i => simpa only [posOk, h3, h4, h7, h8] using h
  | write n i => exact h
  | flush => exact h

theorem Inv.pendOk_congr {s t : State} (h1 : t.brCnt = s.brCnt) (h2 : t.srcEnd = s.srcEnd) (h3 : t.map = s.map)
    (h4 : t.bwAcc = s.bwAcc) (h5 : t.bwCnt = s.bwCnt)
   {p : Pos} {q : Pend} (h : pendOk s p q) : pendOk t p q := by
  cases q <;> simp only [pendOk, h1, h2, h3, h4, h5] at h ⊢ <;> exact h

/-- Fields Inv does not read. -/
theorem Inv.congr {s : State} (h : Inv s)
    (wdata ovr intEnCmdc intEnErri intPendCmdc intPendErri mapSelIdx mapSelOff outStream woutStream outEnded
    woutEnded srcReady outReady woutReady moves readData draws) :
   Inv { s with
     wdata := wdata, ovr := ovr, intEnCmdc := intEnCmdc, intEnErri := intEnErri, intPendCmdc := intPendCmdc,
         intPendErri := intPendErri, mapSelIdx := mapSelIdx, mapSelOff := mapSelOff, outStream := outStream,
         woutStream := woutStream, outEnded := outEnded, woutEnded := woutEnded, srcReady := srcReady,
         outReady := outReady, woutReady := woutReady, moves := moves, readData := readData, draws := draws } := by
  refine { h with position := ?_ }
  intro c hc
  have := h.position c hc
  exact ⟨Inv.posOk_congr rfl rfl rfl rfl rfl rfl rfl rfl this.1, Inv.pendOk_congr rfl rfl rfl rfl rfl this.2⟩

theorem unitOps_inv {s : State} (h : Inv s) (k : Nat) : Inv (unitOps k s) :=
  unitOps_keeps (fun _ h => unitOp_inv h) k h

theorem markDue_inv {s : State} (h : Inv s) : Inv (markDue s) := by
  unfold markDue
  split
  · exact h
  · exact h.congr _ _ _ _ _ _ _ _ _ _ _ _ _ _ _ _ _ _

theorem unitRun_inv {s : State} (h : Inv s) : Inv (unitRun s) := unitOps_inv (markDue_inv h) _

theorem softReset_inv {s : State} (h : Inv s) : Inv (softReset s) where
  params := h.params
  idle := fun _ => rfl
  inReset := fun _ => rfl
  position := by
    intro c hc
    simp [softReset] at hc
  bufBound := by simp [softReset]
  bufFresh := by simp [softReset]
  endEmpty := by simp [softReset]
  readAhead := by simp [softReset]
  accBound := by simp [softReset]
  accFull := by simp [softReset]
  accZeros := by simp [softReset]
  noError := by simp [softReset]
  anError := by simp [softReset]
  result := by simp [softReset]
  entries := by simp [softReset]
  codes := by simp [softReset]
  capacity := by simp [softReset]
  maxLen := by simp [softReset, maxCodeLen]
  doneHdr := by simp [softReset]
  candBound := by simp [softReset]
  candShort := by simp [softReset]
  candHeader := by simp [softReset]
  lastSym := by simp [softReset]
  doneEof := by simp [softReset]

theorem hardReset_inv {s : State} (h : Inv s) (b : Bool) : Inv { hardReset s with rst := b } := by
  have := softReset_inv h
  exact { this with
    position := by
      intro c hc
      simp [softReset, hardReset] at hc
    inReset := fun _ => rfl }

theorem Inv.steady {s : State} (h : Inv s) (hb : s.busy = false) (he : s.err = false) (hr : s.rst = false)
    : SteadyInv s := by
  have hc : s.cur = none := by simpa [State.busy] using hb
  have hp := h.idle hc
  have ha := h.acc7 (by simp [hp])
  have h7 := h.buf7 (by rintro ⟨-, c', n', k', v', r', hc', hk'⟩; rw [hc] at hc'; cases hc')
  exact ⟨
    { h with
      noErr := ⟨he, h.noError he⟩
      rstLow := hr
      bufBound := h7
      accBound := ha
      accZeros := h.accZeros.resolve_left (by simp [State.writerLost, he]) },
    h.candShort he, hp⟩

theorem startCommand_inv {s t : State} {i : Instr} {start : State → State} (h : Inv s)
    (hs : s.busy = false → s.err = false → allowed i s.phase = true → Inv (start s))
    (hr : s.rst = false) (ht : startCommand i start s = .next t) : Inv t := by
  unfold startCommand at ht
  split at ht
  · cases ht; exact h.congr _ _ _ _ _ _ _ _ _ _ _ _ _ _ _ _ _ _
  · rename_i hb
    split at ht
    · cases ht; exact h
    · rename_i he
      split at ht
      · cases ht; exact (h.steady (by simpa using hb) (by simpa using he) hr).raise _
      · rename_i ha
        cases ht; exact unitRun_inv (hs (by simpa using hb) (by simpa using he) (by simpa using ha))

/-- Every command keeps the invariant. -/
theorem exec_inv {s t : State} {i : Instr} (h : Inv s) (hr : s.rst = false) (ht : exec i s = .next t) : Inv t := by
  have hcfg : lengthIllegal s = false → 1 ≤ s.cfgL.toNat ∧ s.cfgL.toNat ≤ 32 := by
    intro hl; simp [lengthIllegal] at hl; omega
  have hhdr : ∀ c, parsesHeader c = true → s.busy = false → s.err = false → s.hdrDone = false → Inv
      (startHeader c s) := by
    intro c hc hb he hd
    have hst := h.steady hb he hr
    unfold startHeader
    split
    · exact hst.raise _
    · rename_i hl
      have := hcfg (by simpa using hl)
      exact hst.startEntry ⟨hc, hd, this.1, this.2⟩
  have hph : s.err = false → s.phase = .header → s.hdrDone = false := by
    intro he hp; simp [State.phase, he] at hp; split at hp <;> simp_all
  have hpb : s.err = false → s.phase = .body → s.hdrDone = true ∧ s.done = false := by
    intro he hp
    simp [State.phase, he] at hp
    split at hp
    · cases hp
    · split at hp <;> simp_all
  cases i <;> simp only [exec, execNop, execReset, execRd, execWr, execFlush, execHent, execHdr, execBstep, execBsym,
      execBody, execDec] at ht
  case nop => exact startCommand_inv h (fun hb he _ => (h.steady hb he hr).run.complete (h.steady hb he hr).cand
      (h.steady hb he hr).pend) hr ht
  case reset => cases ht; exact softReset_inv h
  case rd n =>
    refine startCommand_inv h (fun hb he _ => ?_) hr ht
    unfold startRd
    split
    · rename_i hl
      exact (h.steady hb he hr).startRead (r := .rd) ⟨by simp, by simpa [countLegal] using hl⟩
    · exact (h.steady hb he hr).raise _
  case wr n =>
    refine startCommand_inv h (fun hb he _ => ?_) hr ht
    unfold startWr
    split
    · rename_i hl
      exact (h.steady hb he hr).run.goTo (h.steady hb he hr).cand (h.steady hb he hr).pend ⟨by simp,
          by simpa [countLegal] using hl, by omega⟩
    · exact (h.steady hb he hr).raise _
  case flush => exact startCommand_inv h (fun hb he _ => (h.steady hb he hr).run.goTo (p := .flush) (i := .flush)
      (h.steady hb he hr).cand (h.steady hb he hr).pend (by simp [posOk])) hr ht
  case hent => exact startCommand_inv h (fun hb he ha => hhdr _ rfl hb he (hph he
      (by simpa [allowed] using ha))) hr ht
  case hdr => exact startCommand_inv h (fun hb he ha => hhdr _ rfl hb he (hph he (by simpa [allowed] using ha))) hr ht
  case dec => exact startCommand_inv h (fun hb he ha => hhdr _ rfl hb he (hph he (by simpa [allowed] using ha))) hr ht
  case bstep => exact startCommand_inv h (fun hb he ha => (h.steady hb he hr).startBody rfl (hpb he
      (by simpa [allowed] using ha)).1 (hpb he (by simpa [allowed] using ha)).2) hr ht
  case bsym => exact startCommand_inv h (fun hb he ha => (h.steady hb he hr).startBody rfl (hpb he
      (by simpa [allowed] using ha)).1 (hpb he (by simpa [allowed] using ha)).2) hr ht
  case body => exact startCommand_inv h (fun hb he ha => (h.steady hb he hr).bodyLoop rfl (hpb he
      (by simpa [allowed] using ha)).1) hr ht

theorem cmdWrite_inv {s t : State} {w : Word} (h : Inv s) (hr : s.rst = false) (ht : cmdWrite w s = .next t) : Inv t
    := by
  unfold cmdWrite at ht
  split at ht
  · exact exec_inv h hr ht
  · unfold illegalWord at ht
    split at ht
    · cases ht; exact h.congr _ _ _ _ _ _ _ _ _ _ _ _ _ _ _ _ _ _
    · rename_i hb
      split at ht
      · cases ht; exact h
      · rename_i he
        cases ht; exact (h.steady (by simpa using hb) (by simpa using he) hr).raise _

theorem regWrite_inv {s : State} {off : Nat} {v : Word} (h : Inv s) : Inv (regWrite off v s) := by
  unfold regWrite guardedWrite
  split
  · split
    · exact h.congr _ _ _ _ _ _ _ _ _ _ _ _ _ _ _ _ _ _
    · rename_i hb
      have hc : s.cur = none := by simpa [State.busy] using hb
      exact { h with position := by intro c hc'; simp only at hc'; rw [hc] at hc'; cases hc' }
  · split
    · split <;> exact h.congr _ _ _ _ _ _ _ _ _ _ _ _ _ _ _ _ _ _
    · split
      · exact h.congr _ _ _ _ _ _ _ _ _ _ _ _ _ _ _ _ _ _
      · split
        · exact h.congr _ _ _ _ _ _ _ _ _ _ _ _ _ _ _ _ _ _
        · split
          · split <;> exact h.congr _ _ _ _ _ _ _ _ _ _ _ _ _ _ _ _ _ _
          · exact h

end Sys2Proof.Machine
end

