-- ==== Sys2Proof/Laws/PerInstr.lean ====
section
/-! SUPPORT. Statements made per constructor of Instr. `EncodeOpcode` says of one command that its encoding carries its
opcode in the place the opcode map gives it, with the bits between it and the count field 0 (R120, R121, R123). -/

namespace Sys2Proof.Laws.EncodeOpcode

/-- The encoding of `i` has `i`'s opcode in [31:28] and nothing between it and the count field (R120, R121). -/
def Statement (i : Instr) : Prop := opField (encode i) = i.opcode ∧ (encode i).extractLsb' 6 22 = 0#22

theorem nop : Statement .nop := by unfold Statement; decide
theorem reset : Statement .reset := by unfold Statement; decide
theorem rd (n : BitVec 6) : Statement (.rd n) := by revert n; unfold Statement; decide
theorem wr (n : BitVec 6) : Statement (.wr n) := by revert n; unfold Statement; decide
theorem flush : Statement .flush := by unfold Statement; decide
theorem hent : Statement .hent := by unfold Statement; decide
theorem hdr : Statement .hdr := by unfold Statement; decide
theorem bstep : Statement .bstep := by unfold Statement; decide
theorem bsym : Statement .bsym := by unfold Statement; decide
theorem body : Statement .body := by unfold Statement; decide
theorem dec : Statement .dec := by unfold Statement; decide

end Sys2Proof.Laws.EncodeOpcode
end

