-- ==== Sys2Proof/Laws/Resume.lean ====
section
/-! SUPPORT. Answers the host makes ready behind those already ready do not change what the unit does until it comes to rest
for want of them (R86 to R88, R261); a command that holds goes on from there. -/

namespace Sys2Proof.Machine

/-- `s` with further answers ready behind those that are. -/
def State.alsoReady (s : State) (a : List SrcAnswer) (b c : List SinkAnswer) : State :=
  { s with srcReady := s.srcReady ++ a, outReady := s.outReady ++ b, woutReady := s.woutReady ++ c }

section Commutes

variable (a : List SrcAnswer) (b d : List SinkAnswer)

theorem bodyLoop_alsoReady (c : Instr) (s : State) : bodyLoop c (s.alsoReady a b d) = (bodyLoop c s).alsoReady a b d := by
  have e : (s.alsoReady a b d).done = s.done := rfl
  unfold bodyLoop
  rw [e]
  split <;> rfl

theorem afterBodyStep_alsoReady (c : Instr) (m : Bool) (s : State) :
    afterBodyStep c m (s.alsoReady a b d) = (afterBodyStep c m s).alsoReady a b d := by
  cases c <;> first | rfl | exact bodyLoop_alsoReady a b d _ s | (cases m <;> rfl)

theorem afterEntry_alsoReady (c : Instr) (s : State) :
    afterEntry c (s.alsoReady a b d) = (afterEntry c s).alsoReady a b d := by
  have e : (s.alsoReady a b d).hdrDone = s.hdrDone := rfl
  cases c <;> simp only [afterEntry, e, bodyLoop_alsoReady] <;> first | rfl | (split <;> rfl)

theorem afterSymbol_alsoReady (c : Instr) (s : State) :
    afterSymbol c (s.alsoReady a b d) = (afterSymbol c s).alsoReady a b d := by
  have e : parsedSym (s.alsoReady a b d) = parsedSym s := rfl
  have e2 : (s.alsoReady a b d).params = s.params := rfl
  unfold afterSymbol
  rw [e, e2]
  split
  · rfl
  · split
    · cases s.params.mapEndTail
      · rfl
      · exact afterEntry_alsoReady a b d c { s with hdrDone := true }
    · rfl

theorem bodyBitReturn_alsoReady (c : Instr) (k : Nat) (v : Word) (s : State) :
    bodyBitReturn c k v (s.alsoReady a b d) = (bodyBitReturn c k v s).alsoReady a b d := by
  unfold bodyBitReturn
  split
  · rfl
  · simp only [State.alsoReady]
    cases matchCode s.map (s.candLen + 1).toNat (shiftIn s.cand (v.getLsbD 0)) with
    | none =>
      simp only [bodyNoMatchYet]
      split
      · rfl
      · exact afterBodyStep_alsoReady a b d c false { s with cand := shiftIn s.cand (v.getLsbD 0), candLen := s.candLen + 1 }
    | some e =>
      simp only [bodyMatch]
      split
      · exact afterBodyStep_alsoReady a b d c true
          { s with lastSymV := true, lastSymIdx := BitVec.ofNat 16 e, cand := 0, candLen := 0, done := true }
      · rfl

theorem readReturn_alsoReady (c : Instr) (r : ReadFor) (n k : Nat) (v : Word) (s : State) :
    readReturn c r n k v (s.alsoReady a b d) = (readReturn c r n k v s).alsoReady a b d := by
  cases r <;> simp only [readReturn]
  case rd => rfl
  case symLen =>
    have e2 : (s.alsoReady a b d).params = s.params := rfl
    simp only [symLenReturn, e2]
    repeat' split
    all_goals rfl
  case symByte m i =>
    simp only [symByteReturn]
    repeat' split
    · rfl
    · rfl
    · exact afterSymbol_alsoReady a b d c
        { s with symBuf := putSymByte s.symBuf i (v.setWidth 8), symBufLen := BitVec.ofNat 16 m }
  case tailLen =>
    simp only [tailLenReturn]
    split <;> rfl
  case tailCode =>
    simp only [tailCodeReturn]
    split
    · rfl
    · exact afterEntry_alsoReady a b d c { s with hdrDone := true }
  case clen =>
    simp only [clenReturn]
    repeat' split
    all_goals rfl
  case code =>
    have e1 : (s.alsoReady a b d).map = s.map := rfl
    have e2 : (s.alsoReady a b d).params = s.params := rfl
    simp only [codeReturn, e1, e2]
    repeat' split
    · rfl
    · rfl
    · rfl
    · exact afterEntry_alsoReady a b d c (insertEntry (BitVec.ofNat 5 n) (v.setWidth 31) s)
  case bodyBit => exact bodyBitReturn_alsoReady a b d c k v s

theorem posOp_alsoReady (c : Instr) (p : Pos) (s : State) :
    posOp c p (s.alsoReady a b d) = (posOp c p s).alsoReady a b d := by
  cases p with
  | read n k v r =>
    have e1 : (s.alsoReady a b d).brCnt = s.brCnt := rfl
    have e2 : (s.alsoReady a b d).srcEnd = s.srcEnd := rfl
    simp only [posOp, readOp, e1, e2, readReturn_alsoReady]
    repeat' split
    all_goals rfl
  | emit e i =>
    have e1 : (s.alsoReady a b d).map = s.map := rfl
    simp only [posOp, emitOp, e1]
    split
    · rfl
    · exact afterBodyStep_alsoReady a b d c true { s with symCount := s.symCount + 1 }
  | write n i =>
    simp only [posOp, writeOp]
    split
    · by_cases h : (goTo c (.write n (i + 1)) (putBit (writeBit n i s.wdata) s)).bwCnt = 8
      · rw [if_pos h]; exact if_pos h
      · rw [if_neg h]; exact if_neg h
    · rfl
  | flush =>
    simp only [posOp, flushOp]
    by_cases h : s.bwCnt = 0
    · rw [if_pos h]; exact if_pos h
    · rw [if_neg h]; exact if_neg h

/-- Until the unit rests, an operation does the same whatever is ready behind the next answer. -/
theorem unitOp_alsoReady {s : State} (h : s.atRest = false) :
    unitOp (s.alsoReady a b d) = (unitOp s).alsoReady a b d := by
  unfold State.atRest at h
  have e1 : (s.alsoReady a b d).cur = s.cur := rfl
  have e2 : (s.alsoReady a b d).pend = s.pend := rfl
  unfold unitOp
  rw [e1, e2]
  cases hc : s.cur with
  | none => simp [hc] at h
  | some c =>
    simp only [hc] at h ⊢
    cases hp : s.pend with
    | none => exact posOp_alsoReady a b d c.instr c.pos s
    | src =>
      simp only [hp] at h
      cases hr : s.srcReady with
      | nil => simp [hr] at h
      | cons x l =>
        have e : (s.alsoReady a b d).srcReady = x :: (l ++ a) := by simp [State.alsoReady, hr]
        simp only [e]
        cases x <;> rfl
    | out y =>
      simp only [hp] at h
      cases hr : s.outReady with
      | nil => simp [hr] at h
      | cons x l =>
        have e : (s.alsoReady a b d).outReady = x :: (l ++ b) := by simp [State.alsoReady, hr]
        simp only [e]
        cases x <;> rfl
    | wout y =>
      simp only [hp] at h
      cases hr : s.woutReady with
      | nil => simp [hr] at h
      | cons x l =>
        have e : (s.alsoReady a b d).woutReady = x :: (l ++ d) := by simp [State.alsoReady, hr]
        simp only [e]
        cases x <;> rfl

/-- The run to where the unit rests is the same with more answers ready. -/
theorem Runs.alsoReady {s t : State} (h : Runs s t) : Runs (s.alsoReady a b d) (t.alsoReady a b d) := by
  obtain ⟨k, rfl⟩ := h
  induction k generalizing s with
  | zero => exact Runs.refl _
  | succ k ih =>
    cases hr : s.atRest with
    | true => rw [unitOps_of_atRest hr]; exact Runs.refl _
    | false =>
      rw [unitOps_succ]
      exact Runs.op_eq (unitOp_alsoReady a b d hr) ih

end Commutes

/-! ### What every operation keeps: the host's moves, and the writer's count within WDATA -/

/-- From `s` to `t` the host's moves stay, and in `t` no write is in progress. -/
def NoWrite (s t : State) : Prop := t.moves = s.moves ∧ ∀ c n i, t.cur ≠ some { instr := c, pos := .write n i }

theorem NoWrite.none {s t : State} (hm : t.moves = s.moves) (h : t.cur = none) : NoWrite s t := ⟨hm, by simp [h]⟩

theorem NoWrite.read {s t : State} (hm : t.moves = s.moves) (c : Instr) (n : Nat) (r : ReadFor) :
    NoWrite s (startRead c n r t) := ⟨hm, by simp [startRead, goTo]⟩

theorem NoWrite.afterBodyStep {s t : State} (hm : t.moves = s.moves) (c : Instr) (m : Bool) :
    NoWrite s (afterBodyStep c m t) := by
  rcases afterBodyStep_cases c m t with h | ⟨d, h⟩ <;> rw [h]
  · exact .none hm rfl
  · exact .read hm _ _ _

theorem NoWrite.afterEntry {s t : State} (hm : t.moves = s.moves) (c : Instr) : NoWrite s (afterEntry c t) := by
  rcases afterEntry_cases c t with h | ⟨d, h⟩ | ⟨-, d, h⟩ <;> rw [h]
  · exact .none hm rfl
  · exact .read hm _ _ _
  · exact .read hm _ _ _

theorem NoWrite.readReturn (c : Instr) (r : ReadFor) (n k : Nat) (v : Word) (s : State) :
    NoWrite s (readReturn c r n k v s) := by
  cases r <;> simp only [Machine.readReturn, rdReturn, symLenReturn, symByteReturn, tailLenReturn, tailCodeReturn, clenReturn,
    codeReturn, bodyBitReturn, afterSymbol, headerEnd, bodyMatch, bodyNoMatchYet] <;> repeat' split
  all_goals
    first
    | exact .none rfl rfl
    | exact .read rfl _ _ _
    | exact .afterEntry rfl _
    | exact .afterBodyStep rfl _ _
    | exact ⟨rfl, by simp [goTo]⟩

theorem unitOp_moves_write (s : State) :
    (unitOp s).moves = s.moves ∧ (writesAtMost32 s → writesAtMost32 (unitOp s)) := by
  have hno : ∀ {t}, NoWrite s t → t.moves = s.moves ∧ (writesAtMost32 s → writesAtMost32 t) :=
    fun h => ⟨h.1, fun _ c n i hc => absurd hc (h.2 c n i)⟩
  unfold unitOp
  split
  · exact ⟨rfl, id⟩
  · rename_i c hc
    split
    · cases hp : c.pos with
      | read n k v r =>
        simp only [posOp, readOp]
        repeat' split
        · exact hno (.readReturn _ _ _ _ _ _)
        · exact ⟨rfl, id⟩
        · exact hno ⟨rfl, by simp [goTo]⟩
        · exact hno (.readReturn _ _ _ _ _ _)
      | emit e i =>
        simp only [posOp, emitOp]
        split
        · exact hno ⟨rfl, by simp [goTo]⟩
        · exact hno (.afterBodyStep rfl _ _)
      | write n i =>
        have hg : writesAtMost32 s → ∀ t : State, t.cur = some { instr := c.instr, pos := .write n (i + 1) } →
            writesAtMost32 t := by
          intro h t ht d m j hd
          have hn := h c.instr n i (by rw [hc, ← hp])
          rw [ht] at hd
          simp only [Option.some.injEq, Cur.mk.injEq, Pos.write.injEq] at hd
          omega
        simp only [posOp, writeOp]
        split
        · split
          · exact ⟨rfl, fun h => hg h _ rfl⟩
          · exact ⟨rfl, fun h => hg h _ rfl⟩
        · exact hno (.none rfl rfl)
      | flush =>
        simp only [posOp, flushOp]
        split
        · exact hno (.none rfl rfl)
        · exact ⟨rfl, id⟩
    all_goals
      split
      · exact ⟨rfl, id⟩
      · rename_i a l hl
        cases a
        all_goals first | exact ⟨rfl, id⟩ | exact hno (.none rfl rfl)

theorem Runs.moves_write {s t : State} (h : Runs s t) :
    t.moves = s.moves ∧ (writesAtMost32 s → writesAtMost32 t) := by
  obtain ⟨k, rfl⟩ := h
  induction k generalizing s with
  | zero => exact ⟨rfl, id⟩
  | succ k ih =>
    rw [unitOps_succ]
    exact ⟨ih.1.trans (unitOp_moves_write s).1, fun h => ih.2 ((unitOp_moves_write s).2 h)⟩

/-! ### A command that holds goes on from there -/

/-- An undisturbed run that rested in `t`, had more answers been ready, would have gone on as `t` does with them. -/
theorem unitRun_alsoReady {s : State} (a : List SrcAnswer) (b d : List SinkAnswer) (hu : s.unhurried = true)
    (hw : writesAtMost32 s) : unitRun (s.alsoReady a b d) = unitRun ((unitRun s).alsoReady a b d) := by
  have hr : Runs s (unitRun s) := ⟨opBudget s, by rw [unitRun_of_unhurried hu]⟩
  have hra := hr.alsoReady a b d
  have hu' : ((unitRun s).alsoReady a b d).unhurried = true := unhurried_of_moves hra.moves_write.1 hu
  have hw' : writesAtMost32 ((unitRun s).alsoReady a b d) := hra.moves_write.2 hw
  refine unitRun_eq_of_runs hu hw (hra.trans ⟨opBudget ((unitRun s).alsoReady a b d), by rw [unitRun_of_unhurried hu']⟩) ?_
  rw [unitRun_of_unhurried hu']
  exact unitOps_budget_atRest hw'

/-- An operation before an undisturbed run changes nothing of where it ends. -/
theorem unitRun_unitOp {s : State} (hu : s.unhurried = true) (hw : writesAtMost32 s) : unitRun (unitOp s) = unitRun s := by
  have h := unitOp_moves_write s
  have hu' : (unitOp s).unhurried = true := unhurried_of_moves h.1 hu
  refine (unitRun_eq_of_runs hu hw (Runs.op ⟨opBudget (unitOp s), by rw [unitRun_of_unhurried hu']⟩) ?_).symm
  rw [unitRun_of_unhurried hu']
  exact unitOps_budget_atRest (h.2 hw)

theorem writesAtMost32_of_idle {s : State} (h : s.cur = none) : writesAtMost32 s := by
  intro c n i hc; rw [h] at hc; cases hc

/-- A command that was accepted and runs on, accepted with more answers ready. -/
theorem startCommand_resumes {i : Instr} {start : State → State} {s t : State} (a : List SrcAnswer) (b d : List SinkAnswer)
    (h : s.canRun) (hm : (start s).moves = s.moves) (hw : writesAtMost32 (start s))
    (hs : start (s.alsoReady a b d) = (start s).alsoReady a b d) (he : startCommand i start s = .next t)
    (ht : t.busy = true) :
    startCommand i start (s.alsoReady a b d) = .next (unitRun (t.alsoReady a b d)) ∧ t.unhurried = true ∧
      writesAtMost32 t := by
  obtain ⟨h1, h2, h3, h4⟩ := h
  cases ha : allowed i s.phase with
  | false =>
    rw [startCommand_illegalSeq h1 h2 ha] at he
    cases he
    simp [State.busy, raise] at ht
  | true =>
    rw [startCommand_run h1 h2 ha] at he
    cases he
    have hu : (start s).unhurried = true := unhurried_of_moves hm h4
    have hr : Runs (start s) (unitRun (start s)) := ⟨opBudget (start s), by rw [unitRun_of_unhurried hu]⟩
    refine ⟨?_, unhurried_of_moves hr.moves_write.1 hu, hr.moves_write.2 hw⟩
    rw [startCommand_run (s := s.alsoReady a b d) h1 h2 ha, hs, unitRun_alsoReady a b d hu hw]

theorem startHeader_alsoReady (a : List SrcAnswer) (b d : List SinkAnswer) (c : Instr) (s : State) :
    (startHeader c s).moves = s.moves ∧ writesAtMost32 (startHeader c s) ∧
      startHeader c (s.alsoReady a b d) = (startHeader c s).alsoReady a b d := by
  have e : lengthIllegal (s.alsoReady a b d) = lengthIllegal s := rfl
  unfold startHeader
  rw [e]
  cases lengthIllegal s
  · exact ⟨rfl, writesAtMost32_startRead _ _ _ _, rfl⟩
  · exact ⟨rfl, writesAtMost32_of_idle rfl, rfl⟩

/-- A command that comes to hold in `t` would, with more answers ready, have ended where `t` with them goes on to (R261). -/
theorem exec_resumes {i : Instr} {s t : State} (a : List SrcAnswer) (b d : List SinkAnswer)
    (h : s.canRun) (he : exec i s = .next t) (ht : t.busy = true) :
    exec i (s.alsoReady a b d) = .next (unitRun (t.alsoReady a b d)) ∧ t.unhurried = true ∧ writesAtMost32 t := by
  cases i with
  | nop => exact startCommand_resumes a b d h rfl (writesAtMost32_of_idle rfl) rfl he ht
  | reset => cases he; simp [State.busy, softReset] at ht
  | rd n =>
    refine startCommand_resumes a b d h ?_ ?_ ?_ he ht <;> unfold startRd <;> split
    · rfl
    · rfl
    · exact writesAtMost32_startRead _ _ _ _
    · exact writesAtMost32_of_idle rfl
    · rfl
    · rfl
  | wr n =>
    refine startCommand_resumes a b d h ?_ ?_ ?_ he ht <;> unfold startWr <;> split
    · rfl
    · rfl
    · rename_i hl
      intro c m j hc
      simp [goTo, countLegal] at hc hl; omega
    · exact writesAtMost32_of_idle rfl
    · rfl
    · rfl
  | flush =>
    refine startCommand_resumes a b d h rfl ?_ rfl he ht
    intro c m j hc; simp [goTo] at hc
  | hent =>
    obtain ⟨h1, h2, h3⟩ := startHeader_alsoReady a b d .hent s
    exact startCommand_resumes a b d h h1 h2 h3 he ht
  | hdr =>
    obtain ⟨h1, h2, h3⟩ := startHeader_alsoReady a b d .hdr s
    exact startCommand_resumes a b d h h1 h2 h3 he ht
  | dec =>
    obtain ⟨h1, h2, h3⟩ := startHeader_alsoReady a b d .dec s
    exact startCommand_resumes a b d h h1 h2 h3 he ht
  | bstep => exact startCommand_resumes a b d h rfl (writesAtMost32_startRead _ _ _ _) rfl he ht
  | bsym => exact startCommand_resumes a b d h rfl (writesAtMost32_startRead _ _ _ _) rfl he ht
  | body =>
    refine startCommand_resumes a b d h ?_ ?_ (bodyLoop_alsoReady a b d _ s) he ht <;> unfold bodyLoop <;> split
    · rfl
    · rfl
    · exact writesAtMost32_of_idle rfl
    · exact writesAtMost32_startRead _ _ _ _

end Sys2Proof.Machine
end

