-- ==== Sys2Proof/Tests/Slice0.lean ====
section
/-! SUPPORT. The model's own tests: WellFormed's smoke tests, decoding of words written out from the encodings of R121, one
step of each command against the vectors of spec/95_test_vectors.md, and a witness for the hypotheses of each obligation. -/

namespace Sys2Proof.Tests

open Machine

/-! ### Small states -/

/-- The state an outcome leads to; a stop leads to the state after reset. -/
def afterwards : Host.Outcome State Fault Refusal → State
  | .next t => t
  | .fault _ => State.reset
  | .refused _ => State.reset

/-- The host has the bytes `l` ready on SRC, then `End`. -/
def source (l : List Byte) (s : State) : State := { s with srcReady := l.map .byte ++ [.endOfData] }

/-- The host has acknowledgements ready on OUT and WOUT. -/
def acks (s : State) : State := { s with outReady := List.replicate 8 .ack, woutReady := List.replicate 8 .ack }

/-- CFG.L and WDATA as given. -/
def withHostRegs (l : BitVec 6) (v : Word) (s : State) : State := { s with cfgL := l, wdata := v }

/-- The "aaab" container (95_test_vectors.md section 3). -/
def aaab : List Byte := [0x58, 0x42, 0x58, 0x85, 0x20, 0x82, 0xD0, 0x30, 0x0B]

def entryA : MapEntry := { clen := 1, code := 0, sym := [0x61] }
def entryB : MapEntry := { clen := 2, code := 2, sym := [0x62] }
def entryEof : MapEntry := { clen := 2, code := 3, sym := [0x04] }

/-- After reset with CFG.L = 2, the host having the bytes `l`, then `End`, ready on SRC. -/
def atHeader (l : List Byte) : State := acks (source l (withHostRegs 2 0 State.reset))

/-- Phase BODY with map M1, the first `k` bits of the body read (95_test_vectors.md section 7; k at most 7). -/
def inBody (k : Nat) : State :=
  { acks (source [] (withHostRegs 2 0 State.reset)) with
    hdrDone := true
    map := [entryA, entryB, entryEof]
    maxLen := 2
    brPos := BitVec.ofNat 32 (65 + k)
    brCnt := BitVec.ofNat 4 (7 - k)
    brBuf := 0x0B
    srcStream := aaab }

/-- A code of which b's "10" is a proper prefix, so that it never matches (R239). -/
def entryC : MapEntry := { clen := 3, code := 5, sym := [0x63] }

/-- The same body with map M1 and entry c. -/
def inPrefixBody (k : Nat) : State := { inBody k with map := [entryA, entryB, entryEof, entryC], maxLen := 3 }

/-- The container of the entries a, b, c and EOF for "aaab". -/
def aaabC : List Byte := [0x58, 0x42, 0x58, 0x85, 0x2C, 0x63, 0xA8, 0x20, 0xB4, 0x0C, 0x02, 0xC0]

/-- Phase FINISHED, on the EOF entry. -/
def finished : State := { inBody 7 with done := true, lastSymV := true, lastSymIdx := 2, srcEnd := true, ovr := true }

/-- Phase ERROR, from a word with a reserved opcode (K1-11). -/
def inError : State := { State.reset with err := true, errCause := 11, intPendErri := true, intPendCmdc := true }

/-- An RD 4 that holds on SRC with no answer ready. -/
def holding : State := { State.reset with cur := some { instr := .rd 4, pos := .read 4 0 0 .rd }, pend := .src }

/-- A WR 8 that holds on WOUT with its byte offered. -/
def offering : State :=
  { State.reset with
    cur := some { instr := .wr 8, pos := .write 8 8 }
    pend := .wout 0x41
    bwAcc := 0x41
    bwCnt := 8
    bwPos := 8
    wdata := 0x41 }

/-- A BSTEP that holds on OUT with the symbol of entry 0 offered. -/
def emitting : State :=
  { inBody 1 with
    cur := some { instr := .bstep, pos := .emit 0 1 }
    pend := .out 0x61
    outReady := []
    lastSymV := true }

/-! ### WellFormed -/

theorem test_rd_count_33_refused : Instr.wellFormed (.rd 33) = false := by decide
theorem test_wr_count_63_refused : Instr.wellFormed (.wr 63) = false := by decide
theorem test_rd_count_32_admitted : Instr.wellFormed (.rd 32) = true ∧ Instr.wellFormed (.wr 0) = true := by decide

/-! ### Decoding, words written out from the encoding column of R121 (fields OP, [27:6], n) -/

theorem test_decode_nop : decode (0b0000#4 ++ 0#22 ++ 0#6) = .cmd .nop := by decide
theorem test_decode_reset : decode (0b0001#4 ++ 0#22 ++ 0#6) = .cmd .reset := by decide
theorem test_decode_rd : decode (0b0010#4 ++ 0#22 ++ 0b100000#6) = .cmd (.rd 32) := by decide
theorem test_decode_wr : decode (0b0011#4 ++ 0#22 ++ 0b000101#6) = .cmd (.wr 5) := by decide
theorem test_decode_flush : decode (0b0100#4 ++ 0#22 ++ 0#6) = .cmd .flush := by decide
theorem test_decode_hent : decode (0b0101#4 ++ 0#22 ++ 0#6) = .cmd .hent := by decide
theorem test_decode_hdr : decode (0b0110#4 ++ 0#22 ++ 0#6) = .cmd .hdr := by decide
theorem test_decode_bstep : decode (0b0111#4 ++ 0#22 ++ 0#6) = .cmd .bstep := by decide
theorem test_decode_bsym : decode (0b1000#4 ++ 0#22 ++ 0#6) = .cmd .bsym := by decide
theorem test_decode_body : decode (0b1001#4 ++ 0#22 ++ 0#6) = .cmd .body := by decide
theorem test_decode_dec : decode (0b1010#4 ++ 0#22 ++ 0#6) = .cmd .dec := by decide

/-- BR2-3, BR2-4, K1-11, K1-12, K1-13: the words those vectors write. -/
theorem test_decode_illegal :
    decode 0x20000021 = .illegal .countTooLarge ∧ decode 0x20000040 = .illegal .reservedBits ∧
      decode 0xB0000000 = .illegal .reservedOpcode ∧ decode 0x00000001 = .illegal .reservedBits ∧
      decode 0x10000001 = .illegal .reservedBits := by decide

theorem test_decodeTableWord : decodeTableWord 32 0x20000020 = some (.rd 32) ∧ decodeTableWord 32 0xF0000000 = none := by
  decide

/-! ### One step of each command (95_test_vectors.md) -/

/-- K1-1. -/
theorem test_nop :
    regRead 0x10 (afterwards (exec .nop State.reset)) = 0 ∧ regRead 0x4C (afterwards (exec .nop State.reset)) = 1 := by
  decide

/-- K1-15, K1-9. -/
theorem test_reset :
    regRead 0x10 (afterwards (exec .reset inError)) = 0 ∧ regRead 0x14 (afterwards (exec .reset inError)) = 0 ∧
      regRead 0x04 (afterwards (exec .reset (withHostRegs 2 0 holding))) = 2 := by
  decide

/-- BR1-1. -/
theorem test_rd :
    let t := afterwards (exec (.rd 3) (source [0xA5, 0x3C] State.reset))
    regRead 0x1C t = 5 ∧ regRead 0x20 t = 3 ∧ regRead 0x24 t = 3 ∧ regRead 0x28 t = 0xA505 ∧ regRead 0x10 t = 0 := by
  decide

/-- BR2-2. -/
theorem test_rd_ioError :
    let t := afterwards (exec (.rd 12) { State.reset with srcReady := [.byte 0xA5, .error] })
    regRead 0x14 t = 0x0A ∧ regRead 0x18 t = 8 ∧ regRead 0x24 t = 8 ∧ t.brCnt = 0 ∧ t.resCnt = 0 := by
  decide

/-- W1-2. -/
theorem test_wr :
    let t := afterwards (exec (.wr 8) { acks (withHostRegs 0 0xFF State.reset) with bwAcc := 0xA0, bwCnt := 3, bwPos := 3 })
    t.woutStream = [0xBF] ∧ regRead 0x30 t = 0xE003 ∧ regRead 0x2C t = 11 := by
  decide

/-- W1-3. -/
theorem test_flush :
    let t := afterwards (exec .flush { acks State.reset with bwAcc := 0xE0, bwCnt := 3, bwPos := 11 })
    t.woutStream = [0xE0] ∧ regRead 0x30 t = 0 ∧ regRead 0x2C t = 11 := by
  decide

/-- H1-1. -/
theorem test_hent :
    let t := afterwards (exec .hent (atHeader aaab))
    t.map = [entryA] ∧ regRead 0x34 t = 0x01000001 ∧ regRead 0x24 t = 16 ∧ regRead 0x28 t = 0x4200 ∧ regRead 0x10 t = 0 := by
  decide

/-- H2-6. -/
theorem test_hent_zeroClen :
    let t := afterwards (exec .hent (atHeader [0x58, 0x40]))
    regRead 0x14 t = 5 ∧ regRead 0x18 t = 15 ∧ t.map = [] := by
  decide

/-- H1-2. -/
theorem test_hdr :
    let t := afterwards (exec .hdr (atHeader aaab))
    t.map = [entryA, entryB, entryEof] ∧ regRead 0x34 t = 0x02000003 ∧ regRead 0x24 t = 65 ∧ regRead 0x28 t = 0x0B07 ∧
      regRead 0x10 t = 4 ∧ t.srcStream.length = 9 := by
  decide +kernel

/-- H2-8. -/
theorem test_hdr_dupCode :
    let t := afterwards (exec .hdr (atHeader [0x58, 0x42, 0x58, 0x82]))
    regRead 0x14 t = 6 ∧ regRead 0x18 t = 32 ∧ regRead 0x34 t = 0x01000001 := by
  decide

/-- B1-1. -/
theorem test_bstep :
    let t := afterwards (exec .bstep (inBody 0))
    t.outStream = [0x61] ∧ regRead 0x40 t = 1 ∧ regRead 0x44 t = 0x80000000 ∧ regRead 0x3C t = 0 ∧ regRead 0x10 t = 4 := by
  decide

/-- B1-4. -/
theorem test_bstep_noMatch :
    let t := afterwards (exec .bstep (inBody 3))
    t.outStream = [] ∧ regRead 0x38 t = 1 ∧ regRead 0x3C t = 1 ∧ regRead 0x10 t = 4 := by
  decide

/-- B1-6. -/
theorem test_bsym :
    let t := afterwards (exec .bsym (inBody 5))
    t.outStream = [] ∧ regRead 0x44 t = 0x80000002 ∧ regRead 0x10 t = 0x0C ∧ regRead 0x24 t = 72 ∧ t.srcEnd = false := by
  decide

/-- P3's body. -/
theorem test_body :
    let t := afterwards (exec .body (inBody 0))
    t.outStream = [0x61, 0x61, 0x61, 0x62] ∧ regRead 0x40 t = 4 ∧ regRead 0x10 t = 0x0C ∧ regRead 0x28 t = 0x0B00 := by
  decide

/-- B2-6. -/
theorem test_body_ioError :
    let t := afterwards (exec .body { inBody 0 with outReady := [.error] })
    regRead 0x14 t = 0x10A ∧ regRead 0x18 t = 66 ∧ regRead 0x40 t = 0 ∧ regRead 0x44 t = 0x80000000 := by
  decide

/-- P3. -/
theorem test_dec :
    let t := afterwards (exec .dec (atHeader aaab))
    t.outStream = [0x61, 0x61, 0x61, 0x62] ∧ regRead 0x34 t = 0x02000003 ∧ regRead 0x24 t = 72 ∧ regRead 0x40 t = 4 ∧
      regRead 0x44 t = 0x80000002 ∧ regRead 0x10 t = 0x0C := by
  decide +kernel

/-- B2-1. -/
theorem test_dec_noMatch :
    let t := afterwards (exec .dec (atHeader [0x58, 0x42, 0x41, 0x05, 0xA0, 0x60, 0x40]))
    regRead 0x14 t = 0x308 ∧ regRead 0x18 t = 52 ∧ regRead 0x38 t = 4 ∧ regRead 0x3C t = 3 ∧ t.outStream = [0x61] := by
  decide

/-- P3, the map window after step 5. -/
theorem test_mapWindow :
    let t := { inBody 0 with mapSelIdx := 1 }
    regRead 0x54 t = 0x80020001 ∧ regRead 0x58 t = 2 ∧ regRead 0x5C t = 0x62000000 := by
  decide

/-- K1-8: the CFG write is dropped while the command holds. -/
theorem test_busyWrite :
    let t := afterwards (deliver (.write 0x04 4 3) (withHostRegs 2 0 holding))
    regRead 0x10 t = 0x121 ∧ t.cfgL = 2 := by
  decide

/-- R203 (G1): an overlong form, a surrogate and a value above U+10FFFF are not well formed; one-, two- and four-byte
characters are. -/
theorem test_utf8 :
    wellFormedUtf8 [0xC0, 0x80] = false ∧ wellFormedUtf8 [0xED, 0xA0, 0x80] = false ∧
      wellFormedUtf8 [0xF4, 0x90, 0x80, 0x80] = false ∧ wellFormedUtf8 [0x61, 0xC3, 0xA9, 0xF0, 0x9F, 0x98, 0x80] = true := by
  decide

/-! ### The invariant at the states above -/

/-- `Inv` of an idle state, as a check that evaluates. -/
def idleInv (s : State) : Bool :=
  paramsLegal s.params && decide (s.cur = none) && decide (s.pend = .none) && decide (s.brCnt.toNat ≤ 7) &&
    (!s.srcEnd || decide (s.brCnt = 0)) &&
    decide (s.brPos + s.brCnt.setWidth 32 = BitVec.ofNat 32 (8 * s.srcStream.length)) && decide (s.bwCnt.toNat ≤ 7) &&
    decide (s.bwAcc.toNat % 2 ^ (8 - s.bwCnt.toNat) = 0) &&
    (if s.err then decide (1 ≤ s.errCause.toNat) && decide (s.errCause.toNat ≤ 13)
      else decide (s.errCause = 0) && decide (s.errInfo = 0) && decide (s.errPos = 0)) &&
    decide (s.resCnt.toNat ≤ 32) && decide (s.resVal.toNat < 2 ^ s.resCnt.toNat) &&
    s.map.all (fun x => decide (1 ≤ x.clen.toNat) && decide (x.code.toNat < 2 ^ x.clen.toNat) &&
      decide (1 ≤ x.sym.length) && decide (x.sym.length ≤ s.params.symBytesMax) && decide (x.sym ≠ s.params.mapEndBytes) &&
      (!s.params.checkUtf8 || wellFormedUtf8 x.sym)) &&
    decide (s.map.Pairwise (fun x y => ¬(x.clen = y.clen ∧ x.code = y.code))) &&
    decide (s.map.length ≤ s.params.mapEntries) && decide (s.maxLen.toNat = maxCodeLen s.map) &&
    (!s.done || s.hdrDone) && decide (s.candLen.toNat ≤ s.maxLen.toNat) && decide (s.cand.toNat < 2 ^ s.candLen.toNat) &&
    (s.hdrDone || (decide (s.candLen = 0) && decide (s.symCount = 0) && !s.lastSymV)) &&
    (!s.lastSymV || decide (s.lastSymIdx.toNat < s.map.length)) &&
    (!s.done || (s.lastSymV && decide (entrySym s.map s.lastSymIdx.toNat = s.params.eofBytes)))

theorem inv_of_idleInv {s : State} (h : idleInv s = true) : Inv s := by
  simp only [idleInv, Bool.and_eq_true, decide_eq_true_eq, List.all_eq_true, Bool.or_eq_true, Bool.not_eq_true'] at h
  obtain ⟨⟨⟨⟨⟨⟨⟨⟨⟨⟨⟨⟨⟨⟨⟨⟨⟨⟨⟨⟨h1, h2⟩, h3⟩, h4⟩, h5⟩, h6⟩, h7⟩, h8⟩, h9⟩, h10⟩, h11⟩, h12⟩, h13⟩, h14⟩, h15⟩, h16⟩, h17⟩,
    h18⟩, h19⟩, h20⟩, h21⟩ := h
  exact {
    params := h1
    idle := fun _ => h3
    inReset := fun _ => h2
    position := by simp [h2]
    bufBound := by omega
    bufFresh := by intro e; rw [e] at h4; simp at h4
    endEmpty := by intro e; simpa [e] using h5
    readAhead := h6
    accBound := by omega
    accFull := by intro e; rw [e] at h7; simp at h7
    accZeros := .inr h8
    noError := by intro e; simpa [e, and_assoc] using h9
    anError := by intro e; exact ⟨h2, by simpa [e] using h9⟩
    result := ⟨h10, h11⟩
    entries := by
      intro x hx
      obtain ⟨⟨⟨⟨⟨a1, a2⟩, a3⟩, a4⟩, a5⟩, a6⟩ := h12 x hx
      exact ⟨a1, a2, a3, a4, a5, fun hc => by simpa [hc] using a6⟩
    codes := h13
    capacity := h14
    maxLen := h15
    doneHdr := by intro e; simpa [e] using h16
    candBound := ⟨by omega, h18⟩
    candShort := fun _ => h17
    candHeader := by intro e; simpa [e, and_assoc] using h19
    lastSym := by intro e; simpa [e] using h20
    doneEof := by intro e; simpa [e] using h21 }

theorem test_inv_reset : Inv State.reset := inv_of_idleInv (by decide)
theorem test_inv_atHeader : Inv (atHeader aaab) := inv_of_idleInv (by decide)
theorem test_inv_inBody : Inv (inBody 0) ∧ Inv (inBody 7) := ⟨inv_of_idleInv (by decide), inv_of_idleInv (by decide)⟩
theorem test_inv_finished : Inv finished := inv_of_idleInv (by decide)
theorem test_inv_inError : Inv inError := inv_of_idleInv (by decide)

theorem test_inv_holding : Inv holding := {
  test_inv_reset with
  idle := by simp [holding]
  inReset := by simp [holding, State.reset, State.resetWith]
  position := by
    intro c hc
    simp only [holding, Option.some.injEq] at hc
    subst hc
    exact ⟨⟨by decide, by decide, rfl, by decide⟩, 4, 0, 0, .rd, rfl, by decide, rfl, rfl⟩
  bufFresh := by simp [holding, State.reset, State.resetWith]
  accFull := by simp [holding, State.reset, State.resetWith]
  anError := by simp [holding, State.reset, State.resetWith] }

/-! ### Witnesses: for each obligation with hypotheses, states and operands that meet them all -/

theorem test_witness_OpcodeMapDecodes :
    (0 : BitVec 6).toNat ≤ 32 ∧ (32 : BitVec 6).toNat ≤ 32 ∧ 0xB0000000 ≤ (0xB0000000 : Word).toNat ∧
      0xB0000000 ≤ (0xFFFFFFFF : Word).toNat := by decide

theorem test_witness_DecodeChecksEveryField :
    0xB ≤ (0xB0000000 : Word).toNat / 2 ^ 28 ∧
      ((0x20000040 : Word).toNat / 2 ^ 28 = 2 ∧ (0x20000040 : Word).toNat / 2 ^ 6 % 2 ^ 22 ≠ 0) ∧
      ((0x30000021 : Word).toNat / 2 ^ 28 = 3 ∧ (0x30000021 : Word).toNat / 2 ^ 6 % 2 ^ 22 = 0 ∧
        32 < (0x30000021 : Word).toNat % 2 ^ 6) ∧
      ((0x20000020 : Word).toNat / 2 ^ 28 = 2 ∧ (0x20000020 : Word).toNat / 2 ^ 6 % 2 ^ 22 = 0 ∧
        (0x20000020 : Word).toNat % 2 ^ 6 ≤ 32) ∧
      ((0x10000001 : Word).toNat / 2 ^ 28 < 0xB ∧ (0x10000001 : Word).toNat / 2 ^ 28 ≠ 2 ∧
        (0x10000001 : Word).toNat / 2 ^ 28 ≠ 3 ∧ (0x10000001 : Word).toNat % 2 ^ 28 ≠ 0) ∧
      ((0xA0000000 : Word).toNat / 2 ^ 28 < 0xB ∧ (0xA0000000 : Word).toNat % 2 ^ 28 = 0) := by decide

theorem test_witness_DecodeInvertsEncode : Instr.wellFormed (.rd 32) = true ∧ Instr.wellFormed (.wr 0) = true := by decide

theorem test_witness_EncodeInvertsDecode : decode 0x20000020 = .cmd (.rd 32) ∧ decode 0xA0000000 = .cmd .dec := by decide

theorem test_witness_StepRunsTheWrittenCommand :
    (∃ (s : State) (l : List HostMove),
      s.moves = { after := some 0, event := .write (s.params.regBase + 8) 4 0 } :: l ∧ s.rst = false ∧
        decode 0 = .cmd .nop) ∧
      (∃ (s : State) (l : List HostMove),
        s.moves = { after := none, event := .write (s.params.regBase + 8) 4 0x10000000 } :: l ∧ s.atRest = true ∧
          s.rst = false ∧ decode 0x10000000 = .cmd .reset) ∧ Instr.wellFormed (.rd 32) = true :=
  ⟨⟨{ State.reset with moves := [{ after := some 0, event := .write 8 4 0 }] }, [], rfl, rfl, by decide⟩,
    ⟨{ holding with moves := [{ after := none, event := .write 8 4 0x10000000 }] }, [], rfl, rfl, rfl, by decide⟩,
    by decide⟩

theorem test_witness_IllegalWordRaisesIllegalCmd :
    State.reset.busy = false ∧ State.reset.err = false ∧ decode 0xB0000000 = .illegal .reservedOpcode ∧
      decode 0x20000040 = .illegal .reservedBits ∧ decode 0x20000021 = .illegal .countTooLarge := by decide

theorem test_witness_BusyAndErrorTakeOnlyReset :
    (holding.busy = true ∧ (0x10000001 : Word) ≠ 0x10000000) ∧ inError.busy = false ∧ inError.err = true := by decide

theorem test_witness_PhaseTableIsEnforced :
    ((inBody 0).busy = false ∧ (inBody 0).err = false ∧ (inBody 0).pend = .none ∧ (inBody 0).hdrDone = true ∧
      (inBody 0).done = false) ∧
      (State.reset.busy = false ∧ State.reset.err = false ∧ State.reset.pend = .none ∧ State.reset.hdrDone = false) ∧
      (finished.busy = false ∧ finished.err = false ∧ finished.pend = .none ∧ finished.hdrDone = true ∧
        finished.done = true) ∧ ∃ t, exec .hent State.reset = .next t :=
  ⟨by decide, by decide, by decide, _, rfl⟩

theorem test_witness_ResetCommandResetsTheUnit : 0 % 4 = 0 ∧ 0xFC % 4 = 0 ∧ 0xFC < 256 := by decide

theorem test_witness_ResetStateReadsItsResetValues : 0 % 4 = 0 ∧ 0xFC % 4 = 0 ∧ 0xFC < 256 := by decide

theorem test_witness_RstInputResetsTheUnit : ({ State.reset with rst := true } : State).rst = true ∧ 0xFC % 4 = 0 := by decide

theorem test_witness_IllegalAccessIsRefused : (0 < 256 ∧ 1 ≠ 4) ∧ 255 < 256 ∧ 255 % 4 ≠ 0 := by decide

theorem test_witness_ReservedOffsetsReadZero : (0x60 % 4 = 0 ∧ 0x60 ≤ 0xFC) ∧ 0xFC % 4 = 0 ∧ 0x60 ≤ 0xFC := by decide

theorem test_witness_ReadsHaveNoSideEffect : 0xFC % 4 = 0 ∧ 0xFC < 256 ∧ State.reset.busy = false ∧ State.reset.rst = false := by
  decide

theorem test_witness_ReadsWhileBusyAreDraws :
    holding.busy = true ∧ holding.rst = false ∧ State.reset.busy = false ∧ State.reset.rst = false ∧ 0x5C % 4 = 0 := by decide

theorem test_witness_WritesWhileBusyAreDropped :
    holding.busy = true ∧ holding.rst = false ∧ (0x08 % 4 = 0 ∧ (0 : Word) ≠ 0x10000000) ∧ 0xFC % 4 = 0 := by decide

theorem test_witness_WritesSetTheirFields :
    (State.reset.busy = false ∧ State.reset.rst = false) ∧ (inError.busy = false ∧ inError.rst = false) ∧
      ∀ off ∈ [0x00, 0x10, 0x44, 0x54, 0x5C], off % 4 = 0 ∧
        (off = 0x00 ∨ (0x10 ≤ off ∧ off ≤ 0x44) ∨ (0x54 ≤ off ∧ off ≤ 0x5C)) := by decide

theorem test_witness_MapWindowShowsTheEntry :
    let s := { inBody 0 with mapSelIdx := 2 }
    (s.mapSelIdx.toNat < s.params.mapEntries ∧ s.map[s.mapSelIdx.toNat]? = some entryEof ∧ entryEof.sym.length < 65536) ∧
      ({ s with mapSelIdx := 3 } : State).map.length ≤ ({ s with mapSelIdx := 3 } : State).mapSelIdx.toNat ∧
      s.params.mapEntries ≤ ({ s with mapSelIdx := 16 } : State).mapSelIdx.toNat := by decide

theorem canRun_reset : State.reset.canRun := ⟨rfl, rfl, rfl, rfl⟩
theorem canRun_source (l : List Byte) : (source l State.reset).canRun := ⟨rfl, rfl, rfl, rfl⟩
theorem canRun_atHeader (l : List Byte) : (atHeader l).canRun := ⟨rfl, rfl, rfl, rfl⟩
theorem canRun_inBody (k : Nat) : (inBody k).canRun := ⟨rfl, rfl, rfl, rfl⟩

theorem test_witness_NopOnlyCompletes : finished.canRun := ⟨rfl, rfl, rfl, rfl⟩

theorem test_witness_RdReturnsTheNextBits :
    ((32 : BitVec 6).toNat ≤ 32 ∧ (source [0xDE, 0xAD, 0xBE, 0xEF] State.reset).canRun ∧
      (32 : BitVec 6).toNat ≤ (source [0xDE, 0xAD, 0xBE, 0xEF] State.reset).availBits.length) ∧
      (source [] State.reset).canRun ∧ (source [] State.reset).sourceEnds :=
  ⟨⟨by decide, canRun_source _, by decide⟩, canRun_source _, .inr rfl⟩

theorem test_witness_SrcErrorEndsRd :
    let s := { State.reset with srcReady := [.byte 0xA5, .error] }
    s.canRun ∧ s.srcEnd = false ∧ s.availBits.length < (9 : BitVec 6).toNat ∧ readyStop s.srcReady = some .error :=
  ⟨⟨rfl, rfl, rfl, rfl⟩, by decide, by decide, by decide⟩

theorem prefixFree_m1 : codesPrefixFree [entryA, entryB, entryEof] := by
  intro i j x y hi hj h
  have hi' := (List.getElem?_eq_some_iff.1 hi).1
  have hj' := (List.getElem?_eq_some_iff.1 hj).1
  simp only [List.length_cons, List.length_nil] at hi' hj'
  interval_cases i <;> interval_cases j <;> simp at hi hj <;> subst hi hj <;> first | rfl | (revert h; decide)

/-- The aaab text and its EOF code in M1, prefix-free, and in M1 with c: the candidate "10" is b's code and only begins c's. -/
theorem turn_m1 : matchedInTurn [entryA, entryB, entryEof] 0 ([entryA, entryA, entryA, entryB] ++ [entryEof]) :=
  prefixFree_m1.matchedInTurn _ (by decide) (by intro x h; simp at h; subst h; decide)

theorem turn_prefix (m : List MapEntry) (hm : m = [entryA, entryB, entryEof, entryC] ∨ m = [entryA, entryB, entryC, entryEof]) :
    matchedInTurn m 0 ([entryA, entryA, entryA, entryB] ++ [entryEof]) := by
  rcases hm with rfl | rfl <;> simp only [matchedInTurn, matchedFirst, List.cons_append, List.nil_append] <;> decide

/-- The host has `n` acknowledgements ready on OUT and no more. -/
def outAcks (n : Nat) (s : State) : State := { s with outReady := List.replicate n .ack }

/-- An RD one byte short; a WR 1 that fills a byte nobody takes, and a WR 16 whose second byte nobody takes; a FLUSH; P3's BODY
whose third byte nobody takes, and its first BSTEP. -/
theorem test_witness_RdHoldsOnTheSource :
    (let s := { State.reset with srcReady := [.byte 0xA5] };
      s.canRun ∧ s.srcEnd = false ∧ s.availBits.length < (9 : BitVec 6).toNat ∧ readyStop s.srcReady = none) ∧
      (let s := { State.reset with bwAcc := 0xFE, bwCnt := 7 };
        s.canRun ∧ s.bwCnt.toNat ≤ 7 ∧ s.woutReady = List.replicate 0 .ack ∧ 0 < (s.bwCnt.toNat + (1 : BitVec 6).toNat) / 8) ∧
      (let s := { State.reset with woutReady := [.ack] };
        s.canRun ∧ s.woutReady = List.replicate 1 .ack ∧ 1 < (s.bwCnt.toNat + (16 : BitVec 6).toNat) / 8) ∧
      (let s := { State.reset with bwAcc := 0xFE, bwCnt := 7 }; s.canRun ∧ s.bwCnt ≠ 0 ∧ s.woutReady = []) ∧
      (let s := outAcks 2 (inBody 0);
        Inv s ∧ s.canRun ∧
          BodyAt .body s [] s.map [entryA, entryA] [] (false :: [true, false, true, true]) (List.replicate 0 .ack) ∧
          s.map[0]? = some entryA ∧ codeBits entryA = [] ++ [false] ∧ entryA.sym ≠ s.params.eofBytes ∧
          entryA.sym[0]? = some 0x61) ∧
      (let s := outAcks 0 (inBody 0);
        Inv s ∧ s.canRun ∧
          BodyAt .bstep s [] s.map [] [] (false :: [false, false, true, false, true, true]) (List.replicate 0 .ack)) := by
  refine ⟨⟨⟨rfl, rfl, rfl, rfl⟩, by decide, by decide, by decide⟩, ⟨⟨rfl, rfl, rfl, rfl⟩, by decide, by decide, by decide⟩,
    ⟨⟨rfl, rfl, rfl, rfl⟩, by decide, by decide⟩, ⟨⟨rfl, rfl, rfl, rfl⟩, by decide, by decide⟩,
    ⟨inv_of_idleInv (by decide), ⟨rfl, rfl, rfl, rfl⟩, ?_, by decide, by decide, by decide, by decide⟩,
    inv_of_idleInv (by decide), ⟨rfl, rfl, rfl, rfl⟩, ?_⟩
  · exact {
      begins := .inl ⟨by decide, rfl, rfl, rfl, rfl⟩
      bits := ⟨_, rfl, by decide⟩
      symbols := by decide
      loops := fun _ => by decide
      turn := prefixFree_m1.matchedInTurn _ (by decide) (by intro x h; simp at h; subst h; decide)
      one := by decide
      grows := by decide
      unmatched := by decide
      acks := rfl }
  · exact {
      begins := .inl ⟨by decide, rfl, rfl, rfl, rfl⟩
      bits := ⟨_, rfl, by decide⟩
      symbols := by decide
      loops := fun h => absurd rfl h
      turn := trivial
      one := fun _ => by decide
      grows := by decide
      unmatched := by decide
      acks := rfl }

theorem test_witness_TopUpIsLazy : { holding with pend := .none }.pend ≠ .src ∧ (unitOp { holding with pend := .none }).pend = .src := by
  decide

theorem test_witness_EndIsFinal : Inv finished ∧ finished.srcEnd = true ∧ ∃ t, step finished = .next t :=
  ⟨test_inv_finished, rfl, _, rfl⟩

theorem test_witness_ReaderOnlyMovesForward : Inv (inBody 0) ∧ ∃ t, step (inBody 0) = .next t :=
  ⟨test_inv_inBody.1, _, rfl⟩

theorem test_witness_PortAnswersEndTheHold :
    holding.pend = .src ∧ emitting.pend = .out 0x61 ∧ offering.pend = .wout 0x41 ∧ State.reset.pend = .none := by decide

theorem test_witness_HostMovesDoNotDisturbTheCommand :
    holding.busy = true ∧ ∃ t, deliver (.write 0x48 4 3) holding = .next t := ⟨rfl, _, rfl⟩

theorem test_witness_WrAppendsTheBits :
    let s := { acks State.reset with bwAcc := 0xFE, bwCnt := 7 }
    (32 : BitVec 6).toNat ≤ 32 ∧ s.canRun ∧ s.bwCnt.toNat ≤ 7 ∧ s.acksWout ((s.bwCnt.toNat + (32 : BitVec 6).toNat) / 8) :=
  ⟨by decide, ⟨rfl, rfl, rfl, rfl⟩, by decide, rfl⟩

theorem test_witness_FlushPadsAndSends :
    let s := { acks State.reset with bwAcc := 0xFE, bwCnt := 7 }
    s.canRun ∧ s.bwCnt.toNat ≤ 7 ∧ s.bwAcc.toNat % 2 ^ (8 - s.bwCnt.toNat) = 0 ∧ s.acksWout 1 :=
  ⟨⟨rfl, rfl, rfl, rfl⟩, by decide, by decide, rfl⟩

theorem test_witness_SinkErrorsEndTheCommand : offering.pend = .wout 0x41 ∧ emitting.pend = .out 0x61 := by decide

theorem test_witness_BadLengthIsRefused :
    (State.reset.busy = false ∧ State.reset.err = false ∧ State.reset.hdrDone = false ∧ State.reset.cfgL.toNat < 1) ∧
      32 < (withHostRegs 33 0 State.reset).cfgL.toNat := by decide

theorem entryFits_entryA : entryFits Config.vectorParams 2 entryA :=
  ⟨by decide, by decide, by decide, by decide, by decide, by decide, by decide⟩

/-- H1-1. -/
theorem test_witness_HentInsertsTheEntry :
    (atHeader aaab).canRun ∧ (atHeader aaab).params.symBytesMax ≤ 65535 ∧
      entryFits (atHeader aaab).params (atHeader aaab).cfgL.toNat entryA ∧
      matchCode (atHeader aaab).map 1 0 = none ∧ (atHeader aaab).map.length < (atHeader aaab).params.mapEntries ∧
      ∃ rest, (atHeader aaab).availBits = entryBits (atHeader aaab).cfgL.toNat entryA ++ rest :=
  ⟨canRun_atHeader _, by decide, entryFits_entryA, by decide, by decide, _, rfl⟩

/-- H1-4. -/
theorem test_witness_HentEndsTheHeaderAtMapEnd :
    let s := atHeader [0x40, 0xC7, 0x40]
    s.canRun ∧ s.hdrDone = false ∧ paramsLegal s.params = true ∧ s.params.mapEndBytes.length < 2 ^ s.cfgL.toNat ∧
      ∃ rest, s.availBits = mapEndBits s.params s.cfgL.toNat 3 [true, false, true] ++ rest :=
  ⟨canRun_atHeader _, by decide, by decide, by decide, _, rfl⟩

/-- H2-2, H2-3, H2-10 with CHECK_UTF8 (then with nothing after the symbol), H2-6 and H2-8 in HENT, with each clause's other
conditions; then H2-8, a zero SYMLEN and H2-9 after entry a, in HDR and DEC. -/
theorem test_witness_HentRejectsBadEntries :
    (parsesAfter .hent [] ∧ parsesAfter .hdr [entryA] ∧ parsesAfter .dec [entryA]) ∧
      mapTakes Config.vectorParams 2 [] [entryA] ∧
      (∃ rest, (atHeader [0x00]).availBits = [].flatMap (entryBits 2) ++ (bitsOf 2 0 ++ rest)) ∧
      (let s := { atHeader [0x88] with cfgL := 5 };
        s.canRun ∧ paramsLegal s.params = true ∧ s.params.symBytesMax < 17 ∧ 17 < 2 ^ 5 ∧
          ∃ rest, s.availBits = [].flatMap (entryBits 5) ++ (bitsOf 5 17 ++ rest)) ∧
      (let s := { atHeader [0x7F, 0xC0] with params := { Config.vectorParams with checkUtf8 := true } };
        let u := { s with brBuf := 0x01, brCnt := 2, srcReady := [.byte 0xFF] };
        (s.canRun ∧ u.canRun) ∧ paramsLegal s.params = true ∧ wellFormedUtf8 [0xFF] = false ∧
          (∃ rest, s.availBits = [].flatMap (entryBits 2) ++ (bitsOf 2 1 ++ bytesBits [0xFF] ++ rest)) ∧
          u.availBits = [].flatMap (entryBits 2) ++ (bitsOf 2 1 ++ bytesBits [0xFF] ++ [])) ∧
      (∃ rest, (atHeader [0x58, 0x40]).availBits =
        [].flatMap (entryBits 2) ++ (bitsOf 2 1 ++ bytesBits [0x61] ++ bitsOf 5 0 ++ rest)) ∧
      (let s := { atHeader [0x58, 0x82] with map := [entryA], maxLen := 1 };
        s.canRun ∧ entryFits s.params 2 { clen := 1, code := 0, sym := [0x62] } ∧ matchCode (s.map ++ []) 1 0 ≠ none ∧
          ∃ rest, s.availBits = [].flatMap (entryBits 2) ++ (entryBits 2 { clen := 1, code := 0, sym := [0x62] } ++ rest)) ∧
      (let s := atHeader [0x58, 0x42, 0x58, 0x82];
        s.canRun ∧ matchCode (s.map ++ [entryA]) 1 0 ≠ none ∧
          ∃ rest, s.availBits = [entryA].flatMap (entryBits 2) ++
            (entryBits 2 { clen := 1, code := 0, sym := [0x62] } ++ rest)) ∧
      (∃ rest, (atHeader [0x58, 0x42, 0x00]).availBits = [entryA].flatMap (entryBits 2) ++ (bitsOf 2 0 ++ rest)) ∧
      (let s :=
          { atHeader [0x58, 0x42, 0x58, 0x85, 0x00] with params := { Config.vectorParams with mapEntries := 1 } };
        s.canRun ∧ paramsLegal s.params = true ∧ mapTakes s.params 2 s.map [entryA] ∧ entryFits s.params 2 entryB ∧
          matchCode (s.map ++ [entryA]) 2 2 = none ∧ (s.map ++ [entryA]).length = s.params.mapEntries ∧
          ∃ rest, s.availBits = [entryA].flatMap (entryBits 2) ++ (entryBits 2 entryB ++ rest)) := by
  refine ⟨⟨.inl ⟨rfl, rfl⟩, .inr (.inl rfl), .inr (.inr rfl)⟩, ⟨entryFits_entryA, by decide, by decide, trivial⟩, ⟨_, rfl⟩,
    ⟨⟨rfl, rfl, rfl, rfl⟩, by decide, by decide, by decide, _, rfl⟩,
    ⟨⟨⟨rfl, rfl, rfl, rfl⟩, rfl, rfl, rfl, rfl⟩, by decide, by decide, ⟨_, rfl⟩, by decide⟩,
    ⟨_, rfl⟩, ⟨⟨rfl, rfl, rfl, rfl⟩, ?_, by decide, _, rfl⟩, ⟨⟨rfl, rfl, rfl, rfl⟩, by decide, _, rfl⟩, ⟨_, rfl⟩,
    ⟨rfl, rfl, rfl, rfl⟩, by decide, ⟨entryFits_entryA, by decide, by decide, trivial⟩, ?_, by decide, by decide, _, rfl⟩ <;>
    exact ⟨by decide, by decide, by decide, by decide, by decide, by decide, by decide⟩

/-- Entry a of the container cut at both ends of each field: SYMLEN (0 and 1 bits), SYM (9), CLEN (10 and 14), CODE (15); and
entry b, after entry a in HDR and DEC, cut after 8 bits. The source ends there, answers `Error`, or has given no answer. -/
theorem test_witness_HentReportsTruncation :
    let s (k : Nat) (l : List Byte) : State := { atHeader l with brBuf := 0x58 >>> (8 - k), brCnt := BitVec.ofNat 4 k };
    let u (l : List SrcAnswer) : State := { atHeader [] with srcReady := [.byte 0x58, .byte 0x42, .byte 0x58] ++ l };
    (∀ k l, (s k l).canRun) ∧ (s 0 []).sourceEnds ∧ (s 7 [0x21]).sourceEnds ∧ 15 < (entryBits 2 entryA).length ∧
      (parsesAfter .hent [] ∧ entryFits Config.vectorParams 2 entryA) ∧
      (s 0 []).availBits = [].flatMap (entryBits 2) ++ (entryBits 2 entryA).take 0 ∧
      (s 1 []).availBits = [].flatMap (entryBits 2) ++ (entryBits 2 entryA).take 1 ∧
      (s 1 [0xB0]).availBits = [].flatMap (entryBits 2) ++ (entryBits 2 entryA).take 9 ∧
      (s 2 [0x61]).availBits = [].flatMap (entryBits 2) ++ (entryBits 2 entryA).take 10 ∧
      (s 6 [0x10]).availBits = [].flatMap (entryBits 2) ++ (entryBits 2 entryA).take 14 ∧
      (s 7 [0x21]).availBits = [].flatMap (entryBits 2) ++ (entryBits 2 entryA).take 15 ∧
      ((parsesAfter .hdr [entryA] ∧ parsesAfter .dec [entryA]) ∧ mapTakes Config.vectorParams 2 [] [entryA] ∧
        ∀ l ∈ [[], [SrcAnswer.endOfData], [SrcAnswer.error]],
          (u l).availBits = [entryA].flatMap (entryBits 2) ++ (entryBits 2 entryB).take 8) ∧
      (∀ l, (u l).canRun) ∧ readyStop (u []).srcReady = none ∧ (u [.endOfData]).sourceEnds ∧
      readyStop (u [.error]).srcReady = some .error :=
  ⟨fun _ _ => ⟨rfl, rfl, rfl, rfl⟩, .inr rfl, .inr rfl, by decide, ⟨.inl ⟨rfl, rfl⟩, entryFits_entryA⟩, by decide, by decide,
    by decide, by decide, by decide, by decide,
    ⟨⟨.inr (.inl rfl), .inr (.inr rfl)⟩, ⟨entryFits_entryA, by decide, by decide, trivial⟩, by decide⟩,
    fun _ => ⟨rfl, rfl, rfl, rfl⟩, rfl, .inr rfl, rfl⟩

/-- MAP_END "01 00000011", then the tail cut in its code length (6 bits of "000110...") and in its code bits, in HENT; and,
after entry a in HDR and DEC, before its first bit. -/
theorem test_witness_HentReportsTailTruncation :
    (atHeader [0x40, 0xC7]).canRun ∧ (atHeader [0x40, 0xC7]).sourceEnds ∧ paramsLegal Config.vectorParams = true ∧
      (atHeader [0x40, 0xC7]).availBits =
        [].flatMap (entryBits 2) ++ (mapEndBits Config.vectorParams 2 3 [true, false, true]).take 16 ∧
      (let s := { atHeader [0x03] with brBuf := 0x01, brCnt := 4, cfgL := 4 };
        s.canRun ∧ s.availBits.length = 12 ∧
          s.availBits = [].flatMap (entryBits 4) ++ (mapEndBits s.params 4 3 [true, false, true]).take 12) ∧
      12 < (mapEndBits Config.vectorParams 4 3 [true, false, true]).length ∧
      (let s := { atHeader [0x61, 0x09, 0x03] with brBuf := 0x01, brCnt := 2 };
        s.canRun ∧ s.sourceEnds ∧ mapTakes s.params 2 s.map [entryA] ∧
          s.availBits = [entryA].flatMap (entryBits 2) ++ (mapEndBits s.params 2 0 []).take 10) := by
  exact ⟨canRun_atHeader _, .inr rfl, by decide, by decide, ⟨⟨rfl, rfl, rfl, rfl⟩, by decide, by decide⟩, by decide,
    ⟨rfl, rfl, rfl, rfl⟩, .inr rfl, ⟨entryFits_entryA, by decide, by decide, trivial⟩, by decide⟩

theorem mapTakes_m1 : mapTakes Config.vectorParams 2 [] [entryA, entryB, entryEof] := by
  refine ⟨entryFits_entryA, by decide, by decide, ?_, by decide, by decide, ?_, by decide, by decide, trivial⟩ <;>
    exact ⟨by decide, by decide, by decide, by decide, by decide, by decide, by decide⟩

theorem mapTakes_m1C : mapTakes Config.vectorParams 2 [] [entryA, entryB, entryC, entryEof] := by
  refine ⟨entryFits_entryA, by decide, by decide, ?_, by decide, by decide, ?_, by decide, by decide, ?_, by decide, by decide,
    trivial⟩ <;>
    exact ⟨by decide, by decide, by decide, by decide, by decide, by decide, by decide⟩

theorem test_witness_HeaderWithoutMapEndIsTruncated :
    (atHeader [0x58, 0x42]).canRun ∧ (atHeader [0x58, 0x42]).sourceEnds ∧
      mapTakes Config.vectorParams 2 [] [entryA] ∧ (atHeader [0x58, 0x42]).availBits = [entryA].flatMap (entryBits 2) :=
  ⟨canRun_atHeader _, .inr rfl, ⟨entryFits_entryA, by decide, by decide, trivial⟩, by decide⟩

/-- H1-2. -/
theorem test_witness_HdrParsesTheWholeHeader :
    (atHeader aaab).canRun ∧ (atHeader aaab).hdrDone = false ∧ paramsLegal (atHeader aaab).params = true ∧
      mapTakes (atHeader aaab).params 2 (atHeader aaab).map [entryA, entryB, entryEof] ∧
      ∃ rest, (atHeader aaab).availBits = headerBits (atHeader aaab).params 2 [entryA, entryB, entryEof] 0 [] ++ rest :=
  ⟨canRun_atHeader _, by decide, by decide, mapTakes_m1, _, rfl⟩

/-- B1-1, B1-4, B1-6: a data symbol's code, the EOF code's last bit, and a bit that matches nothing yet. -/
theorem test_witness_BstepMatchesOneBit :
    (Inv (inBody 0) ∧ (inBody 0).canRun ∧ (inBody 0).hdrDone = true ∧ (inBody 0).done = false ∧
      codeBits entryA = (inBody 0).candBits ++ [false] ∧ entryA.sym ≠ (inBody 0).params.eofBytes ∧
      (inBody 0).acksOut 1 (List.replicate 7 .ack) ∧ ∃ rest, (inBody 0).availBits = false :: rest) ∧
      (let s := { inBody 6 with cand := 1, candLen := 1 };
        Inv s ∧ s.canRun ∧ s.map[2]? = some entryEof ∧ codeBits entryEof = s.candBits ++ [true] ∧
          entryEof.sym = s.params.eofBytes ∧ ∃ rest, s.availBits = true :: rest) ∧
      (Inv (inBody 3) ∧ (inBody 3).canRun ∧ (∀ x ∈ (inBody 3).map, codeBits x ≠ (inBody 3).candBits ++ [true]) ∧
        (inBody 3).candLen.toNat + 1 ≤ (inBody 3).maxLen.toNat ∧ ∃ rest, (inBody 3).availBits = true :: rest) :=
  ⟨⟨test_inv_inBody.1, canRun_inBody 0, by decide, by decide, by decide, by decide, rfl, _, rfl⟩,
    ⟨inv_of_idleInv (by decide), ⟨rfl, rfl, rfl, rfl⟩, by decide, by decide, by decide, _, rfl⟩,
    inv_of_idleInv (by decide), canRun_inBody 3, by decide, by decide, _, rfl⟩

/-- BODY_NO_MATCH: B2-5, with an empty map, at the first step of a BSTEP, and B2-1's DEC, after one symbol. The bits give out:
before a BSTEP's bit, at BSYM's second, and in a BODY after six symbols, with a map that is not prefix-free, where the source
ends, answers `Error`, or has given no answer. -/
theorem test_witness_CorruptBodyIsFatal :
    (let s := { atHeader [] with hdrDone := true, brPos := 15, brCnt := 1, brBuf := 0xC0, srcStream := [0x40, 0xC0] };
      Inv s ∧ s.canRun ∧ BodyAt .bstep s [] s.map [] [] [false] s.outReady ∧ ([] : List Bool).length = maxCodeLen s.map) ∧
      (let s := atHeader [0x58, 0x42, 0x41, 0x05, 0xA0, 0x60, 0x40];
        Inv s ∧ s.canRun ∧
          BodyAt .dec s (headerBits s.params 2 [entryA, entryEof] 0 []) [entryA, entryEof] [entryA] [true, false]
            (false :: [false, false, false, false]) (List.replicate 7 .ack) ∧
          [true, false].length = maxCodeLen [entryA, entryEof]) ∧
      (Inv (inBody 7) ∧ (inBody 7).canRun ∧ BodyAt .bstep (inBody 7) [] (inBody 7).map [] [] [] (inBody 7).outReady) ∧
      (Inv (inBody 6) ∧ (inBody 6).canRun ∧ BodyAt .bsym (inBody 6) [] (inBody 6).map [] [true] [] (inBody 6).outReady) ∧
      ∀ l ∈ [[], [SrcAnswer.endOfData], [SrcAnswer.error]],
        let s := { inPrefixBody 0 with brBuf := 0x01, srcReady := l };
        Inv s ∧ s.canRun ∧
          BodyAt .body s [] s.map (List.replicate 6 entryA) [true] [] (List.replicate 2 .ack) ∧
          [true].length ≤ maxCodeLen s.map := by
  refine ⟨⟨inv_of_idleInv (by decide), ⟨rfl, rfl, rfl, rfl⟩, ?_, by decide⟩,
    ⟨inv_of_idleInv (by decide), ⟨rfl, rfl, rfl, rfl⟩, ?_, by decide⟩,
    ⟨test_inv_inBody.2, canRun_inBody 7, ?_⟩, ⟨inv_of_idleInv (by decide), canRun_inBody 6, ?_⟩, ?_⟩
  · exact {
      begins := .inl ⟨by decide, rfl, rfl, rfl, rfl⟩
      bits := ⟨_, rfl, by decide⟩
      symbols := by decide
      loops := fun h => absurd rfl h
      turn := trivial
      one := fun _ => by decide
      grows := by decide
      unmatched := by decide
      acks := rfl }
  · exact {
      begins := .inr ⟨rfl, rfl, by decide, by decide, by decide, [entryA, entryEof], 0, [], by decide, rfl,
        ⟨entryFits_entryA, by decide, by decide, ⟨by decide, by decide, by decide, by decide, by decide, by decide, by decide⟩,
          by decide, by decide, trivial⟩, rfl, rfl⟩
      bits := ⟨[false, true, false, false, false, false, false, false], by decide, by decide⟩
      symbols := by decide
      loops := fun _ => by decide
      turn := by simp only [matchedInTurn, matchedFirst]; decide
      one := by decide
      grows := by decide
      unmatched := by decide
      acks := rfl }
  · exact {
      begins := .inl ⟨by decide, rfl, rfl, rfl, rfl⟩
      bits := ⟨_, rfl, by decide⟩
      symbols := by decide
      loops := fun h => absurd rfl h
      turn := trivial
      one := fun _ => by decide
      grows := by decide
      unmatched := by decide
      acks := rfl }
  · exact {
      begins := .inl ⟨by decide, rfl, rfl, rfl, rfl⟩
      bits := ⟨_, rfl, by decide⟩
      symbols := by decide
      loops := fun h => absurd rfl h
      turn := trivial
      one := by decide
      grows := by decide
      unmatched := by decide
      acks := rfl }
  · intro l hl
    have h : l = [] ∨ l = [.endOfData] ∨ l = [.error] := by simpa using hl
    rcases h with rfl | rfl | rfl
    all_goals
      refine ⟨inv_of_idleInv (by decide), ⟨rfl, rfl, rfl, rfl⟩, ?_, by decide⟩
      exact {
        begins := .inl ⟨by decide, rfl, rfl, rfl, rfl⟩
        bits := ⟨_, rfl, by decide⟩
        symbols := by decide
        loops := fun _ => by decide
        turn := by simp only [matchedInTurn, matchedFirst, List.replicate]; decide
        one := by decide
        grows := by decide
        unmatched := by decide
        acks := rfl }

/-- The EOF code and a's in M1, from an empty candidate; and b's code from the candidate "1", where it is a proper prefix of
c's. -/
theorem test_witness_BsymDecodesOneSymbol :
    (Inv (inBody 5) ∧ (inBody 5).canRun ∧ (inBody 5).map[2]? = some entryEof ∧
      (inBody 5).candLen.toNat < entryEof.clen.toNat ∧ matchedFirst (inBody 5).map (inBody 5).candLen.toNat entryEof ∧
      ∃ rest, (inBody 5).candBits ++ (inBody 5).availBits = codeBits entryEof ++ rest) ∧
      ((inBody 0).acksOut entryA.sym.length (List.replicate 7 .ack) ∧
        matchedFirst (inBody 0).map (inBody 0).candLen.toNat entryA ∧
        ∃ rest, (inBody 0).candBits ++ (inBody 0).availBits = codeBits entryA ++ rest) ∧
      (let s := { inPrefixBody 4 with cand := 1, candLen := 1 };
        Inv s ∧ s.canRun ∧ s.map[1]? = some entryB ∧ s.candLen.toNat < entryB.clen.toNat ∧
          matchedFirst s.map s.candLen.toNat entryB ∧ (∃ rest, s.candBits ++ s.availBits = codeBits entryB ++ rest) ∧
          s.acksOut entryB.sym.length (List.replicate 7 .ack) ∧ ¬codesPrefixFree s.map) := by
  refine ⟨⟨inv_of_idleInv (by decide), canRun_inBody 5, by decide, by decide, prefixFree_m1.matchedFirst (by decide) _, _, rfl⟩,
    ⟨rfl, prefixFree_m1.matchedFirst (by decide) _, _, rfl⟩,
    inv_of_idleInv (by decide), ⟨rfl, rfl, rfl, rfl⟩, by decide, by decide, by unfold matchedFirst; decide, ⟨_, rfl⟩, rfl, ?_⟩
  intro h
  exact absurd (h 1 3 entryB entryC rfl rfl (by decide)) (by decide)

/-- P3's body, in M1 and in M1 with c. -/
theorem test_witness_BodyDecodesToEof :
    (Inv (inBody 0) ∧ (inBody 0).canRun ∧ (inBody 0).map[2]? = some entryEof ∧ entryEof.sym = (inBody 0).params.eofBytes ∧
      matchedInTurn (inBody 0).map (inBody 0).candLen.toNat ([entryA, entryA, entryA, entryB] ++ [entryEof]) ∧
      (inBody 0).candBits ++ (inBody 0).availBits =
        bodyBits [entryA, entryA, entryA, entryB] ++ codeBits entryEof ++ [] ∧
      (inBody 0).acksOut (symBytes [entryA, entryA, entryA, entryB]).length (List.replicate 4 .ack)) ∧
      (Inv (inPrefixBody 0) ∧ (inPrefixBody 0).canRun ∧ (inPrefixBody 0).map[2]? = some entryEof ∧
        matchedInTurn (inPrefixBody 0).map (inPrefixBody 0).candLen.toNat
          ([entryA, entryA, entryA, entryB] ++ [entryEof]) ∧
        (inPrefixBody 0).candBits ++ (inPrefixBody 0).availBits =
          bodyBits [entryA, entryA, entryA, entryB] ++ codeBits entryEof ++ []) :=
  ⟨⟨test_inv_inBody.1, canRun_inBody 0, by decide, by decide, turn_m1, by decide, rfl⟩, inv_of_idleInv (by decide),
    ⟨rfl, rfl, rfl, rfl⟩, by decide, turn_prefix _ (.inl rfl), by decide⟩

/-- P3, and the container whose map is not prefix-free. -/
theorem test_witness_DecDecodesTheContainer :
    (Inv (atHeader aaab) ∧ (atHeader aaab).canRun ∧
      mapTakes (atHeader aaab).params 2 (atHeader aaab).map [entryA, entryB, entryEof] ∧
      matchedInTurn ((atHeader aaab).map ++ [entryA, entryB, entryEof]) 0
        ([entryA, entryA, entryA, entryB] ++ [entryEof]) ∧
      (atHeader aaab).availBits =
        headerBits (atHeader aaab).params 2 [entryA, entryB, entryEof] 0 [] ++
          (bodyBits [entryA, entryA, entryA, entryB] ++ codeBits entryEof ++ []) ∧
      (atHeader aaab).acksOut (symBytes [entryA, entryA, entryA, entryB]).length (List.replicate 4 .ack)) ∧
      (Inv (atHeader aaabC) ∧ (atHeader aaabC).canRun ∧
        mapTakes (atHeader aaabC).params 2 (atHeader aaabC).map [entryA, entryB, entryC, entryEof] ∧
        matchedInTurn ((atHeader aaabC).map ++ [entryA, entryB, entryC, entryEof]) 0
          ([entryA, entryA, entryA, entryB] ++ [entryEof]) ∧
        ∃ rest, (atHeader aaabC).availBits =
          headerBits (atHeader aaabC).params 2 [entryA, entryB, entryC, entryEof] 0 [] ++
            (bodyBits [entryA, entryA, entryA, entryB] ++ codeBits entryEof ++ rest)) :=
  ⟨⟨test_inv_atHeader, canRun_atHeader _, mapTakes_m1, turn_m1, by decide, rfl⟩, inv_of_idleInv (by decide),
    canRun_atHeader _, mapTakes_m1C, turn_prefix _ (.inr rfl), _, rfl⟩

theorem test_witness_EntryOrderDoesNotMatter :
    List.Perm [entryA, entryB] [entryB, entryA] ∧
      List.Pairwise (fun x y => ¬(x.clen = y.clen ∧ x.code = y.code)) [entryA, entryB] :=
  ⟨List.Perm.swap _ _ _, by decide⟩

/-! Each frame statement's commands from a state they run in, and from one where they are dropped (`holding`). -/

theorem test_witness_RdLeavesTheRestAlone :
    (State.reset.cur = none → State.reset.pend = .none) ∧ (∃ t, exec (.rd 8) (source [0xA5] State.reset) = .next t) ∧
      ∃ t, exec (.rd 8) holding = .next t := ⟨fun _ => rfl, ⟨_, rfl⟩, _, rfl⟩

theorem test_witness_WriterLeavesTheRestAlone :
    (∃ t, exec (.wr 8) (acks State.reset) = .next t) ∧ (∃ t, exec .flush State.reset = .next t) ∧
      ∃ t, exec .flush holding = .next t := ⟨⟨_, rfl⟩, ⟨_, rfl⟩, _, rfl⟩

theorem test_witness_HeaderParserLeavesTheRestAlone :
    (∃ t, exec .hent (atHeader aaab) = .next t) ∧ (∃ t, exec .hdr (atHeader aaab) = .next t) ∧
      ((inBody 0).hdrDone = true ∧ ∃ t, exec .hdr (inBody 0) = .next t) := ⟨⟨_, rfl⟩, ⟨_, rfl⟩, rfl, _, rfl⟩

theorem test_witness_BodyDecoderLeavesTheRestAlone :
    (∃ t, exec .bstep (inBody 0) = .next t) ∧ (∃ t, exec .bsym (inBody 0) = .next t) ∧
      (∃ t, exec .body (inBody 0) = .next t) ∧ (∃ t, exec .dec (atHeader aaab) = .next t) ∧
      ∃ t, exec .dec holding = .next t := ⟨⟨_, rfl⟩, ⟨_, rfl⟩, ⟨_, rfl⟩, ⟨_, rfl⟩, _, rfl⟩

theorem test_witness_ResumedCommandKeepsItsFrame : Inv holding ∧ holding.cur = some { instr := .rd 4, pos := .read 4 0 0 .rd } :=
  ⟨test_inv_holding, rfl⟩

theorem test_witness_ResetMeetsTheInvariant : paramsLegal Config.vectorParams = true := by decide

theorem test_witness_EveryStepKeepsTheInvariant :
    Inv ((inBody 0).withFetchWord 32 0xA0000000) ∧ ∃ t, step ((inBody 0).withFetchWord 32 0x90000000) = .next t :=
  ⟨inv_of_idleInv (by decide), _, rfl⟩

/-- The steps a RESET is not: HDR_DONE, DONE, SRC_END and OVR stand in the first state, ERR in the second. -/
theorem test_witness_FlagsAreSticky :
    (Inv finished ∧ (∃ t, step finished = .next t) ∧ finished.hdrDone = true ∧ finished.done = true ∧
      finished.srcEnd = true ∧ finished.ovr = true) ∧ Inv inError ∧ inError.err = true ∧ ∃ t, step inError = .next t :=
  ⟨⟨test_inv_finished, ⟨_, rfl⟩, rfl, rfl, rfl, rfl⟩, test_inv_inError, rfl, _, rfl⟩

theorem test_witness_FirstErrorIsKept :
    let s := inError.withFetchWord 32 0x20000008
    Inv s ∧ s.err = true ∧ ∃ t, step s = .next t := ⟨inv_of_idleInv (by decide), rfl, _, rfl⟩

theorem test_witness_MapOnlyGrowsThenFreezes :
    Inv ((atHeader aaab).withFetchWord 32 0x50000000) ∧ (∃ t, step ((atHeader aaab).withFetchWord 32 0x50000000) = .next t) ∧
      Inv (inBody 0) ∧ (inBody 0).hdrDone = true :=
  ⟨inv_of_idleInv (by decide), ⟨_, rfl⟩, test_inv_inBody.1, rfl⟩

/-- An RD that holds on SRC, a BSTEP that holds on OUT, a FLUSH that holds on WOUT; and a unit with an operation to perform. -/
theorem test_witness_CommandsRunToTheirEndOrAHold :
    (State.reset.canRun ∧ finished.canRun) ∧
      (let t := afterwards (exec (.rd 4) State.reset);
        exec (.rd 4) State.reset = .next t ∧ t.holds ∧ t.pend = .src) ∧
      (let s := outAcks 0 (inBody 0); let t := afterwards (exec .bstep s);
        s.canRun ∧ exec .bstep s = .next t ∧ t.holds ∧ t.pend = .out 0x61) ∧
      (let s := { State.reset with bwAcc := 0xE0, bwCnt := 3 }; let t := afterwards (exec .flush s);
        s.canRun ∧ exec .flush s = .next t ∧ t.holds ∧ t.pend = .wout 0xE0) ∧
      ({ holding with pend := .none } : State).moves = [] ∧ ({ holding with pend := .none } : State).atRest = false :=
  ⟨⟨canRun_reset, rfl, rfl, rfl, rfl⟩, ⟨rfl, ⟨rfl, rfl⟩, rfl⟩, ⟨⟨rfl, rfl, rfl, rfl⟩, rfl, ⟨rfl, rfl⟩, rfl⟩,
    ⟨⟨rfl, rfl, rfl, rfl⟩, rfl, ⟨rfl, rfl⟩, rfl⟩, rfl, rfl⟩

/-- BR1-1's RD leaves five bits buffered and BUSY 0. -/
theorem test_witness_ReadAheadIsBounded :
    let s := (source [0xA5] State.reset).withFetchWord 32 0x20000003
    Inv s ∧ step s = .next (afterwards (step s)) ∧ (afterwards (step s)).busy = false ∧ (afterwards (step s)).brCnt = 5 :=
  ⟨inv_of_idleInv (by decide), rfl, by decide, by decide⟩

theorem test_witness_OnlyAnUnansweredHoldFaults : holding.moves = [] ∧ holding.holds ∧ step holding = .fault .heldForever :=
  ⟨rfl, ⟨rfl, rfl⟩, rfl⟩

end Sys2Proof.Tests
end

section
/-! What one step, and one move of the host, can lead to (R261, R89): the two case analyses the invariant proofs go through. -/

namespace Sys2Proof.Machine

/-- What an answered move of the host leads to from `s` (R89). -/
inductive MoveResult (s : State) : State → Prop
  /-- A register read (R81). -/
  | read (off : Nat) : MoveResult s (busRead off s)
  /-- A register write while rst is asserted (R321). -/
  | ignored (hr : s.rst = true) : MoveResult s s
  /-- A write to CMD (R260). -/
  | command (w : Word) {t : State} (hr : s.rst = false) (ht : cmdWrite w s = .next t) : MoveResult s t
  /-- A write to another register (R60). -/
  | register (off : Nat) (v : Word) (hr : s.rst = false) : MoveResult s (regWrite off v s)
  /-- An answer on SRC (R86). -/
  | src (a : SrcAnswer) : MoveResult s (hostAnswerSrc a s)
  /-- An answer on OUT (R87). -/
  | out (a : SinkAnswer) : MoveResult s (hostAnswerOut a s)
  /-- An answer on WOUT (R87). -/
  | wout (a : SinkAnswer) : MoveResult s (hostAnswerWout a s)
  /-- Answers made ready (log 2). -/
  | ready (a : List SrcAnswer) (b d : List SinkAnswer) :
      MoveResult s { s with srcReady := a, outReady := b, woutReady := d }
  /-- A change of the rst input (R321). -/
  | rst (level : Bool) : MoveResult s (rstMove level s)

theorem hostRead_result {s t : State} {addr width : Nat} (ht : hostRead addr width s = .next t) : MoveResult s t := by
  unfold hostRead at ht
  split at ht
  · cases ht
  · split at ht
    · cases ht; exact .read _
    · cases ht

theorem hostWrite_result {s t : State} {addr width : Nat} {v : Word} (ht : hostWrite addr width v s = .next t) :
    MoveResult s t := by
  unfold hostWrite at ht
  split at ht
  · cases ht
  · split at ht
    · split at ht
      · rename_i hr; cases ht; exact .ignored hr
      · rename_i hr
        split at ht
        · exact .command v (by simpa using hr) ht
        · cases ht; exact .register _ v (by simpa using hr)
    · cases ht

theorem deliver_result {e : HostEvent} {s t : State} (ht : deliver e s = .next t) : MoveResult s t := by
  cases e with
  | read addr width => exact hostRead_result ht
  | write addr width v => exact hostWrite_result ht
  | answerSrc a => cases ht; exact .src a
  | answerOut a => cases ht; exact .out a
  | answerWout a => cases ht; exact .wout a
  | readySrc l => cases ht; exact .ready _ s.outReady s.woutReady
  | readyOut l => cases ht; exact .ready s.srcReady _ s.woutReady
  | readyWout l => cases ht; exact .ready s.srcReady s.outReady _
  | rst level => cases ht; exact .rst level

/-- What a step can do (R261): nothing, run the unit, or deliver the host's next move. -/
theorem step_cases {s t : State} (ht : step s = .next t) :
    t = s ∨ t = unitRun s ∨ ∃ m l, s.moves = m :: l ∧ MoveResult { s with moves := l } t := by
  unfold step at ht
  split at ht
  · unfold stepAlone at ht
    split at ht
    · cases ht; exact .inr (.inl rfl)
    · split at ht
      · cases ht
      · cases ht; exact .inl rfl
  · rename_i m l hm
    unfold stepMove at ht
    split at ht
    · exact .inr (.inr ⟨m, l, hm, deliver_result ht⟩)
    · cases ht; exact .inr (.inl rfl)

/-- An answer has an effect only on a request that is outstanding (R86, R87, log 16). -/
theorem hostAnswerSrc_cases (a : SrcAnswer) (s : State) :
    hostAnswerSrc a s = s ∨ (s.pend = .src ∧ hostAnswerSrc a s = answerSrc a s) := by
  unfold hostAnswerSrc
  split
  · exact .inr ⟨‹_›, rfl⟩
  all_goals exact .inl rfl

theorem hostAnswerOut_cases (a : SinkAnswer) (s : State) :
    hostAnswerOut a s = s ∨ ∃ b, s.pend = .out b ∧ hostAnswerOut a s = answerOut a b s := by
  unfold hostAnswerOut
  split
  · exact .inr ⟨_, ‹_›, rfl⟩
  all_goals exact .inl rfl

theorem hostAnswerWout_cases (a : SinkAnswer) (s : State) :
    hostAnswerWout a s = s ∨ ∃ b, s.pend = .wout b ∧ hostAnswerWout a s = answerWout a b s := by
  unfold hostAnswerWout
  split
  · exact .inr ⟨_, ‹_›, rfl⟩
  all_goals exact .inl rfl

end Sys2Proof.Machine
end

section
/-! O54: every move of the host and every step keeps the invariant. The unit's operations and the commands keep it by
Laws/Invariant.lean; here are the bus reads, the answers, the rst input, and the step itself. -/

namespace Sys2Proof.Machine

/-- A request is outstanding only while a command runs (R58). -/
theorem Inv.cur_of_pend {s : State} (h : Inv s) (hp : s.pend ≠ .none) : ∃ c, s.cur = some c :=
  Option.ne_none_iff_exists'.1 (fun hc => hp (h.idle hc))

theorem Inv.busRead {s : State} (h : Inv s) (off : Nat) : Inv (busRead off s) := by
  unfold Machine.busRead
  repeat' split
  all_goals exact h.congr _ _ _ _ _ _ _ _ _ _ _ _ _ _ _ _ _ _

theorem Inv.hostAnswerSrc {s : State} (h : Inv s) (a : SrcAnswer) : Inv (hostAnswerSrc a s) := by
  rcases hostAnswerSrc_cases a s with e | ⟨hp, e⟩ <;> rw [e]
  · exact h
  · obtain ⟨c, hc⟩ := h.cur_of_pend (by simp [hp])
    exact answerSrc_inv h hc hp a

theorem Inv.hostAnswerOut {s : State} (h : Inv s) (a : SinkAnswer) : Inv (hostAnswerOut a s) := by
  rcases hostAnswerOut_cases a s with e | ⟨b, hp, e⟩ <;> rw [e]
  · exact h
  · obtain ⟨c, hc⟩ := h.cur_of_pend (by simp [hp])
    exact answerOut_inv h hc hp a

theorem Inv.hostAnswerWout {s : State} (h : Inv s) (a : SinkAnswer) : Inv (hostAnswerWout a s) := by
  rcases hostAnswerWout_cases a s with e | ⟨b, hp, e⟩ <;> rw [e]
  · exact h
  · obtain ⟨c, hc⟩ := h.cur_of_pend (by simp [hp])
    exact answerWout_inv h hc hp a

/-- Releasing rst leaves CUR and PEND where they are; asserting it resets (R321). -/
theorem Inv.rstMove {s : State} (h : Inv s) (level : Bool) : Inv (rstMove level s) := by
  cases level with
  | true => exact hardReset_inv h true
  | false =>
    exact { h with
      inReset := by simp [Machine.rstMove]
      position := fun c hc =>
        ⟨Inv.posOk_congr rfl rfl rfl rfl rfl rfl rfl rfl (h.position c hc).1,
          Inv.pendOk_congr rfl rfl rfl rfl rfl (h.position c hc).2⟩ }

/-- Every move of the host keeps the invariant. -/
theorem MoveResult.inv {s t : State} (h : Inv s) (ht : MoveResult s t) : Inv t := by
  cases ht with
  | read off => exact h.busRead off
  | ignored => exact h
  | command w hr ht => exact cmdWrite_inv h hr ht
  | register off v => exact regWrite_inv h
  | src a => exact h.hostAnswerSrc a
  | out a => exact h.hostAnswerOut a
  | wout a => exact h.hostAnswerWout a
  | ready a b d => exact h.ready a b d
  | rst level => exact h.rstMove level

/-- The invariant does not speak of the moves still to come. -/
theorem Inv.withMoves {s : State} (h : Inv s) (l : List HostMove) : Inv { s with moves := l } :=
  h.congr _ _ _ _ _ _ _ _ _ _ _ _ _ _ _ l _ _

theorem step_inv {s t : State} (h : Inv s) (ht : step s = .next t) : Inv t := by
  rcases step_cases ht with rfl | rfl | ⟨m, l, -, hm⟩
  · exact h
  · exact unitRun_inv h
  · exact hm.inv (h.withMoves l)

/-- Settles O54: a step runs the unit or delivers a move of the host, and each keeps the invariant. -/
theorem everyStepKeepsTheInvariant : Obligations.EveryStepKeepsTheInvariant := fun _ _ h ht => step_inv h ht

end Sys2Proof.Machine
end

section
/-! How a command begins once it is accepted (R260): `startOf` names the start each arm of `exec` hands to `startCommand`, so
that what holds of every command is proved through `startCommand` once. -/

namespace Sys2Proof.Machine

/-- Where the pseudocode of a command begins, once it is accepted (R260); RESET has no pseudocode, its one move is the soft
reset (R264). -/
def startOf : Instr → State → State
  | .nop => complete
  | .reset => softReset
  | .rd n => startRd n
  | .wr n => startWr n
  | .flush => goTo .flush .flush
  | .hent => startHeader .hent
  | .hdr => startHeader .hdr
  | .bstep => startBodyStep .bstep
  | .bsym => startBodyStep .bsym
  | .body => bodyLoop .body
  | .dec => startHeader .dec

theorem exec_eq_startCommand {i : Instr} (hi : i ≠ .reset) (s : State) : exec i s = startCommand i (startOf i) s := by
  cases i with
  | reset => exact absurd rfl hi
  | _ => rfl

/-- HENT, HDR and DEC begin with the check of CFG.L (R201). -/
theorem startHeader_cases {c : Instr} (hc : parsesHeader c = true) (s : State) :
    (∃ k, startHeader c s = raise k s) ∨ ∃ p, startHeader c s = goTo c p s ∧ requestFits c p .none := by
  unfold startHeader
  split
  · exact .inl ⟨_, rfl⟩
  · exact .inr ⟨_, rfl, .inl rfl, hc⟩

/-- What a command begins with: it completes, it fails a check, or it stands at a position it can make a request at. -/
theorem startOf_cases {i : Instr} (hi : i ≠ .reset) (s : State) :
    startOf i s = complete s ∨ (∃ k, startOf i s = raise k s) ∨
      ∃ p, startOf i s = goTo i p s ∧ requestFits i p .none := by
  cases i with
  | nop => exact .inl rfl
  | reset => exact absurd rfl hi
  | rd n =>
    simp only [startOf, startRd]
    split
    · exact .inr (.inr ⟨_, rfl, .inl rfl, n, rfl⟩)
    · exact .inr (.inl ⟨_, rfl⟩)
  | wr n =>
    simp only [startOf, startWr]
    split
    · exact .inr (.inr ⟨_, rfl, .inl rfl, n, rfl⟩)
    · exact .inr (.inl ⟨_, rfl⟩)
  | flush => exact .inr (.inr ⟨_, rfl, .inl rfl, rfl⟩)
  | hent => exact .inr (startHeader_cases rfl s)
  | hdr => exact .inr (startHeader_cases rfl s)
  | bstep => exact .inr (.inr ⟨_, rfl, .inl rfl, rfl⟩)
  | bsym => exact .inr (.inr ⟨_, rfl, .inl rfl, rfl⟩)
  | body =>
    simp only [startOf, bodyLoop]
    split
    · exact .inl rfl
    · exact .inr (.inr ⟨_, rfl, .inl rfl, rfl⟩)
  | dec => exact .inr (startHeader_cases rfl s)

/-- Marking the next move due changes its timing alone (log 1). -/
theorem markDue_moves (s : State) :
    ∃ l, l.map HostMove.event = s.moves.map HostMove.event ∧ markDue s = { s with moves := l } := by
  unfold markDue
  split
  · exact ⟨s.moves, rfl, rfl⟩
  · rename_i hm
    exact ⟨_, by simp [hm], rfl⟩

/-! ### The phase check and the invariant -/

theorem phase_eq_header {s : State} (h : s.phase = .header) : s.hdrDone = false := by
  unfold State.phase at h
  split at h
  · cases h
  · split at h
    · simp_all
    · split at h <;> cases h

theorem phase_eq_body {s : State} (h : s.phase = .body) : s.hdrDone = true ∧ s.done = false := by
  unfold State.phase at h
  split at h
  · cases h
  · split at h
    · cases h
    · split at h
      · simp_all
      · cases h

theorem SteadyInv.startHeader {s : State} (h : SteadyInv s) {c : Instr} (hc : parsesHeader c = true)
    (hd : s.hdrDone = false) : Inv (startHeader c s) := by
  unfold Machine.startHeader
  split
  · exact h.raise _
  · rename_i hl
    obtain ⟨h1, h32⟩ : 1 ≤ s.cfgL.toNat ∧ s.cfgL.toNat ≤ 32 := by simp [lengthIllegal] at hl; omega
    exact h.startEntry ⟨hc, hd, h1, h32⟩

/-- A command that is accepted and allowed begins in the invariant (R260, R265). -/
theorem SteadyInv.startOf {s : State} (h : SteadyInv s) {i : Instr} (hi : i ≠ .reset) (ha : allowed i s.phase = true) :
    Inv (startOf i s) := by
  have header (hp : (s.phase == .header) = true) : s.hdrDone = false := phase_eq_header (by simpa using hp)
  have body (hp : (s.phase == .body) = true) : s.hdrDone = true ∧ s.done = false := phase_eq_body (by simpa using hp)
  cases i with
  | nop => exact h.run.complete h.cand h.pend
  | reset => exact absurd rfl hi
  | rd n =>
    simp only [Machine.startOf, startRd]
    split
    · rename_i hn
      exact h.startRead (r := .rd) ⟨by simp, by simpa [countLegal] using hn⟩
    · exact h.raise _
  | wr n =>
    simp only [Machine.startOf, startWr]
    split
    · rename_i hn
      exact h.run.goTo h.cand h.pend ⟨by simp, by simpa [countLegal] using hn, by omega⟩
    · exact h.raise _
  | flush => exact h.run.goTo (p := .flush) (i := .flush) h.cand h.pend rfl
  | hent => exact h.startHeader rfl (header ha)
  | hdr => exact h.startHeader rfl (header ha)
  | bstep => exact h.startBody rfl (body ha).1 (body ha).2
  | bsym => exact h.startBody rfl (body ha).1 (body ha).2
  | body => exact h.bodyLoop rfl (body ha).1
  | dec => exact h.startHeader rfl (header ha)

end Sys2Proof.Machine
end

section
/-! O55 and O57: `Advances` says once which of the sticky flags and of the map a move of the machine other than a reset can
change (R54, R61, R200). -/

namespace Sys2Proof.Machine

/-- From `s` to `t` no sticky flag is cleared, and the map only grows, and not once the header is done (R54, R61, R200). -/
structure Advances (s t : State) : Prop where
  err : s.err = true → t.err = true
  hdrDone : s.hdrDone = true → t.hdrDone = true
  done : s.done = true → t.done = true
  srcEnd : s.srcEnd = true → t.srcEnd = true
  ovr : s.ovr = true → t.ovr = true
  map : s.map <+: t.map
  frozen : s.hdrDone = true → t.map = s.map ∧ t.maxLen = s.maxLen

theorem Advances.refl (s : State) : Advances s s :=
  ⟨id, id, id, id, id, List.prefix_rfl, fun _ => ⟨rfl, rfl⟩⟩

theorem Advances.trans {s t u : State} (h : Advances s t) (h' : Advances t u) : Advances s u where
  err := h'.err ∘ h.err
  hdrDone := h'.hdrDone ∘ h.hdrDone
  done := h'.done ∘ h.done
  srcEnd := h'.srcEnd ∘ h.srcEnd
  ovr := h'.ovr ∘ h.ovr
  map := h.map.trans h'.map
  frozen hd :=
    ⟨(h'.frozen (h.hdrDone hd)).1.trans (h.frozen hd).1, (h'.frozen (h.hdrDone hd)).2.trans (h.frozen hd).2⟩

/-! ### The shared operations -/

theorem Advances.raise {s t : State} (h : Advances s t) (c : Cause) : Advances s (raise c t) :=
  { h with err := fun _ => rfl }

theorem Advances.complete {s t : State} (h : Advances s t) : Advances s (complete t) := { h with }

theorem Advances.goTo {s t : State} (h : Advances s t) (c : Instr) (p : Pos) : Advances s (goTo c p t) := { h with }

theorem Advances.startRead {s t : State} (h : Advances s t) (c : Instr) (n : Nat) (r : ReadFor) :
    Advances s (startRead c n r t) := h.goTo c _

theorem Advances.afterBodyStep {s t : State} (h : Advances s t) (c : Instr) (m : Bool) :
    Advances s (afterBodyStep c m t) := by
  rcases afterBodyStep_cases c m t with e | ⟨d, e⟩ <;> rw [e]
  · exact h.complete
  · exact h.startRead _ _ _

theorem Advances.afterEntry {s t : State} (h : Advances s t) (c : Instr) : Advances s (afterEntry c t) := by
  rcases afterEntry_cases c t with e | ⟨d, e⟩ | ⟨-, d, e⟩ <;> rw [e]
  · exact h.complete
  · exact h.startRead _ _ _
  · exact h.startRead _ _ _

/-! ### A read that returns to the header parser or the body decoder -/

/-- The fields the header parser writes, while the header is not done. -/
theorem Advances.parser {s : State} (hd : s.hdrDone = false) {m : List MapEntry} (hm : s.map <+: m) (ml : BitVec 5)
    (sb : List Byte) (sl : BitVec 16) (b : Bool) :
    Advances s { s with map := m, maxLen := ml, symBuf := sb, symBufLen := sl, hdrDone := b } :=
  { Advances.refl s with
    hdrDone := fun e => absurd e (by simp [hd])
    map := hm
    frozen := fun e => absurd e (by simp [hd]) }

/-- The fields the body decoder writes; DONE is only set. -/
theorem Advances.decoder (s : State) {b : Bool} (hb : s.done = true → b = true) (c : Word) (n : BitVec 6) (k : Word)
    (v : Bool) (i : BitVec 16) :
    Advances s { s with cand := c, candLen := n, symCount := k, lastSymV := v, lastSymIdx := i, done := b } :=
  { Advances.refl s with done := hb }

theorem afterSymbol_advances {s : State} (hd : s.hdrDone = false) (c : Instr) (sb : List Byte) (sl : BitVec 16) :
    Advances s (afterSymbol c { s with symBuf := sb, symBufLen := sl }) := by
  have h := Advances.parser hd List.prefix_rfl s.maxLen sb sl
  unfold afterSymbol
  split
  · exact (h s.hdrDone).raise _
  · split
    · split
      · exact (h s.hdrDone).startRead _ _ _
      · exact (h true).afterEntry c
    · exact (h s.hdrDone).startRead _ _ _

theorem bodyBitReturn_advances (c : Instr) (k : Nat) (v : Word) (s : State) : Advances s (bodyBitReturn c k v s) := by
  unfold bodyBitReturn
  split
  · exact (Advances.refl s).raise _
  · simp only
    split
    · unfold bodyMatch
      simp only
      split
      · exact (Advances.decoder s (b := true) (fun _ => rfl) _ _ _ _ _).afterBodyStep c true
      · exact (Advances.decoder s id _ _ _ _ _).goTo c _
    · have h := Advances.decoder s id (shiftIn s.cand (v.getLsbD 0)) (s.candLen + 1) s.symCount s.lastSymV s.lastSymIdx
      unfold bodyNoMatchYet
      split
      · exact h.raise _
      · exact h.afterBodyStep c false

/-- A header field is read only while the header is not done (R200). -/
theorem callerOk_hdrDone {s : State} {c : Instr} {n : Nat} {r : ReadFor} (h : callerOk s c n r) (h1 : r ≠ .rd)
    (h2 : r ≠ .bodyBit) : s.hdrDone = false := by
  cases r <;> simp_all [callerOk, parsing]

theorem readReturn_advances {s : State} {c : Instr} {r : ReadFor} {n k : Nat} {v : Word} (hc : callerOk s c n r) :
    Advances s (readReturn c r n k v s) := by
  have h := Advances.refl s
  have hdr := callerOk_hdrDone hc
  cases r <;> simp only [readReturn]
  case rd => exact { h with }
  case symLen =>
    unfold symLenReturn
    repeat' split
    · exact h.raise _
    · exact h.raise _
    · exact h.raise _
    · exact h.startRead _ _ _
  case symByte m i =>
    have hd := hdr (by simp) (by simp)
    unfold symByteReturn
    split
    · exact h.raise _
    · simp only
      split
      · exact (Advances.parser hd List.prefix_rfl s.maxLen _ s.symBufLen s.hdrDone).startRead _ _ _
      · exact afterSymbol_advances hd c _ _
  case tailLen =>
    unfold tailLenReturn
    split
    · exact h.raise _
    · exact h.startRead _ _ _
  case tailCode =>
    unfold tailCodeReturn
    split
    · exact h.raise _
    · exact (Advances.parser (hdr (by simp) (by simp)) List.prefix_rfl s.maxLen s.symBuf s.symBufLen true).afterEntry c
  case clen =>
    unfold clenReturn
    repeat' split
    · exact h.raise _
    · exact h.raise _
    · exact h.startRead _ _ _
  case code =>
    unfold codeReturn
    repeat' split
    · exact h.raise _
    · exact h.raise _
    · exact h.raise _
    · exact (Advances.parser (hdr (by simp) (by simp)) (List.prefix_append _ _) _ s.symBuf s.symBufLen s.hdrDone).afterEntry c
  case bodyBit => exact bodyBitReturn_advances c k v s

/-! ### One operation of the unit -/

theorem readOp_advances {s : State} {c : Instr} {r : ReadFor} {n k : Nat} {v : Word} (hc : callerOk s c n r) :
    Advances s (readOp c n k v r s) := by
  unfold readOp
  repeat' split
  · exact readReturn_advances hc
  · exact { Advances.refl s with }
  · have h : Advances s (takeBit s) := { Advances.refl s with }
    exact h.goTo c _
  · exact readReturn_advances hc

theorem emitOp_advances (c : Instr) (e i : Nat) (s : State) : Advances s (emitOp c e i s) := by
  unfold emitOp
  split
  · exact { Advances.refl s with }
  · exact (Advances.decoder s id s.cand s.candLen _ s.lastSymV s.lastSymIdx).afterBodyStep c true

theorem writeOp_advances (c : Instr) (n i : Nat) (s : State) : Advances s (writeOp c n i s) := by
  unfold writeOp
  simp only
  repeat' split
  all_goals exact { Advances.refl s with }

theorem flushOp_advances (s : State) : Advances s (flushOp s) := by
  unfold flushOp
  split <;> exact { Advances.refl s with }

theorem posOp_advances {s : State} {c : Instr} {p : Pos} (h : posOk s c p) : Advances s (posOp c p s) := by
  cases p with
  | read n k v r => exact readOp_advances h.2.2
  | emit e i => exact emitOp_advances c e i s
  | write n i => exact writeOp_advances c n i s
  | flush => exact flushOp_advances s

theorem answerSrc_advances (a : SrcAnswer) (s : State) : Advances s (answerSrc a s) := by
  cases a with
  | byte b => exact { Advances.refl s with }
  | endOfData => exact { Advances.refl s with srcEnd := fun _ => rfl }
  | error => exact (Advances.refl s).raise _

theorem answerOut_advances (a : SinkAnswer) (b : Byte) (s : State) : Advances s (answerOut a b s) := by
  cases a with
  | ack => exact { Advances.refl s with }
  | error => exact (Advances.refl s).raise _

theorem answerWout_advances (a : SinkAnswer) (b : Byte) (s : State) : Advances s (answerWout a b s) := by
  cases a with
  | ack => exact { Advances.refl s with }
  | error => exact { Advances.refl s with err := fun _ => rfl }

theorem unitOp_advances {s : State} (h : Inv s) : Advances s (unitOp s) := by
  have hready (l1 : List SrcAnswer) (l2 l3 : List SinkAnswer) :
      Advances s { s with srcReady := l1, outReady := l2, woutReady := l3 } := { Advances.refl s with }
  unfold unitOp
  split
  · exact Advances.refl s
  · rename_i c hc
    split
    · exact posOp_advances (h.position c hc).1
    · split
      · exact Advances.refl s
      · exact (hready _ s.outReady s.woutReady).trans (answerSrc_advances _ _)
    · split
      · exact Advances.refl s
      · exact (hready s.srcReady _ s.woutReady).trans (answerOut_advances _ _ _)
    · split
      · exact Advances.refl s
      · exact (hready s.srcReady s.outReady _).trans (answerWout_advances _ _ _)

/-! ### Running the unit, and the start of a command -/

theorem unitRun_advances {s : State} (h : Inv s) : Advances s (unitRun s) := by
  have hdue : Advances s (markDue s) := by
    obtain ⟨l, -, e⟩ := markDue_moves s
    rw [e]
    exact { Advances.refl s with }
  exact (unitOps_keeps (P := fun t => Inv t ∧ Advances s t)
    (fun _ ht => ⟨unitOp_inv ht.1, ht.2.trans (unitOp_advances ht.1)⟩) (slice s) ⟨markDue_inv h, hdue⟩).2

theorem startOf_advances {i : Instr} (hi : i ≠ .reset) (s : State) : Advances s (startOf i s) := by
  rcases startOf_cases hi s with e | ⟨k, e⟩ | ⟨p, e, -⟩ <;> rw [e]
  · exact (Advances.refl s).complete
  · exact (Advances.refl s).raise k
  · exact (Advances.refl s).goTo i p

/-! ### A command, a move of the host, a step -/

theorem softReset_freshlyReset (s : State) : (softReset s).freshlyReset :=
  ⟨rfl, rfl, rfl, rfl, rfl, rfl, rfl, rfl, rfl, rfl, rfl⟩

/-- What a CMD write other than RESET leaves (R260): the dropped command, an error entry, or a run of the unit. -/
theorem exec_advances {i : Instr} {s t : State} (h : Inv s) (hr : s.rst = false) (hi : i ≠ .reset)
    (ht : exec i s = .next t) : Advances s t := by
  rw [exec_eq_startCommand hi] at ht
  unfold startCommand at ht
  repeat' split at ht
  · cases ht; exact { Advances.refl s with ovr := fun _ => rfl }
  · cases ht; exact Advances.refl s
  · cases ht; exact (Advances.refl s).raise _
  · rename_i hb he ha
    cases ht
    have hs := h.steady (by simpa using hb) (by simpa using he) hr
    exact (startOf_advances hi s).trans (unitRun_advances (hs.startOf hi (by simpa using ha)))

theorem illegalWord_advances {e : DecodeError} {s t : State} (ht : illegalWord e s = .next t) : Advances s t := by
  unfold illegalWord at ht
  repeat' split at ht
  · cases ht; exact { Advances.refl s with ovr := fun _ => rfl }
  · cases ht; exact Advances.refl s
  · cases ht; exact (Advances.refl s).raise _

theorem cmdWrite_resets_or_advances {w : Word} {s t : State} (h : Inv s) (hr : s.rst = false)
    (ht : cmdWrite w s = .next t) : t.freshlyReset ∨ Advances s t := by
  unfold cmdWrite at ht
  split at ht
  · rename_i i _
    by_cases hi : i = .reset
    · subst hi; cases ht; exact .inl (softReset_freshlyReset s)
    · exact .inr (exec_advances h hr hi ht)
  · exact .inr (illegalWord_advances ht)

theorem guardedWrite_advances {s t : State} (h : Advances s t) : Advances s (guardedWrite s t) := by
  unfold guardedWrite
  split
  · exact { Advances.refl s with ovr := fun _ => rfl }
  · exact h

theorem regWrite_advances (off : Nat) (v : Word) (s : State) : Advances s (regWrite off v s) := by
  unfold regWrite
  repeat' split
  · exact guardedWrite_advances { Advances.refl s with }
  · exact guardedWrite_advances { Advances.refl s with }
  · exact { Advances.refl s with }
  · exact { Advances.refl s with }
  · exact guardedWrite_advances { Advances.refl s with }
  · exact Advances.refl s

theorem busRead_advances (off : Nat) (s : State) : Advances s (busRead off s) := by
  unfold busRead
  repeat' split
  all_goals exact { Advances.refl s with }

theorem MoveResult.resets_or_advances {s t : State} (h : Inv s) (ht : MoveResult s t) : t.freshlyReset ∨ Advances s t := by
  cases ht with
  | read off => exact .inr (busRead_advances off s)
  | ignored => exact .inr (Advances.refl s)
  | command w hr ht => exact cmdWrite_resets_or_advances h hr ht
  | register off v => exact .inr (regWrite_advances off v s)
  | src a =>
    rcases hostAnswerSrc_cases a s with e | ⟨-, e⟩ <;> rw [e]
    · exact .inr (Advances.refl s)
    · exact .inr (answerSrc_advances a s)
  | out a =>
    rcases hostAnswerOut_cases a s with e | ⟨b, -, e⟩ <;> rw [e]
    · exact .inr (Advances.refl s)
    · exact .inr (answerOut_advances a b s)
  | wout a =>
    rcases hostAnswerWout_cases a s with e | ⟨b, -, e⟩ <;> rw [e]
    · exact .inr (Advances.refl s)
    · exact .inr (answerWout_advances a b s)
  | ready a b d => exact .inr { Advances.refl s with }
  | rst level =>
    cases level with
    | true => exact .inl (softReset_freshlyReset s)
    | false => exact .inr { Advances.refl s with }

theorem step_resets_or_advances {s t : State} (h : Inv s) (ht : step s = .next t) : t.freshlyReset ∨ Advances s t := by
  rcases step_cases ht with rfl | rfl | ⟨m, l, -, hm⟩
  · exact .inr (Advances.refl _)
  · exact .inr (unitRun_advances h)
  · have hl : Advances s { s with moves := l } := { Advances.refl s with }
    exact (hm.resets_or_advances (h.withMoves l)).imp_right hl.trans

/-- Settles O55: a step that is no reset clears none of the flags. -/
theorem flagsAreSticky : Obligations.FlagsAreSticky := fun _ _ h ht =>
  (step_resets_or_advances h ht).imp_right fun a => ⟨a.err, a.hdrDone, a.done, a.srcEnd, a.ovr⟩

/-- Settles O57: a step that is no reset only appends to the map, and leaves it once the header is done. -/
theorem mapOnlyGrowsThenFreezes : Obligations.MapOnlyGrowsThenFreezes := fun _ _ h ht =>
  (step_resets_or_advances h ht).imp_right fun a => ⟨a.map, a.frozen⟩

end Sys2Proof.Machine
end

section
/-! O48 and O50: the frame of a whole command, from the frame of one operation (`unitOp_keepsFrame`), for every command that is
no RESET (R30, R160, R200). -/

namespace Sys2Proof.Machine

theorem ownFrame_refl (s : State) (c : Instr) : ownFrame s s c := by
  cases c <;> simp [ownFrame, sameReader, sameWriter, sameResult, sameMap, sameSymBuf, sameBody, sameHost]

theorem statusFrame_refl (s : State) : statusFrame s s := .inr ⟨⟨rfl, rfl, rfl, rfl⟩, rfl, .inl rfl⟩

theorem KeepsFrame.refl (c : Instr) (s : State) : KeepsFrame c s s :=
  ⟨ownFrame_refl s c, statusFrame_refl s, rfl, fun _ => ⟨rfl, rfl⟩, List.prefix_rfl, List.prefix_rfl⟩

/-- A command that is still in execution has recorded no error. -/
theorem KeepsFrame.err_of_busy {c : Instr} {s t : State} (h : KeepsFrame c s t) (he : s.err = false)
    (hb : t.busy = true) : t.err = false := by
  obtain ⟨-, ⟨k, -, -, -, -, hidle, -⟩ | ⟨⟨herr, -⟩, -⟩, -⟩ := h
  · rw [hidle] at hb; cases hb
  · rw [herr, he]

/-- An operation after which the frame of command `c` still holds, or after which the unit is idle. -/
theorem KeepsFrame.unitOp {c : Instr} {s t : State} (hc : c ≠ .reset) (he : s.err = false) (h : KeepsFrame c s t)
    (hin : staysIn c t) : KeepsFrame c s (unitOp t) ∧ staysIn c (unitOp t) := by
  obtain ⟨hcur, hpend⟩ | ⟨p, hcur, hf⟩ := hin
  · have hrest : Machine.unitOp t = t := unitOp_of_atRest (by simp [State.atRest, hcur])
    rw [hrest]
    exact ⟨h, .inl ⟨hcur, hpend⟩⟩
  · have hb : t.busy = true := by simp [State.busy, hcur]
    have het := h.err_of_busy he hb
    obtain ⟨hop, hin'⟩ := unitOp_keepsFrame hcur hf het
    exact ⟨h.trans hop hb het hc, hin'⟩

/-- Only the timing of the moves changes when the next one is marked due (log 1). -/
theorem KeepsFrame.markDue {c : Instr} {s t : State} (h : KeepsFrame c s t) : KeepsFrame c s (markDue t) := by
  obtain ⟨l, hl, e⟩ := markDue_moves t
  obtain ⟨hown, hstatus, hovr, hres, hmap, hout⟩ := h
  rw [e]
  refine ⟨?_, hstatus, hovr, hres, hmap, hout⟩
  cases c <;> simp only [ownFrame, sameHost, hl] <;> exact hown

theorem staysIn_markDue {c : Instr} {t : State} (h : staysIn c t) : staysIn c (markDue t) := by
  obtain ⟨l, -, e⟩ := markDue_moves t
  rw [e]
  exact h

theorem KeepsFrame.unitRun {c : Instr} {s t : State} (hc : c ≠ .reset) (he : s.err = false) (h : KeepsFrame c s t)
    (hin : staysIn c t) : KeepsFrame c s (unitRun t) :=
  (unitOps_keeps (P := fun u => KeepsFrame c s u ∧ staysIn c u) (fun _ hu => hu.1.unitOp hc he hu.2) _
    ⟨h.markDue, staysIn_markDue hin⟩).1

/-- What an accepted command begins with keeps its frame. -/
theorem startOf_keepsFrame {i : Instr} {s : State} (hi : i ≠ .reset) (he : s.err = false) (hp : s.pend = .none) :
    KeepsFrame i s (startOf i s) ∧ staysIn i (startOf i s) := by
  have q : Quiet i s s := Quiet.refl he hp
  rcases startOf_cases hi s with e | ⟨k, e⟩ | ⟨p, e, hf⟩ <;> rw [e]
  · exact q.complete
  · exact q.raise hi k
  · exact q.goTo hf

/-- The frame of a command other than RESET, whether it is dropped, refused by its phase, or run (R260): OVR is set where it is
dropped, and nowhere else. -/
theorem exec_frame {i : Instr} {s t : State} (hi : i ≠ .reset) (hp : s.cur = none → s.pend = .none)
    (ht : exec i s = .next t) :
    ownFrame s t i ∧ statusFrame s t ∧ t.ovr = (s.ovr || s.busy) ∧ (t.busy = true ∨ t.err = true → sameResult s t) ∧
      s.map <+: t.map ∧ s.outStream <+: t.outStream := by
  rw [exec_eq_startCommand hi] at ht
  unfold startCommand at ht
  split at ht
  · rename_i hb
    cases ht
    obtain ⟨hown, hstatus, -, hres, hmap, hout⟩ := KeepsFrame.refl i s
    refine ⟨?_, hstatus, by simp [hb], hres, hmap, hout⟩
    cases i <;> exact hown
  · rename_i hb
    have hb : s.busy = false := by simpa using hb
    suffices hk : KeepsFrame i s t by
      obtain ⟨hown, hstatus, hovr, hres, hmap, hout⟩ := hk
      exact ⟨hown, hstatus, by rw [hovr, hb, Bool.or_false], hres, hmap, hout⟩
    repeat' split at ht
    · cases ht; exact KeepsFrame.refl i s
    · cases ht; exact (raise_keepsFrame i hi _ s).1
    · rename_i he _
      cases ht
      have he : s.err = false := by simpa using he
      obtain ⟨hk, hin⟩ := startOf_keepsFrame hi he (hp (by simpa [State.busy] using hb))
      exact hk.unitRun hi he hin

/-- Once the header is done HENT and HDR are refused by the phase, if they are not dropped (R265). -/
theorem headerCommand_sameMap {i : Instr} {s t : State} (hi : i = .hent ∨ i = .hdr) (hd : s.hdrDone = true)
    (ht : exec i s = .next t) : sameMap s t := by
  have hr : i ≠ .reset := by rintro rfl; simp at hi
  have hph : s.phase ≠ .header := fun h => by rw [phase_eq_header h] at hd; cases hd
  have ha : allowed i s.phase = false := by rcases hi with rfl | rfl <;> simp [allowed, hph]
  rw [exec_eq_startCommand hr] at ht
  unfold startCommand at ht
  repeat' split at ht
  · cases ht; exact ⟨rfl, rfl, rfl⟩
  · cases ht; exact ⟨rfl, rfl, rfl⟩
  · cases ht; exact ⟨rfl, rfl, rfl⟩
  · simp_all

/-- Settles O48, by the frame of every command. -/
theorem rdLeavesTheRestAlone : Obligations.RdLeavesTheRestAlone := by
  intro n s t hp ht
  obtain ⟨hown, hstatus, hovr, hres, -, -⟩ := exec_frame (by simp) hp ht
  exact ⟨hown, hstatus, hres, hovr⟩

/-- Settles O50, by the frame of every command and the phase check. -/
theorem headerParserLeavesTheRestAlone : Obligations.HeaderParserLeavesTheRestAlone := by
  intro i s t hi hp ht
  have hr : i ≠ .reset := by rintro rfl; simp at hi
  obtain ⟨hown, hstatus, hovr, -, hmap, -⟩ := exec_frame hr hp ht
  exact ⟨hown, hstatus, hovr, hmap, fun hd => headerCommand_sameMap hi hd ht⟩

end Sys2Proof.Machine
end

section
/-! The register space (R32 to R60, R81): one lemma for the bus access, what each kind of write does, and the two facts about a
field of a register word, its value and its bits. -/

namespace Sys2Proof.Machine

/-! ### Bus accesses -/

theorem busOffset_regBase {off : Nat} (h : off < 256) (s : State) : busOffset s (s.params.regBase + off) = some off := by
  simp [busOffset, h]

theorem accessLegal_word {off : Nat} (h : off % 4 = 0) : accessLegal off 4 = true := by simp [accessLegal, h]

theorem deliver_read {off : Nat} (h4 : off % 4 = 0) (h : off < 256) (s : State) :
    deliver (.read (s.params.regBase + off) 4) s = .next (busRead off s) := by
  simp [deliver, hostRead, busOffset_regBase h, accessLegal_word h4]

theorem deliver_write_rst {off : Nat} (h4 : off % 4 = 0) (h : off < 256) {s : State} (hr : s.rst = true) (v : Word) :
    deliver (.write (s.params.regBase + off) 4 v) s = .next s := by
  simp [deliver, hostWrite, busOffset_regBase h, accessLegal_word h4, hr]

theorem deliver_write_cmd {s : State} (hr : s.rst = false) (v : Word) :
    deliver (.write (s.params.regBase + 0x08) 4 v) s = cmdWrite v s := by
  simp [deliver, hostWrite, busOffset_regBase, accessLegal_word, hr, cmdOffset]

theorem deliver_write_register {off : Nat} (h4 : off % 4 = 0) (h : off < 256) (hcmd : off ≠ 0x08) {s : State}
    (hr : s.rst = false) (v : Word) :
    deliver (.write (s.params.regBase + off) 4 v) s = .next (regWrite off v s) := by
  simp [deliver, hostWrite, busOffset_regBase h, accessLegal_word h4, hr, cmdOffset, hcmd]

/-- A read whose value is no draw returns the register's value (R59). -/
theorem busRead_value {s : State} {off : Nat} (hr : s.rst = false) (h : s.busy = true → drawnWhileBusy off = false) :
    busRead off s = { s with readData := some (regRead off s) } := by
  cases hb : s.busy with
  | false => simp [busRead, hr, hb]
  | true => simp [busRead, hr, h hb]

theorem busRead_draw {s : State} {off : Nat} (hr : s.rst = false) (hb : s.busy = true) (h : drawnWhileBusy off = true) :
    busRead off s = { s with readData := some (Config.freeWord s.draws), draws := s.draws + 1 } := by
  simp [busRead, hr, hb, h]

/-- A write to a read-only or reserved offset changes nothing (R34, R35). -/
theorem regWrite_ignored {off : Nat} (h1 : off ≠ 0x04) (h2 : off ≠ 0x0C) (h3 : off ≠ 0x48) (h4 : off ≠ 0x4C)
    (h5 : off ≠ 0x50) (v : Word) (s : State) : regWrite off v s = s := by simp [regWrite, h1, h2, h3, h4, h5]

/-- A write to CFG, WDATA or MAP_SEL while a command runs is dropped (R60). -/
theorem regWrite_busy {off : Nat} (h : off = 0x04 ∨ off = 0x0C ∨ off = 0x50) {s : State} (hb : s.busy = true) (v : Word) :
    regWrite off v s = { s with ovr := true } := by
  rcases h with rfl | rfl | rfl <;> simp [regWrite, guardedWrite, hb]

theorem guardedWrite_idle {s : State} (hb : s.busy = false) (t : State) : guardedWrite s t = t := by simp [guardedWrite, hb]

theorem regRead_reserved {off : Nat} (h : 0x60 ≤ off) (s : State) : regRead off s = 0 := by
  have hne (k : Nat) (hk : k < 0x60) : off ≠ k := by omega
  simp [regRead, hne]

/-! ### Fields and flags of a register word -/

theorem toNat_field {k i : Nat} (h : k + i ≤ 32) (v : BitVec k) : (field v i).toNat = v.toNat * 2 ^ i := by
  have hlt : v.toNat * 2 ^ i < 2 ^ 32 :=
    calc v.toNat * 2 ^ i < 2 ^ k * 2 ^ i := Nat.mul_lt_mul_of_pos_right v.isLt (by positivity)
      _ = 2 ^ (k + i) := (pow_add 2 k i).symm
      _ ≤ 2 ^ 32 := Nat.pow_le_pow_right (by omega) h
  have hv : v.toNat < 2 ^ 32 := Nat.lt_of_lt_of_le v.isLt (Nat.pow_le_pow_right (by omega) (by omega))
  rw [field, BitVec.toNat_shiftLeft, BitVec.toNat_setWidth, Nat.mod_eq_of_lt hv, Nat.shiftLeft_eq, Nat.mod_eq_of_lt hlt]

/-- A field above a word that does not reach it. -/
theorem toNat_field_or {k i : Nat} (h : k + i ≤ 32) (v : BitVec k) {x : Word} (hx : x.toNat < 2 ^ i) :
    (field v i ||| x).toNat = v.toNat * 2 ^ i + x.toNat := by
  rw [BitVec.toNat_or, toNat_field h, Nat.mul_comm, Nat.two_pow_add_eq_or_of_lt hx]

theorem toNat_field_zero {k : Nat} (h : k ≤ 32) (v : BitVec k) : (field v 0).toNat = v.toNat := by
  rw [toNat_field h, pow_zero, Nat.mul_one]

theorem toNat_two_fields {m k i : Nat} (h : m + i ≤ 32) (hk : k ≤ i) (a : BitVec m) (b : BitVec k) :
    (field a i ||| field b 0).toNat = a.toNat * 2 ^ i + b.toNat := by
  have hb : (field b 0).toNat = b.toNat := toNat_field_zero (by omega) b
  rw [toNat_field_or h a (by rw [hb]; exact Nat.lt_of_lt_of_le b.isLt (Nat.pow_le_pow_right (by omega) hk)), hb]

/-- A flag is a field of one bit. -/
theorem flagBit_eq_field (b : Bool) (i : Nat) : flagBit b i = field (BitVec.ofBool b) i := rfl

theorem toNat_two_flags (a b : Bool) : (flagBit a 0 ||| flagBit b 1).toNat = b.toNat * 2 + a.toNat := by
  rw [BitVec.or_comm, flagBit_eq_field, flagBit_eq_field, toNat_two_fields (by omega) (by omega)]
  simp

theorem getLsbD_flagBit (b : Bool) {i : Nat} (hi : i < 32) (j : Nat) :
    (flagBit b i).getLsbD j = (decide (j = i) && b) := by
  by_cases h : j = i
  · subst h
    simp [flagBit, hi]
  · simp only [flagBit, BitVec.getLsbD_shiftLeft, BitVec.getLsbD_setWidth, BitVec.getLsbD_ofBool, h]
    by_cases hlt : j < i
    · simp [hlt]
    · simp [show j - i ≠ 0 by omega]

/-! ### The command word -/

theorem decodeN_cmd {w : Word} {i j : Instr} (h : decodeN w i = .cmd j) : i = j ∧ w.extractLsb' 0 28 = 0#28 := by
  unfold decodeN at h
  split at h
  · cases h
  · rename_i hz
    cases h
    exact ⟨rfl, by simpa using hz⟩

theorem decodeR_cmd {w : Word} {f : BitVec 6 → Instr} {j : Instr} (h : decodeR w f = .cmd j) : f (countField w) = j := by
  unfold decodeR at h
  repeat' split at h
  · cases h
  · cases h; rfl
  · cases h

/-- One arm of the opcode map of format N (R121, R122); `rest` is the arms after it. -/
theorem opField_of_armN {w : Word} {op : BitVec 4} {i j : Instr} {rest : Sys2Proof.Decoded}
    (h : (if opField w = op then decodeN w j else rest) = .cmd i) (ho : j.opcode = op)
    (hrest : rest = .cmd i → opField w = i.opcode) : opField w = i.opcode := by
  split at h
  · rename_i hw
    rw [hw, ← ho, (decodeN_cmd h).1]
  · exact hrest h

/-- One arm of format R (R121, R123). -/
theorem opField_of_armR {w : Word} {op : BitVec 4} {i : Instr} {f : BitVec 6 → Instr} {rest : Sys2Proof.Decoded}
    (h : (if opField w = op then decodeR w f else rest) = .cmd i) (ho : ∀ n, (f n).opcode = op)
    (hrest : rest = .cmd i → opField w = i.opcode) : opField w = i.opcode := by
  split at h
  · rename_i hw
    rw [hw, ← decodeR_cmd h, ho]
  · exact hrest h

/-- A word decodes to a command only under that command's opcode (R121). -/
theorem opField_of_decode {w : Word} {i : Instr} (h : decode w = .cmd i) : opField w = i.opcode := by
  unfold decode at h
  refine opField_of_armN h rfl fun h => ?_
  refine opField_of_armN h rfl fun h => ?_
  refine opField_of_armR h (fun _ => rfl) fun h => ?_
  refine opField_of_armR h (fun _ => rfl) fun h => ?_
  refine opField_of_armN h rfl fun h => ?_
  refine opField_of_armN h rfl fun h => ?_
  refine opField_of_armN h rfl fun h => ?_
  refine opField_of_armN h rfl fun h => ?_
  refine opField_of_armN h rfl fun h => ?_
  refine opField_of_armN h rfl fun h => ?_
  refine opField_of_armN h rfl fun h => ?_
  cases h

/-- RESET has one word (R121, R122). -/
theorem eq_of_decode_reset {w : Word} (h : decode w = .cmd .reset) : w = 0x10000000 := by
  have ho : opField w = 1#4 := opField_of_decode h
  have hd : decode w = decodeN w .reset := by simp [decode, ho]
  obtain ⟨-, hz⟩ := decodeN_cmd (hd.symm.trans h)
  have hw : w = opField w ++ w.extractLsb' 0 28 := by
    rw [opField, BitVec.extractLsb'_append_extractLsb'_eq_extractLsb' (by omega), BitVec.extractLsb'_eq_self]
  rw [hw, ho, hz]
  decide

theorem decode_encode {i : Instr} (h : i.wellFormed = true) : decode (encode i) = .cmd i := by
  cases i with
  | rd n => revert n; decide
  | wr n => revert n; decide
  | _ => rfl

end Sys2Proof.Machine
end

section
/-! O5, O15 and O17 to O21: the statements about the registers and the command word the host writes. -/

namespace Sys2Proof.Machine

/-! ### O5: the written command -/

/-- A due CMD write is delivered in the step it is due in, and runs its command (R37, R260). -/
theorem step_of_cmdWrite {s : State} {l : List HostMove} {after : Option Nat} {i : Instr} {w : Word}
    (hm : s.moves = { after := after, event := .write (s.params.regBase + 0x08) 4 w } :: l)
    (hdue : after = some 0 ∨ s.atRest = true) (hr : s.rst = false) (hd : decode w = .cmd i) :
    step s = exec i { s with moves := l } := by
  have hland : (HostMove.due ⟨after, .write (s.params.regBase + 0x08) 4 w⟩ || s.atRest) = true := by
    rcases hdue with h | h <;> simp [HostMove.due, h]
  calc step s = deliver (.write (s.params.regBase + 0x08) 4 w) { s with moves := l } := by
        simp only [step, hm, stepMove, hland, if_true]
    _ = cmdWrite w { s with moves := l } := deliver_write_cmd (s := { s with moves := l }) hr w
    _ = exec i { s with moves := l } := by simp only [cmdWrite, hd]

/-- Settles O5: the move is due, and the word decodes to the command. -/
theorem stepRunsTheWrittenCommand : Obligations.StepRunsTheWrittenCommand := by
  refine ⟨fun s l after i w hm hdue hr hd => step_of_cmdWrite hm hdue hr hd, fun s i hi => ?_⟩
  have hw : BitVec.ofNat 32 ((encode i).toNat % 2 ^ 32) = encode i := by
    rw [Nat.mod_eq_of_lt (encode i).isLt, BitVec.ofNat_toNat, BitVec.setWidth_eq]
  have hm : (s.withFetchWord 32 (encode i).toNat).moves =
      { after := some 0, event := .write (s.params.regBase + 0x08) 4 (encode i) } :: s.moves := by
    simp only [State.withFetchWord, cmdMove, hw]
    rfl
  exact step_of_cmdWrite hm (.inl rfl) rfl (decode_encode hi)

/-! ### O15 and O17: what a read returns -/

/-- Settles O15: the reserved offsets are in neither the draws nor the written registers. -/
theorem reservedOffsetsReadZero : Obligations.ReservedOffsetsReadZero := by
  intro s off v h4 hlo hhi
  have hdraw : drawnWhileBusy off = false := by simp [drawnWhileBusy]; omega
  by_cases hr : s.rst = false
  · rw [deliver_read h4 (by omega), busRead_value hr (fun _ => hdraw), regRead_reserved hlo,
      deliver_write_register h4 (by omega) (by omega) hr,
      regWrite_ignored (by omega) (by omega) (by omega) (by omega) (by omega)]
    exact ⟨rfl, rfl⟩
  · have hr : s.rst = true := by simpa using hr
    have hz : resetRead off = 0 := if_neg (by omega)
    rw [deliver_read h4 (by omega), deliver_write_rst h4 (by omega) hr]
    exact ⟨by simp [busRead, hr, hz], rfl⟩

/-- While BUSY = 1 four registers read their value, and the others of R32 a draw (R59). -/
theorem deliver_read_busy {s : State} {off : Nat} (hr : s.rst = false) (hb : s.busy = true) (h4 : off % 4 = 0)
    (hle : off ≤ 0x5C) :
    deliver (.read (s.params.regBase + off) 4) s =
      if off = 0x00 then .next { s with readData := some 0x48554646 }
      else if off = 0x08 then .next { s with readData := some 0 }
      else if off = 0x10 then .next { s with readData := some s.statusWord }
      else if off = 0x4C then .next { s with readData := some s.intPendWord }
      else .next { s with readData := some (Config.freeWord s.draws), draws := s.draws + 1 } := by
  rw [deliver_read h4 (by omega)]
  split_ifs with h0 h8 h10 h4C
  · subst h0; rw [busRead_value hr (fun _ => rfl)]; rfl
  · subst h8; rw [busRead_value hr (fun _ => rfl)]; rfl
  · subst h10; rw [busRead_value hr (fun _ => rfl)]; rfl
  · subst h4C; rw [busRead_value hr (fun _ => rfl)]; rfl
  · rw [busRead_draw hr hb (by simp [drawnWhileBusy, hle, h0, h8, h10, h4C])]

/-- Settles O17: the bus read by BUSY and offset, then each register's word as the number its fields make. -/
theorem readsWhileBusyAreDraws : Obligations.ReadsWhileBusyAreDraws := by
  refine ⟨fun s off hr h4 hle => ⟨fun hb => deliver_read_busy hr hb h4 hle, fun hb => ?_⟩, fun s => ?_⟩
  · rw [deliver_read h4 (by omega), busRead_value hr (by simp [hb])]
  · refine ⟨rfl, toNat_field_zero (by omega) s.cfgL, rfl, rfl, toNat_two_fields (by omega) (by omega) s.errInfo s.errCause,
      rfl, rfl, toNat_field_zero (by omega) s.resCnt, rfl, toNat_two_fields (by omega) (by omega) s.brBuf s.brCnt, rfl,
      ?bwState, ?mapStat, rfl, toNat_field_zero (by omega) s.candLen, rfl, ?lastSym, ?intEn, ?intPend,
      toNat_two_fields (by omega) (by omega) s.mapSelOff s.mapSelIdx⟩
    case bwState =>
      exact (toNat_two_fields (by omega) (by omega) s.bwAcc (s.bwCnt.setWidth 3)).trans (by simp)
    case mapStat =>
      exact (toNat_two_fields (by omega) (by omega) s.maxLen (BitVec.ofNat 17 s.mapCount)).trans (by simp [State.mapCount])
    case lastSym =>
      exact (toNat_two_fields (by omega) (by omega) (BitVec.ofBool s.lastSymV) s.lastSymIdx).trans (by simp)
    case intEn => exact toNat_two_flags s.intEnCmdc s.intEnErri
    case intPend => exact toNat_two_flags s.intPendCmdc s.intPendErri

/-! ### O18 and O19: what a write does -/

/-- While a command runs every CMD word but RESET's is dropped with OVR (R60, R260). -/
theorem cmdWrite_busy {s : State} {w : Word} (hb : s.busy = true) (hw : w ≠ 0x10000000) :
    cmdWrite w s = .next { s with ovr := true } := by
  unfold cmdWrite
  split
  · rename_i i hd
    have hi : i ≠ .reset := by rintro rfl; exact hw (eq_of_decode_reset hd)
    rw [exec_eq_startCommand hi, startCommand_busy hb]
  · simp [illegalWord, hb]

/-- Settles O18: the offset decides what a write does while a command runs. -/
theorem writesWhileBusyAreDropped : Obligations.WritesWhileBusyAreDropped := by
  intro s off v hb hr h4 hlt
  refine ⟨fun h => ?dropped, fun h => ?reset, fun h => ?intEn, fun h => ?intPend, fun h1 h2 h3 h5 h6 h7 => ?ignored⟩
  case dropped =>
    by_cases hcmd : off = 0x08
    · subst hcmd
      rw [deliver_write_cmd hr, cmdWrite_busy hb (by simpa using h)]
    · rw [deliver_write_register h4 hlt hcmd hr, regWrite_busy (by tauto) hb]
  case reset =>
    obtain ⟨rfl, rfl⟩ := h
    exact ⟨softReset s, deliver_write_cmd hr _, softReset_freshlyReset s⟩
  case intEn => subst h; exact deliver_write_register h4 hlt (by omega) hr v
  case intPend => subst h; exact deliver_write_register h4 hlt (by omega) hr v
  case ignored => rw [deliver_write_register h4 hlt h2 hr, regWrite_ignored h1 h3 h5 h6 h7]

/-- INT_PEND after a write: the ones written clear its bits (R53). -/
theorem clear_two_flags (a b : Bool) (v : Word) :
    flagBit (a && !v.getLsbD 0) 0 ||| flagBit (b && !v.getLsbD 1) 1 = (flagBit a 0 ||| flagBit b 1) &&& ~~~v := by
  refine BitVec.eq_of_getLsbD_eq fun i hi => ?_
  simp only [BitVec.getLsbD_or, BitVec.getLsbD_and, BitVec.getLsbD_not, getLsbD_flagBit _ (show 0 < 32 by omega),
    getLsbD_flagBit _ (show 1 < 32 by omega), hi]
  by_cases h0 : i = 0
  · subst h0; simp
  · by_cases h1 : i = 1
    · subst h1; simp
    · simp [h0, h1]

/-- MAP_SEL reads back what was written to it (R57). -/
theorem field_halves (v : Word) : field (v.extractLsb' 16 16) 16 ||| field (v.extractLsb' 0 16) 0 = v := by
  refine BitVec.eq_of_toNat_eq ?_
  rw [toNat_two_fields (by omega) (by omega)]
  simp [BitVec.extractLsb'_toNat, Nat.shiftRight_eq_div_pow]
  omega

/-- INT_EN reads back the two bits written to it (R53). -/
theorem toNat_low_two_flags (v : Word) : (flagBit (v.getLsbD 0) 0 ||| flagBit (v.getLsbD 1) 1).toNat = v.toNat % 4 := by
  rw [toNat_two_flags]
  simp only [BitVec.getLsbD, Nat.toNat_testBit]
  omega

/-- Settles O19: the write to each register of the list, then the value it reads back. -/
theorem writesSetTheirFields : Obligations.WritesSetTheirFields := by
  intro s v hb hr
  have hwrite {off : Nat} (h4 : off % 4 = 0) (hlt : off < 256) (hcmd : off ≠ 0x08) :
      deliver (.write (s.params.regBase + off) 4 v) s = .next (regWrite off v s) := deliver_write_register h4 hlt hcmd hr v
  refine ⟨⟨{ s with cfgL := v.setWidth 6 }, ?_, ?_, rfl⟩, ⟨{ s with wdata := v }, ?_, rfl, rfl⟩,
    ⟨_, hwrite rfl (by omega) (by omega), toNat_low_two_flags v, rfl⟩,
    ⟨{ s with mapSelIdx := v.extractLsb' 0 16, mapSelOff := v.extractLsb' 16 16 }, ?_, field_halves v, ?_, ?_, rfl⟩,
    ⟨_, hwrite rfl (by omega) (by omega), clear_two_flags s.intPendCmdc s.intPendErri v, rfl⟩, ?_⟩
  · rw [hwrite rfl (by omega) (by omega)]; exact congrArg _ (guardedWrite_idle hb _)
  · exact (toNat_field_zero (by omega) (v.setWidth 6)).trans (by simp)
  · rw [hwrite rfl (by omega) (by omega)]; exact congrArg _ (guardedWrite_idle hb _)
  · rw [hwrite rfl (by omega) (by omega)]; exact congrArg _ (guardedWrite_idle hb _)
  · simp [BitVec.extractLsb'_toNat]
  · simp [BitVec.extractLsb'_toNat, Nat.shiftRight_eq_div_pow]; omega
  · intro off h4 hoff
    rw [hwrite h4 (by omega) (by omega), regWrite_ignored (by omega) (by omega) (by omega) (by omega) (by omega)]

/-! ### O20: STATUS -/

theorem waitSrc_iff (s : State) : s.waitSrc = true ↔ s.pend = .src := by simp [State.waitSrc]

theorem waitOut_iff (s : State) : s.waitOut = true ↔ ∃ b, s.pend = .out b := by
  unfold State.waitOut
  split <;> simp_all

theorem waitWout_iff (s : State) : s.waitWout = true ↔ ∃ b, s.pend = .wout b := by
  unfold State.waitWout
  split <;> simp_all

/-- Each bit of STATUS (R39); the bits no flag is at are 0. -/
theorem getLsbD_statusWord (s : State) (i : Nat) :
    s.statusWord.getLsbD i =
      (decide (i = 0) && s.busy || decide (i = 1) && s.err || decide (i = 2) && s.hdrDone || decide (i = 3) && s.done ||
        decide (i = 4) && s.srcEnd || decide (i = 5) && s.ovr || decide (i = 6) && s.irq || decide (i = 8) && s.waitSrc ||
        decide (i = 9) && s.waitOut || decide (i = 10) && s.waitWout) := by
  simp only [State.statusWord, BitVec.getLsbD_or]
  repeat rw [getLsbD_flagBit _ (by omega)]

/-- Settles O20, by the bits of STATUS. -/
theorem statusBitsAreTheFlags : Obligations.StatusBitsAreTheFlags := by
  intro s
  have hread : regRead 0x10 s = s.statusWord := rfl
  have hirq : s.irq = ((s.intPendCmdc && s.intEnCmdc) || (s.intPendErri && s.intEnErri)) := rfl
  simp only [hread, getLsbD_statusWord, ← hirq]
  refine ⟨by simp, by simp, by simp, by simp, by simp, by simp, by simp, by simp, by simp, ?_, ?_, ?_, ?_, ?_⟩
  · simpa using waitSrc_iff s
  · simpa using waitOut_iff s
  · simpa using waitWout_iff s
  · intro i hi
    have hne (k : Nat) (hk : k < 11) : i ≠ k := by omega
    simp [hne]
  · simp [State.phase]

/-! ### O21: the map window -/

theorem selected_eq_some {s : State} {x : MapEntry} (h : s.mapSelIdx.toNat < s.params.mapEntries)
    (hx : s.map[s.mapSelIdx.toNat]? = some x) : s.selected = some x := by simp [State.selected, h, hx]

theorem selected_eq_none {s : State} (h : s.params.mapEntries ≤ s.mapSelIdx.toNat ∨ s.map.length ≤ s.mapSelIdx.toNat) :
    s.selected = none := by
  unfold State.selected
  split
  · exact List.getElem?_eq_none (by omega)
  · rfl

/-- MAP_INFO of a selected entry (R57). -/
theorem toNat_mapInfoWord {s : State} {x : MapEntry} (h : s.selected = some x) (hl : x.sym.length < 65536) :
    (mapInfoWord s).toNat = 2 ^ 31 + x.clen.toNat * 2 ^ 16 + x.sym.length := by
  have hlow : (field x.clen 16 ||| field (BitVec.ofNat 16 x.sym.length) 0).toNat = x.clen.toNat * 2 ^ 16 + x.sym.length := by
    rw [toNat_two_fields (by omega) (by omega), BitVec.toNat_ofNat, Nat.mod_eq_of_lt hl]
  have hw : mapInfoWord s = field 1#1 31 ||| (field x.clen 16 ||| field (BitVec.ofNat 16 x.sym.length) 0) := by
    simp only [mapInfoWord, h]
    exact BitVec.or_assoc _ _ _
  rw [hw, toNat_field_or (by omega) _ (by rw [hlow]; omega), hlow]
  simp [Nat.add_assoc]

/-- The byte at bit `j` of a word is the field at bit `j` and none of the fields at other bytes. -/
theorem extractLsb'_field {i j : Nat} (hi : i % 8 = 0) (hj : j % 8 = 0) (hj24 : j ≤ 24) (b : Byte) :
    (field b i).extractLsb' j 8 = if i = j then b else 0 := by
  refine BitVec.eq_of_getLsbD_eq fun k hk => ?_
  simp only [field, BitVec.getLsbD_extractLsb', BitVec.getLsbD_shiftLeft, BitVec.getLsbD_setWidth]
  split
  · rename_i h
    subst h
    simp [hk, show i + k < 32 by omega, show k < 32 by omega]
  · rename_i h
    by_cases hlt : j < i
    · simp [show j + k < i by omega]
    · simp [BitVec.getLsbD_of_ge b _ (show 8 ≤ j + k - i by omega)]

/-- A byte of MAP_SYM of a selected entry (R57). -/
theorem extractLsb'_mapSymWord {s : State} {x : MapEntry} (h : s.selected = some x) {j : Nat} (hj : j < 4) :
    (mapSymWord s).extractLsb' (24 - 8 * j) 8 = symByteAt x.sym (s.mapSelOff.toNat + j) := by
  simp (disch := omega) only [mapSymWord, h, BitVec.extractLsb'_or, extractLsb'_field]
  interval_cases j <;> simp

/-- Settles O21, by the entry selected, if any. -/
theorem mapWindowShowsTheEntry : Obligations.MapWindowShowsTheEntry := by
  intro s
  refine ⟨fun x hlt hx hl => ?_, fun h => ?_⟩
  · have hs := selected_eq_some hlt hx
    have hcode : mapCodeWord s = x.code.setWidth 32 := by simp only [mapCodeWord, hs]
    refine ⟨toNat_mapInfoWord hs hl, ?_, fun j hj => ?_⟩
    · exact (congrArg BitVec.toNat hcode).trans (BitVec.toNat_setWidth_of_le (by omega))
    · exact (extractLsb'_mapSymWord hs hj).trans (List.getD_eq_getElem?_getD ..)
  · have hs := selected_eq_none h
    have hinfo : mapInfoWord s = 0 := by simp only [mapInfoWord, hs]
    have hcode : mapCodeWord s = 0 := by simp only [mapCodeWord, hs]
    have hsym : mapSymWord s = 0 := by simp only [mapSymWord, hs]
    exact ⟨hinfo, hcode, hsym⟩

end Sys2Proof.Machine
end

section
/-! O14, O16, O29, O59 and O60: refused accesses and reads on the register bus (R81, R92), answers on the ports (R86, R87), the
hold that is never answered (R88), and the reader's bounds at a command boundary (R93). -/

namespace Sys2Proof.Machine

/-! ### O14: accesses R81 refuses -/

theorem accessLegal_eq_false {off width : Nat} (h : width ≠ 4 ∨ off % 4 ≠ 0) : accessLegal off width = false := by
  rcases h with h | h <;> simp [accessLegal, h]

/-- Settles O14: the offset lies in the register space, and the access is not legal there. -/
theorem illegalAccessIsRefused : Obligations.IllegalAccessIsRefused := by
  intro s off width v hlt hbad
  have hoff := busOffset_regBase hlt s
  have hill := accessLegal_eq_false hbad
  exact ⟨by simp [deliver, hostRead, hoff, hill], by simp [deliver, hostWrite, hoff, hill]⟩

/-! ### O16: reads -/

/-- A read changes only what the host has read and the count of draws (R92). -/
theorem busRead_eq (off : Nat) (s : State) :
    busRead off s = { s with readData := (busRead off s).readData, draws := (busRead off s).draws } := by
  unfold busRead
  repeat' split
  all_goals rfl

/-- No register shows what the host has read or the count of draws, so with BUSY = 0 they make no difference to a read (R92). -/
theorem busRead_of_idle {s : State} (hb : s.busy = false) (off : Nat) (d : Option Word) (n : Nat) :
    busRead off { s with readData := d, draws := n } = { s with readData := (busRead off s).readData, draws := n } := by
  by_cases hr : s.rst = true
  · simp [busRead, hr]
  · have hr : s.rst = false := by simpa using hr
    have hb' : ({ s with readData := d, draws := n } : State).busy = false := hb
    rw [busRead_value (s := s) hr (by simp [hb])]
    exact busRead_value (s := { s with readData := d, draws := n }) hr (by simp [hb'])

/-- Settles O16: what a read changes, no read shows. -/
theorem readsHaveNoSideEffect : Obligations.ReadsHaveNoSideEffect := by
  intro s off h4 hlt
  refine ⟨(busRead off s).readData, (busRead off s).draws, ?_, fun hb => ?_⟩
  · rw [deliver_read h4 hlt, ← busRead_eq]
  · exact (deliver_read h4 hlt _).trans (congrArg _ (busRead_of_idle hb off _ _))

/-! ### O29: port answers -/

theorem hostAnswerSrc_of_request {s : State} (h : s.pend = .src) (a : SrcAnswer) : hostAnswerSrc a s = answerSrc a s := by
  simp [hostAnswerSrc, h]

theorem hostAnswerOut_of_request {s : State} {b : Byte} (h : s.pend = .out b) (a : SinkAnswer) :
    hostAnswerOut a s = answerOut a b s := by simp [hostAnswerOut, h]

theorem hostAnswerWout_of_request {s : State} {b : Byte} (h : s.pend = .wout b) (a : SinkAnswer) :
    hostAnswerWout a s = answerWout a b s := by simp [hostAnswerWout, h]

theorem hostAnswerSrc_ignored {s : State} (h : s.pend ≠ .src) (a : SrcAnswer) : hostAnswerSrc a s = s :=
  (hostAnswerSrc_cases a s).resolve_right fun ⟨hp, _⟩ => h hp

theorem hostAnswerOut_ignored {s : State} (h : ∀ b, s.pend ≠ .out b) (a : SinkAnswer) : hostAnswerOut a s = s :=
  (hostAnswerOut_cases a s).resolve_right fun ⟨b, hp, _⟩ => h b hp

theorem hostAnswerWout_ignored {s : State} (h : ∀ b, s.pend ≠ .wout b) (a : SinkAnswer) : hostAnswerWout a s = s :=
  (hostAnswerWout_cases a s).resolve_right fun ⟨b, hp, _⟩ => h b hp

theorem raise_recordsError (c : Cause) (s : State) : recordsError c (raise c s) := ⟨rfl, rfl, rfl, rfl, rfl, rfl, rfl, rfl⟩

theorem raise_sameReader (c : Cause) (s : State) : sameReader s (raise c s) := ⟨rfl, rfl, rfl, rfl, rfl, rfl⟩

/-- Settles O29, by the port and whether its request is outstanding. -/
theorem portAnswersEndTheHold : Obligations.PortAnswersEndTheHold := by
  intro s b c
  refine ⟨fun hp => ⟨?byte, ?endOfData, ?error⟩, fun hp => ?out, fun hp => ?wout, fun hp a => ?noSrc, fun hp a => ?noOut,
    fun hp a => ?noWout⟩
  case byte => exact congrArg _ (hostAnswerSrc_of_request hp (.byte b))
  case endOfData => exact congrArg _ (hostAnswerSrc_of_request hp .endOfData)
  case error =>
    exact ⟨raise (.ioError 0) s, congrArg _ (hostAnswerSrc_of_request hp .error), raise_recordsError _ s,
      raise_sameReader _ s⟩
  case out => exact congrArg _ (hostAnswerOut_of_request hp .ack)
  case wout => exact congrArg _ (hostAnswerWout_of_request hp .ack)
  case noSrc => exact congrArg _ (hostAnswerSrc_ignored hp a)
  case noOut => exact congrArg _ (hostAnswerOut_ignored hp a)
  case noWout => exact congrArg _ (hostAnswerWout_ignored hp a)

/-! ### O59: the reader at a command boundary -/

/-- While no command runs no byte is buffered whole (R93). -/
theorem not_freshByte_of_idle {s : State} (hb : s.busy = false) : ¬ freshByte s := by
  rintro ⟨-, c, n, k, v, r, hc, -⟩
  simp [State.busy, hc] at hb

/-- The equation of R93 in numbers. -/
theorem Inv.readAhead_toNat {s : State} (h : Inv s) :
    (8 * s.srcStream.length) % 2 ^ 32 = (s.brPos.toNat + s.brCnt.toNat) % 2 ^ 32 := by
  have hcnt : (s.brCnt.setWidth 32).toNat = s.brCnt.toNat := BitVec.toNat_setWidth_of_le (by omega)
  have heq := congrArg BitVec.toNat h.readAhead
  rw [BitVec.toNat_add, BitVec.toNat_ofNat, hcnt] at heq
  exact heq.symm

/-- Settles O59: the step keeps the invariant, whose bound is seven bits while no command runs. -/
theorem readAheadIsBounded : Obligations.ReadAheadIsBounded := by
  intro s t h ht hb
  have hinv := step_inv h ht
  exact ⟨hinv.buf7 (not_freshByte_of_idle hb), hinv.readAhead_toNat⟩

/-! ### O60: faults -/

/-- Every command answers a next state. -/
theorem exec_next (i : Instr) (s : State) : ∃ t, exec i s = .next t := by
  by_cases hi : i = .reset
  · exact ⟨softReset s, by rw [hi]; rfl⟩
  · rw [exec_eq_startCommand hi]
    exact startCommand_next s i _

theorem cmdWrite_next (w : Word) (s : State) : ∃ t, cmdWrite w s = .next t := by
  unfold cmdWrite
  split
  · exact exec_next _ s
  · unfold illegalWord
    repeat' split
    all_goals exact ⟨_, rfl⟩

/-- A move of the host is answered or refused; it never faults. -/
theorem deliver_ne_fault (e : HostEvent) (s : State) (f : Fault) : deliver e s ≠ .fault f := by
  cases e with
  | read addr width =>
    simp only [deliver, hostRead]
    repeat' split
    all_goals simp
  | write addr width v =>
    obtain ⟨t, ht⟩ := cmdWrite_next v s
    simp only [deliver, hostWrite, ht]
    repeat' split
    all_goals simp
  | _ => simp [deliver]

/-- A unit that holds with no move of the host left is stuck (R88, log 12). -/
theorem stepAlone_of_holds {s : State} (h : s.holds) : stepAlone s = .fault .heldForever := by
  obtain ⟨hb, hr⟩ := h
  simp [stepAlone, hb, hr]

theorem holds_of_stepAlone_fault {s : State} {f : Fault} (h : stepAlone s = .fault f) : f = .heldForever ∧ s.holds := by
  unfold stepAlone at h
  split at h
  · cases h
  · rename_i hr
    split at h
    · rename_i hb
      cases h
      exact ⟨rfl, hb, by simpa using hr⟩
    · cases h

theorem stepMove_ne_fault (m : HostMove) (l : List HostMove) (s : State) (f : Fault) : stepMove m l s ≠ .fault f := by
  unfold stepMove
  split
  · exact deliver_ne_fault _ _ f
  · simp

/-- Settles O60: a step with a move left delivers it or runs the unit, and neither faults. -/
theorem onlyAnUnansweredHoldFaults : Obligations.OnlyAnUnansweredHoldFaults := by
  intro s
  refine ⟨fun hm hh => by rw [step, hm]; exact stepAlone_of_holds hh, fun f hf => ?_⟩
  unfold step at hf
  split at hf
  · rename_i hm
    obtain ⟨rfl, hh⟩ := holds_of_stepAlone_fault hf
    exact ⟨rfl, hh, hm⟩
  · exact absurd hf (stepMove_ne_fault _ _ s f)

end Sys2Proof.Machine
end

section
/-! O25: where the commands come to hold (R88). An operation that makes a request the host has not answered leaves the unit
holding; each command is run up to that operation by the lemmas of Laws/. -/

namespace Sys2Proof.Machine

/-! ### What a hold shows -/

/-- The unit takes no step out of a hold by itself (R88). -/
theorem State.holds.unitOp_eq {s : State} (h : s.holds) : unitOp s = s := unitOp_of_atRest h.2

/-- The WAIT bits of STATUS (R39). -/
theorem status_waitBits (s : State) :
    ((regRead 0x10 s).getLsbD 8 = true ↔ s.pend = .src) ∧ ((regRead 0x10 s).getLsbD 9 = true ↔ ∃ b, s.pend = .out b) ∧
      ((regRead 0x10 s).getLsbD 10 = true ↔ ∃ b, s.pend = .wout b) := by
  obtain ⟨-, -, -, -, -, -, -, -, -, hsrc, hout, hwout, -⟩ := statusBitsAreTheFlags s
  exact ⟨hsrc, hout, hwout⟩

theorem pend_of_canRun {s : State} (h : s.canRun) : s.pend = .none := by
  obtain ⟨-, -, hp, -⟩ := h
  exact hp

/-! ### RD on SRC -/

/-- An RD that wants more bits than there are delivers those and holds on SRC (R161, R88). -/
theorem execRd_holds {n : BitVec 6} {s : State} (hn : n.toNat ≤ 32) (h : s.canRun) (he : s.srcEnd = false)
    (hlt : s.availBits.length < n.toNat) (hs : readyStop s.srcReady = none) :
    ∃ t, exec (.rd n) s = .next t ∧ t.holds ∧ t.pend = .src ∧
      t.brPos = s.brPos + BitVec.ofNat 32 s.availBits.length ∧ sameResult s t := by
  obtain ⟨u, hu, hua, hus, hrun⟩ := startRead_upTo s.availBits (.rd n) n.toNat .rd (pend_of_canRun h) rfl hlt.le
  have hup : u.pend = .none := hu.pend_eq.trans (pend_of_canRun h)
  obtain ⟨_, _, _, _, e⟩ := hu.elim
  have hue : u.srcEnd = false := by rw [e]; exact he
  obtain ⟨hhold, hrest⟩ :=
    read_holds (s := goTo (.rd n) (.read n.toNat s.availBits.length (s.availBits.foldl shiftIn 0) .rd) u) rfl hup hlt hua hue
      (hus.trans hs)
  exact ⟨_, execRd_runs hn h (hrun.trans hhold) hrest, ⟨rfl, hrest⟩, rfl, by rw [e]; rfl, by rw [e]; exact ⟨rfl, rfl⟩⟩

/-! ### WR and FLUSH on WOUT -/

/-- A WR that an idle unit accepts ends where its undisturbed run comes to rest (R182). -/
theorem execWr_runs {n : BitVec 6} {s t : State} (hn : n.toNat ≤ 32) (h : s.canRun)
    (hr : Runs (goTo (.wr n) (.write n.toNat 0) s) t) (ht : t.atRest = true) : exec (.wr n) s = .next t := by
  have hl : startWr n s = goTo (.wr n) (.write n.toNat 0) s := by rw [startWr, if_pos]; simpa [countLegal] using hn
  refine startCommand_runs h rfl ?_ ?_ ?_ ht <;> rw [hl]
  · rfl
  · intro c m i hc
    simp only [goTo_cur, Option.some.injEq, Cur.mk.injEq, Pos.write.injEq] at hc
    omega
  · exact hr

/-- A FLUSH that an idle unit accepts ends where its undisturbed run comes to rest (R184). -/
theorem execFlush_runs {s t : State} (h : s.canRun) (hr : Runs (goTo .flush .flush s) t) (ht : t.atRest = true) :
    exec .flush s = .next t :=
  startCommand_runs h rfl rfl (fun c m i hc => by simp at hc) hr ht

/-- The bit of a WR that fills the accumulator offers the byte, and without an answer the unit holds (R181, R183). -/
theorem write_fullByte_holds {s : State} {c : Instr} {n i : Nat} (hc : s.cur = some { instr := c, pos := .write n i })
    (hp : s.pend = .none) (hi : i < n) (h7 : s.bwCnt.toNat = 7) (hw : s.woutReady = []) :
    ∃ t b, Runs s t ∧ t.holds ∧ t.pend = .wout b ∧ t.woutStream = s.woutStream ∧ t.bwPos = s.bwPos + 1 ∧
      bytesBits (s.woutStream ++ [b]) = s.writtenBits ++ [writeBit n i s.wdata] := by
  have h8 : s.bwCnt + 1#4 = 8#4 := BitVec.eq_of_toNat_eq ((toNat_succ_of_lt (by omega)).trans (by rw [h7]; rfl))
  have hbits : byteBits (placeBit s.bwAcc s.bwCnt.toNat (writeBit n i s.wdata)) = s.accBits ++ [writeBit n i s.wdata] := by
    have := take_placeBit s.bwAcc s.bwCnt.toNat (writeBit n i s.wdata) (by omega)
    rwa [List.take_of_length_le (by simp [h7])] at this
  refine ⟨{ goTo c (.write n (i + 1)) (putBit (writeBit n i s.wdata) s) with
      pend := .wout (placeBit s.bwAcc s.bwCnt.toNat (writeBit n i s.wdata)) }, _, ?_, ⟨rfl, ?_⟩, rfl, rfl, rfl, ?_⟩
  · exact Runs.op_eq (by simp [unitOp, hc, hp, posOp, writeOp, hi, putBit, h8, goTo]) (Runs.refl _)
  · simp [State.atRest, hw]
  · simp [State.writtenBits, bytesBits, hbits]

/-- The first `m + 1` bits of a WR are the first `m` and bit `m` (R127, R181). -/
theorem take_succ_bitsOf {n m : Nat} (hm : m < n) (v : Word) :
    (bitsOf n v.toNat).take (m + 1) = (bitsOf n v.toNat).take m ++ [writeBit n m v] := by
  induction n generalizing m with
  | zero => omega
  | succ n ih =>
    cases m with
    | zero => rfl
    | succ m =>
      have hbit : writeBit (n + 1) (m + 1) v = writeBit n m v := by
        rw [writeBit, writeBit, show n + 1 - 1 - (m + 1) = n - 1 - m by omega]
      rw [bitsOf, List.take_succ_cons, ih (by omega), List.take_succ_cons, hbit, List.cons_append]

/-- A WR whose byte number `k` the host does not answer holds on WOUT with the bits up to that byte written (R181, R183). -/
theorem execWr_holds {n : BitVec 6} {s : State} {k : Nat} (hn : n.toNat ≤ 32) (h : s.canRun) (h7 : s.bwCnt.toNat ≤ 7)
    (hack : s.woutReady = List.replicate k .ack) (hk : k < (s.bwCnt.toNat + n.toNat) / 8) :
    ∃ t b, exec (.wr n) s = .next t ∧ t.holds ∧ t.pend = .wout b ∧ t.woutStream.length = s.woutStream.length + k ∧
      bytesBits (t.woutStream ++ [b]) =
        s.writtenBits ++ (bitsOf n.toNat s.wdata.toNat).take (8 * (k + 1) - s.bwCnt.toNat) ∧
      t.bwPos + s.bwCnt.setWidth 32 = s.bwPos + BitVec.ofNat 32 (8 * (k + 1)) := by
  have hp := pend_of_canRun h
  obtain ⟨m, hm⟩ : ∃ m, s.bwCnt.toNat + m + 1 = 8 * (k + 1) := ⟨8 * k + 7 - s.bwCnt.toNat, by omega⟩
  have hdiv : (s.bwCnt.toNat + m) / 8 = k := by omega
  obtain ⟨u, hu, hub, hul, huc, hupos, hurdy, hrun⟩ :=
    write_upTo m (s := goTo (.wr n) (.write n.toNat 0) s) (c := .wr n) (n := n.toNat) (i := 0) rfl hp (by omega) h7
      (by simp [State.acksWout, hack, hdiv])
  obtain ⟨_, _, _, _, _, e⟩ := hu.elim
  have hwdata : u.wdata = s.wdata := by rw [e]; rfl
  have hup : u.pend = .none := by rw [e]; exact hp
  have hu7 : u.bwCnt.toNat = 7 := huc.trans (by simp only [goTo_bwCnt]; omega)
  have hurdy : u.woutReady = [] := by rw [hurdy]; simp [hack, hdiv]
  obtain ⟨t, b, hlast, hhold, hpend, hstream, hpos, hbits⟩ :=
    write_fullByte_holds (s := goTo (.wr n) (.write n.toNat (0 + m)) u) rfl hup (by omega) hu7 hurdy
  refine ⟨t, b, execWr_runs hn h (hrun.trans hlast) hhold.2, hhold, hpend, ?_, ?_, ?_⟩
  · rw [hstream]
    exact hul.trans (by simp [hdiv])
  · have hub : u.writtenBits = s.writtenBits ++ (bitsOf n.toNat s.wdata.toNat).take m := hub
    have hbits : bytesBits (t.woutStream ++ [b]) = u.writtenBits ++ [writeBit n.toNat m s.wdata] := by
      rw [hstream, hbits, Nat.zero_add, goTo_wdata, hwdata]
      rfl
    rw [hbits, hub, show 8 * (k + 1) - s.bwCnt.toNat = m + 1 by omega, take_succ_bitsOf (by omega), List.append_assoc]
  · have hupos : u.bwPos = s.bwPos + BitVec.ofNat 32 m := hupos
    calc t.bwPos + s.bwCnt.setWidth 32
        = s.bwPos + BitVec.ofNat 32 m + BitVec.ofNat 32 1 + BitVec.ofNat 32 s.bwCnt.toNat := by
          rw [hpos, goTo_bwPos, hupos, BitVec.ofNat_toNat]
          rfl
      _ = s.bwPos + BitVec.ofNat 32 (m + (1 + s.bwCnt.toNat)) := by simp only [BitVec.add_assoc, BitVec.ofNat_add]
      _ = s.bwPos + BitVec.ofNat 32 (8 * (k + 1)) := by rw [show m + (1 + s.bwCnt.toNat) = 8 * (k + 1) by omega]

/-- A FLUSH with bits to send and no answer offers the accumulator and holds (R184, R88). -/
theorem execFlush_holds {s : State} (h : s.canRun) (h0 : s.bwCnt ≠ 0) (hw : s.woutReady = []) :
    ∃ t, exec .flush s = .next t ∧ t.holds ∧ t.pend = .wout s.bwAcc ∧ sameWriter s t := by
  have hop : unitOp (goTo .flush .flush s) = flushOp (goTo .flush .flush s) := by simp [unitOp, pend_of_canRun h, posOp]
  have hrun : Runs (goTo .flush .flush s) { goTo .flush .flush s with pend := .wout s.bwAcc } :=
    Runs.op_eq (hop.trans (if_neg h0)) (Runs.refl _)
  have hrest : ({ goTo .flush .flush s with pend := .wout s.bwAcc } : State).atRest = true := by simp [State.atRest, hw]
  exact ⟨_, execFlush_runs h hrun hrest, ⟨rfl, hrest⟩, rfl, rfl, rfl, rfl, rfl, rfl, rfl⟩

/-! ### The body commands on OUT -/

/-- `Emit(e)` sends the next `n` bytes, which the host takes (R231). -/
theorem emit_upTo (n : Nat) {s : State} (c : Instr) {e i : Nat} {l : List SinkAnswer} (hp : s.pend = .none)
    (hn : i + n ≤ (entrySym s.map e).length) (ha : s.outReady = List.replicate n .ack ++ l) :
    Runs (goTo c (.emit e i) s)
      (goTo c (.emit e (i + n))
        { s with outStream := s.outStream ++ ((entrySym s.map e).drop i).take n, outReady := l }) := by
  induction n generalizing s i with
  | zero =>
    have hl : l = s.outReady := ha.symm
    subst hl
    simpa using Runs.refl (goTo c (.emit e i) s)
  | succ n ih =>
    have hlt : i < (entrySym s.map e).length := by omega
    have hbyte : (entrySym s.map e)[i]? = some (entrySym s.map e)[i] := List.getElem?_eq_getElem hlt
    have hrun := ih (i := i + 1)
      (s := { s with
        outStream := s.outStream ++ [(entrySym s.map e)[i]]
        outReady := List.replicate n .ack ++ l }) hp (by simp only; omega) rfl
    rw [List.drop_eq_getElem_cons hlt, List.take_succ_cons, List.append_cons, ← Nat.add_assoc, Nat.add_right_comm]
    refine Runs.op_eq (u := { goTo c (.emit e (i + 1)) s with pend := .out (entrySym s.map e)[i] })
      (by simp [unitOp, hp, posOp, emitOp, hbyte, goTo]) (Runs.op_eq ?_ hrun)
    simp [unitOp, ha, List.replicate_succ, answerOut, goTo, hp]

/-- The next byte of a symbol is offered, and without an answer the unit holds (R231, R88). -/
theorem emit_holds {s : State} (c : Instr) {e i : Nat} {b : Byte} (hp : s.pend = .none)
    (hb : (entrySym s.map e)[i]? = some b) (ho : s.outReady = []) :
    Runs (goTo c (.emit e i) s) { goTo c (.emit e (i + 1)) s with pend := .out b } ∧
      ({ goTo c (.emit e (i + 1)) s with pend := .out b } : State).atRest = true :=
  ⟨Runs.op_eq (by simp [unitOp, hp, posOp, emitOp, hb, goTo]) (Runs.refl _), by simp [State.atRest, ho]⟩

/-- A match of an entry whose symbol the host takes `j` bytes of: byte `j` is offered and the unit holds (R230, R231, R88). -/
theorem bodyMatch_holds {s : State} (c : Instr) {e j : Nat} {x : MapEntry} {b : Byte} (hp : s.pend = .none)
    (hx : s.map[e]? = some x) (hne : x.sym ≠ s.params.eofBytes) (hb : x.sym[j]? = some b)
    (ha : s.outReady = List.replicate j .ack) :
    ∃ t, Runs (bodyMatch c e s) t ∧ t.atRest = true ∧ t = { s with
      cur := some { instr := c, pos := .emit e (j + 1) }, pend := .out b, lastSymV := true,
      lastSymIdx := BitVec.ofNat 16 e, cand := 0, candLen := 0, outStream := s.outStream ++ x.sym.take j,
      outReady := [] } := by
  have hsym : entrySym s.map e = x.sym := by simp [entrySym, hx]
  have hj : j < x.sym.length := (List.getElem?_eq_some_iff.1 hb).1
  have hmatch : bodyMatch c e s = goTo c (.emit e 0)
      { s with lastSymV := true, lastSymIdx := BitVec.ofNat 16 e, cand := 0, candLen := 0 } := by
    simp [bodyMatch, hsym, hne]
  have hsent := emit_upTo j (i := 0) (e := e) (l := [])
    (s := { s with lastSymV := true, lastSymIdx := BitVec.ofNat 16 e, cand := 0, candLen := 0 }) c hp
    (by simp only [hsym]; omega) (by simpa using ha)
  simp only [hsym, List.drop_zero, Nat.zero_add] at hsent
  obtain ⟨hoffer, hrest⟩ := emit_holds (i := j) (e := e) (b := b)
    (s := { s with
      lastSymV := true, lastSymIdx := BitVec.ofNat 16 e, cand := 0, candLen := 0,
      outStream := s.outStream ++ x.sym.take j, outReady := [] }) c hp (by simpa only [hsym] using hb) rfl
  exact ⟨_, by rw [hmatch]; exact hsent.trans hoffer, hrest, rfl⟩

/-- The map a body command decodes with is within its capacity (R10, R206), so its indices fit LAST_SYM. -/
theorem bodyBegins_length_le {i : Instr} {s : State} {hdr : List Bool} {m : List MapEntry} (hI : Inv s)
    (h : bodyBegins i s hdr m) : m.length ≤ 65536 := by
  have hcap : s.params.mapEntries ≤ 65536 := by have := hI.params; simp [paramsLegal] at this; omega
  have hmap := hI.capacity
  rcases h with ⟨-, -, -, -, rfl⟩ | ⟨-, -, -, -, -, xs, c, tail, -, -, hx, -, rfl⟩
  · omega
  · have := (mapTakes_ok xs hx hI.mapOk.entries hI.codes hmap).2.2
    omega

/-- A body command whose last bit completes a symbol's code holds on OUT with byte `j` of the symbol, where the host has
acknowledged only the bytes before it (R231, R88). -/
theorem execBodyCommand_holds {i : Instr} {s : State} {hdr : List Bool} {m ys : List MapEntry} {pre : List Bool} {b : Bool}
    {rest : List Bool} {e : Nat} {x : MapEntry} {j : Nat} {c : Byte} (hI : Inv s) (h : s.canRun)
    (hB : BodyAt i s hdr m ys pre (b :: rest) (List.replicate j .ack)) (hx : m[e]? = some x) (hcode : codeBits x = pre ++ [b])
    (hne : x.sym ≠ s.params.eofBytes) (hc : x.sym[j]? = some c) :
    ∃ t, exec i s = .next t ∧ t.holds ∧ t.pend = .out c ∧
      t.outStream = s.outStream ++ symBytes ys ++ x.sym.take j ∧ t.symCount = s.symCount + BitVec.ofNat 32 ys.length ∧
      t.lastSymV = true ∧ t.lastSymIdx.toNat = e ∧ t.cand = 0 ∧ t.candLen = 0 ∧ t.done = false ∧ t.availBits = rest := by
  have hle : pre.length ≤ maxCodeLen m := by
    have hlen : x.clen.toNat = pre.length + 1 := by simpa [codeBits] using congrArg List.length hcode
    have := le_maxCodeLen (List.mem_of_getElem? hx)
    omega
  obtain ⟨u, ⟨humap, -, hudone, huout, hucount, hucand, -⟩, huav, hurdy, -, -, -, hup, hupar, -, hum, huc, hexec⟩ :=
    bodyAt_runs hI h hB hle
  obtain ⟨v, hv, hvav, -, hstep⟩ := bodyStep_match i hup hum (e := e) (x := x) huc (by rw [humap]; exact hx)
    (by rw [hucand]; exact hcode) huav
  obtain ⟨_, _, _, _, _, _, _, ev⟩ := hv.elim
  obtain ⟨t, hhold, hrest, et⟩ := bodyMatch_holds (s := v) i (e := e) (by rw [ev]; exact hup)
    (by rw [ev]; simpa [humap] using hx) (by rw [ev]; simpa [hupar] using hne) hc (by rw [ev]; exact hurdy)
  have hidx : (BitVec.ofNat 16 e).toNat = e := by
    have := (List.getElem?_eq_some_iff.1 hx).1
    have := bodyBegins_length_le hI hB.begins
    simp; omega
  have hvout : v.outStream = s.outStream ++ symBytes ys := by rw [ev]; exact huout
  have hvcount : v.symCount = s.symCount + BitVec.ofNat 32 ys.length := by rw [ev]; exact hucount
  have hvdone : v.done = false := by rw [ev]; exact hudone
  refine ⟨t, hexec t (hstep.trans hhold) hrest, ⟨by rw [et]; rfl, hrest⟩, ?_⟩
  rw [et]
  exact ⟨rfl, by rw [hvout], hvcount, rfl, hidx, rfl, rfl, hvdone, hvav⟩

/-- Settles O25, by the port the command holds on. -/
theorem rdHoldsOnTheSource : Obligations.RdHoldsOnTheSource := by
  refine ⟨fun n s hn h he hlt hs => ?rd, fun n s k hn h h7 hack hk => ?wr, fun s h h0 hw => ?flush,
    fun i s hdr m ys pre b rest e x j c hI h hB hx hcode hne hc => ?body⟩
  case rd =>
    obtain ⟨t, ht, hhold, hpend, hpos, hres⟩ := execRd_holds hn h he hlt hs
    obtain ⟨hwait, -, -⟩ := status_waitBits t
    exact ⟨t, ht, hhold, hpend, hwait.2 hpend, hhold.unitOp_eq, hpos, hres⟩
  case wr =>
    obtain ⟨t, b, ht, hhold, hpend, hlen, hbits, hpos⟩ := execWr_holds hn h h7 hack hk
    obtain ⟨-, -, hwait⟩ := status_waitBits t
    exact ⟨t, b, ht, hhold, hpend, hwait.2 ⟨b, hpend⟩, hhold.unitOp_eq, hlen, hbits, hpos⟩
  case flush =>
    obtain ⟨t, ht, hhold, hpend, hwriter⟩ := execFlush_holds h h0 hw
    obtain ⟨-, -, hwait⟩ := status_waitBits t
    exact ⟨t, ht, hhold, hpend, hwait.2 ⟨_, hpend⟩, hhold.unitOp_eq, hwriter⟩
  case body =>
    obtain ⟨t, ht, hhold, hpend, hbody⟩ := execBodyCommand_holds hI h hB hx hcode hne hc
    obtain ⟨-, hwait, -⟩ := status_waitBits t
    exact ⟨t, ht, hhold, hpend, hwait.2 ⟨c, hpend⟩, hhold.unitOp_eq, hbody⟩

end Sys2Proof.Machine
end

section
/-! O1 to O4: the command word (R120 to R125). What `decode` answers is said once for each format, by the number its opcode field
holds (R122, R123); a word is its fields one after the other (R120), which is what the encoder writes (R121). -/

namespace Sys2Proof.Machine

/-! ### The fields of a word -/

theorem toNat_opField (w : Word) : (opField w).toNat = w.toNat / 2 ^ 28 := by
  have := w.isLt
  rw [opField, BitVec.extractLsb'_toNat, Nat.shiftRight_eq_div_pow]
  omega

theorem countField_eq_ofNat (w : Word) : countField w = BitVec.ofNat 6 w.toNat := rfl

theorem toNat_countField (w : Word) : (countField w).toNat = w.toNat % 2 ^ 6 := by
  rw [countField_eq_ofNat, BitVec.toNat_ofNat]

/-- The reserved field of format N (R122). -/
theorem reservedN_eq_zero_iff (w : Word) : w.extractLsb' 0 28 = 0#28 ↔ w.toNat % 2 ^ 28 = 0 := by
  rw [BitVec.toNat_eq, BitVec.extractLsb'_toNat, Nat.shiftRight_zero, BitVec.toNat_zero]

/-- The reserved field of format R (R123). -/
theorem reservedR_eq_zero_iff (w : Word) : w.extractLsb' 6 22 = 0#22 ↔ w.toNat / 2 ^ 6 % 2 ^ 22 = 0 := by
  rw [BitVec.toNat_eq, BitVec.extractLsb'_toNat, Nat.shiftRight_eq_div_pow, BitVec.toNat_zero]

/-- A word of format N is its opcode and its reserved field (R122). -/
theorem eq_append_fieldsN (w : Word) : w = opField w ++ w.extractLsb' 0 28 := by
  rw [opField, BitVec.extractLsb'_append_extractLsb'_eq_extractLsb' (by omega), BitVec.extractLsb'_eq_self]

/-- A word of format R is its opcode, its reserved field and its count (R123). -/
theorem eq_append_fieldsR (w : Word) : w = opField w ++ (w.extractLsb' 6 22 ++ countField w) := by
  rw [countField, BitVec.extractLsb'_append_extractLsb'_eq_extractLsb' (by omega)]
  exact eq_append_fieldsN w

/-! ### The two formats -/

/-- The commands without an operand, format N (R122). -/
def formatN : List Instr := [.nop, .reset, .flush, .hent, .hdr, .bstep, .bsym, .body, .dec]

/-- The commands with a bit count, format R (R123). -/
def FormatR (f : BitVec 6 → Instr) : Prop := f = .rd ∨ f = .wr

/-- Every command is of one of the two formats (R121). -/
theorem format_cases (i : Instr) : i ∈ formatN ∨ ∃ f n, FormatR f ∧ i = f n := by
  cases i with
  | rd n => exact .inr ⟨.rd, n, .inl rfl, rfl⟩
  | wr n => exact .inr ⟨.wr, n, .inr rfl, rfl⟩
  | _ => exact .inl (by decide)

/-- Every opcode below 0xB but those of RD and WR is a command's of format N (R121). -/
theorem exists_formatN_opcode : ∀ op : BitVec 4, op.toNat < 0xB → op.toNat ≠ 2 → op.toNat ≠ 3 →
    ∃ i ∈ formatN, i.opcode = op := by decide

theorem encode_formatN : ∀ i ∈ formatN, encode i = i.opcode ++ 0#28 := by decide

theorem wellFormed_formatN : ∀ i ∈ formatN, i.wellFormed = true := by decide

theorem encode_formatR {f : BitVec 6 → Instr} (hf : FormatR f) (n : BitVec 6) :
    encode (f n) = (f n).opcode ++ (0#22 ++ n) := by
  rcases hf with rfl | rfl
  · revert n; decide
  · revert n; decide

theorem wellFormed_formatR {f : BitVec 6 → Instr} (hf : FormatR f) (n : BitVec 6) :
    (f n).wellFormed = countLegal n := by
  rcases hf with rfl | rfl <;> rfl

/-! ### What a word decodes to, by its opcode -/

theorem decode_formatN {w : Word} {i : Instr} (hi : i ∈ formatN) (ho : opField w = i.opcode) : decode w = decodeN w i := by
  cases i with
  | rd n => exact absurd hi (by simp [formatN])
  | wr n => exact absurd hi (by simp [formatN])
  | _ => simp [decode, ho, Instr.opcode]

theorem decode_formatR {w : Word} {f : BitVec 6 → Instr} {n : BitVec 6} (hf : FormatR f) (ho : opField w = (f n).opcode) :
    decode w = decodeR w f := by
  rcases hf with rfl | rfl <;> simp [decode, ho, Instr.opcode]

/-- No command has an opcode from 0xB on (R121). -/
theorem decode_reservedOpcode {w : Word} (h : 0xB ≤ w.toNat / 2 ^ 28) : decode w = .illegal .reservedOpcode := by
  rw [← toNat_opField] at h
  have hne (op : BitVec 4) (hop : op.toNat < 0xB) : opField w ≠ op := by rintro rfl; omega
  simp [decode, hne]

theorem decodeN_reservedBits {w : Word} {i : Instr} (h : w.toNat % 2 ^ 28 ≠ 0) :
    decodeN w i = .illegal .reservedBits := if_pos (mt (reservedN_eq_zero_iff w).1 h)

theorem decodeN_legal {w : Word} {i : Instr} (h : w.toNat % 2 ^ 28 = 0) : decodeN w i = .cmd i :=
  if_neg (not_not_intro ((reservedN_eq_zero_iff w).2 h))

theorem decodeR_reservedBits {w : Word} {f : BitVec 6 → Instr} (h : w.toNat / 2 ^ 6 % 2 ^ 22 ≠ 0) :
    decodeR w f = .illegal .reservedBits := if_pos (mt (reservedR_eq_zero_iff w).1 h)

/-- With the reserved field 0 the count decides (R123, R124). -/
theorem decodeR_of_reserved_zero {w : Word} {f : BitVec 6 → Instr} (h : w.toNat / 2 ^ 6 % 2 ^ 22 = 0) :
    decodeR w f = if w.toNat % 2 ^ 6 ≤ 32 then .cmd (f (BitVec.ofNat 6 w.toNat)) else .illegal .countTooLarge := by
  rw [decodeR, if_neg (not_not_intro ((reservedR_eq_zero_iff w).2 h))]
  simp only [countLegal, decide_eq_true_eq, toNat_countField, ← countField_eq_ofNat]

/-- Format R answers a command only when the reserved field is 0 and the count is legal (R123). -/
theorem fields_of_decodeR_cmd {w : Word} {f : BitVec 6 → Instr} {i : Instr} (h : decodeR w f = .cmd i) :
    w.extractLsb' 6 22 = 0#22 ∧ countLegal (countField w) = true ∧ i = f (countField w) := by
  have hi := decodeR_cmd h
  unfold decodeR at h
  repeat' split at h
  · cases h
  · rename_i hz hn
    exact ⟨by simpa using hz, hn, hi.symm⟩
  · cases h

/-! ### The round trips -/

theorem decodeTableWord_of_decode {w : Word} {i : Instr} (h : decode w = .cmd i) : decodeTableWord 32 w.toNat = some i := by
  have hw : w.toNat % 2 ^ 32 = w.toNat := Nat.mod_eq_of_lt w.isLt
  rw [decodeTableWord, hw, if_pos w.isLt, BitVec.ofNat_toNat, BitVec.setWidth_eq, h]

/-- Settles O3: the word decodes to its command, and the table numbers the bits as the word does (log 27). -/
theorem decodeInvertsEncode : Obligations.DecodeInvertsEncode := fun _ hi =>
  ⟨decode_encode hi, decodeTableWord_of_decode (decode_encode hi)⟩

/-- Settles O4: by the command's format, the fields the decoder checks are those the encoder writes. -/
theorem encodeInvertsDecode : Obligations.EncodeInvertsDecode := by
  intro w i h
  have ho : opField w = i.opcode := opField_of_decode h
  rcases format_cases i with hi | ⟨f, n, hf, rfl⟩
  · rw [decode_formatN hi ho] at h
    obtain ⟨-, hz⟩ := decodeN_cmd h
    exact ⟨by rw [encode_formatN i hi, ← ho, ← hz, ← eq_append_fieldsN], wellFormed_formatN i hi⟩
  · rw [decode_formatR hf ho] at h
    obtain ⟨hz, hn, hfn⟩ := fields_of_decodeR_cmd h
    rw [hfn] at ho ⊢
    exact ⟨by rw [encode_formatR hf, ← ho, ← hz, ← eq_append_fieldsR], (wellFormed_formatR hf _).trans hn⟩

/-! ### Every word, and every row of the opcode map -/

/-- A word under the opcode of RD or WR is read in format R, as that command. -/
theorem decode_rd_or_wr {w : Word} (h : w.toNat / 2 ^ 28 = 2 ∨ w.toNat / 2 ^ 28 = 3) :
    decode w = decodeR w (fun n => if w.toNat / 2 ^ 28 = 2 then .rd n else .wr n) := by
  rcases h with h | h
  · simp only [h, if_true]
    exact decode_formatR (n := 0) (.inl rfl) (BitVec.eq_of_toNat_eq ((toNat_opField w).trans h))
  · simp only [h]
    exact decode_formatR (n := 0) (.inr rfl) (BitVec.eq_of_toNat_eq ((toNat_opField w).trans h))

/-- Settles O2, by the opcode: a reserved one, one of format R, or one of format N. -/
theorem decodeChecksEveryField : Obligations.DecodeChecksEveryField := by
  refine fun w => ⟨decode_reservedOpcode, fun h => ?formatR, fun h h2 h3 => ?formatN⟩
  case formatR =>
    rw [decode_rd_or_wr h]
    refine ⟨decodeR_reservedBits, fun hz hn => ?_, fun hz hn => ?_⟩
    · rw [decodeR_of_reserved_zero hz, if_neg (by omega)]
    · rw [decodeR_of_reserved_zero hz, if_pos hn]
  case formatN =>
    rw [← toNat_opField] at h h2 h3 ⊢
    obtain ⟨i, hi, ho⟩ := exists_formatN_opcode (opField w) h h2 h3
    rw [decode_formatN hi ho.symm]
    exact ⟨decodeN_reservedBits, fun hz => ⟨i, decodeN_legal hz, congrArg _ ho⟩⟩

/-- Settles O1: the rows are the encodings of the commands, and a word from 0xB0000000 on has a reserved opcode. -/
theorem opcodeMapDecodes : Obligations.OpcodeMapDecodes := by
  refine ⟨decode_encode (i := .nop) rfl, decode_encode (i := .reset) rfl, fun n hn => ?rd, fun n hn => ?wr,
    decode_encode (i := .flush) rfl, decode_encode (i := .hent) rfl, decode_encode (i := .hdr) rfl,
    decode_encode (i := .bstep) rfl, decode_encode (i := .bsym) rfl, decode_encode (i := .body) rfl,
    decode_encode (i := .dec) rfl, fun w hw => ?reserved⟩
  case rd => exact decode_encode (i := .rd n) (decide_eq_true hn)
  case wr => exact decode_encode (i := .wr n) (decide_eq_true hn)
  case reserved => exact decode_reservedOpcode (by omega)

end Sys2Proof.Machine
end

section
/-! O6: a word that is no command, written while the unit is idle, takes the error entry of R284 and nothing else (R125). -/

namespace Sys2Proof.Machine

theorem cmdWrite_illegal {w : Word} {e : DecodeError} {s : State} (hb : s.busy = false) (he : s.err = false)
    (h : decode w = .illegal e) : cmdWrite w s = .next (raise (.illegalCmd e.info) s) := by
  simp [cmdWrite, illegalWord, h, hb, he]

/-- Settles O6: error entry leaves alone what NOP, which owns nothing, leaves alone. -/
theorem illegalWordRaisesIllegalCmd : Obligations.IllegalWordRaisesIllegalCmd := by
  intro w e s hb he h
  obtain ⟨⟨hown, -, hovr, -⟩, -⟩ := raise_keepsFrame .nop (by decide) (.illegalCmd e.info) s
  obtain ⟨hreader, hwriter, hresult, hmap, hsym, hbody, hhost, hdraws⟩ := hown
  exact ⟨_, cmdWrite_illegal hb he h, raise_recordsError (.illegalCmd e.info) s, rfl, hreader, hwriter, hresult, hmap, hsym,
    hbody, hhost, hovr, hdraws⟩

end Sys2Proof.Machine
end

section
/-! O47: with no code twice at most one entry matches a candidate, so it does not matter where in the map it stands (R55,
R118). -/

namespace Sys2Proof.Machine

/-- The test `Match(k, v)` makes of an entry (R55). -/
def MapEntry.isMatch (k : Nat) (v : Word) (x : MapEntry) : Bool := x.clen.toNat == k && x.code.setWidth 32 == v

theorem matchCode_eq_findIdx? (m : List MapEntry) (k : Nat) (v : Word) :
    matchCode m k v = m.findIdx? (MapEntry.isMatch k v) := rfl

/-- The symbol of the match is that of the first entry that passes the test (R54, R55). -/
theorem matchCode_map_entrySym (m : List MapEntry) (k : Nat) (v : Word) :
    (matchCode m k v).map (entrySym m) = (m.find? (MapEntry.isMatch k v)).map MapEntry.sym := by
  rw [matchCode_eq_findIdx?, List.find?_eq_bind_findIdx?_getElem?]
  cases he : m.findIdx? (MapEntry.isMatch k v) with
  | none => rfl
  | some e =>
    obtain ⟨hlt, -⟩ := List.findIdx?_eq_some_iff_getElem.1 he
    simp [entrySym, List.getElem?_eq_getElem hlt]

/-- Two entries that match one candidate have the same code. -/
theorem code_eq_of_isMatch {k : Nat} {v : Word} {x y : MapEntry} (hx : x.isMatch k v = true)
    (hy : y.isMatch k v = true) : x.clen = y.clen ∧ x.code = y.code := by
  simp only [MapEntry.isMatch, Bool.and_eq_true, beq_iff_eq] at hx hy
  obtain ⟨hxk, hxv⟩ := hx
  obtain ⟨hyk, hyv⟩ := hy
  have hcode : x.code.setWidth 32 = y.code.setWidth 32 := hxv.trans hyv.symm
  exact ⟨BitVec.eq_of_toNat_eq (hxk.trans hyk.symm), by bv_omega⟩

/-- In a map with no code twice, at most one entry matches a candidate (R205). -/
theorem isMatch_subsingleton {m : List MapEntry} (hm : m.Pairwise (fun x y => ¬(x.clen = y.clen ∧ x.code = y.code)))
    (k : Nat) (v : Word) : {x ∈ m | x.isMatch k v}.Subsingleton := by
  rintro x ⟨hxm, hx⟩ y ⟨hym, hy⟩
  have hsymm : Std.Symm fun x y : MapEntry => ¬(x.clen = y.clen ∧ x.code = y.code) :=
    ⟨fun _ _ h h' => h ⟨h'.1.symm, h'.2.symm⟩⟩
  by_contra hne
  exact hm.forall hxm hym hne (code_eq_of_isMatch hx hy)

/-- Settles O47: both maps find the same entry, since at most one matches. -/
theorem entryOrderDoesNotMatter : Obligations.EntryOrderDoesNotMatter := by
  intro m m' k v hperm hm
  rw [matchCode_map_entrySym, matchCode_map_entrySym, List.find?_eq_find?_of_perm hperm (isMatch_subsingleton hm k v)]

end Sys2Proof.Machine
end

section
/-! O26: one operation of the unit, as the bit reader sees it (R161 to R163): `unitOp_readerMove` says once which operations
touch the reader, and the statements about the reader go through it. -/

namespace Sys2Proof.Machine

/-- From `s` to `t` the reader stands still, and no byte is requested. -/
def LeavesReader (s t : State) : Prop := sameReader s t ∧ (t.pend = .src → s.pend = .src)

theorem LeavesReader.refl (s : State) : LeavesReader s s := ⟨⟨rfl, rfl, rfl, rfl, rfl, rfl⟩, id⟩

theorem LeavesReader.complete {s t : State} (h : LeavesReader s t) : LeavesReader s (complete t) := h

theorem LeavesReader.raise {s t : State} (h : LeavesReader s t) (c : Cause) : LeavesReader s (raise c t) :=
  ⟨h.1, fun hp => by cases hp⟩

theorem LeavesReader.goTo {s t : State} (h : LeavesReader s t) (c : Instr) (p : Pos) : LeavesReader s (goTo c p t) := h

theorem LeavesReader.startRead {s t : State} (h : LeavesReader s t) (c : Instr) (n : Nat) (r : ReadFor) :
    LeavesReader s (startRead c n r t) := h.goTo c _

theorem LeavesReader.afterBodyStep {s t : State} (h : LeavesReader s t) (c : Instr) (m : Bool) :
    LeavesReader s (afterBodyStep c m t) := by
  rcases afterBodyStep_cases c m t with e | ⟨d, e⟩ <;> rw [e]
  · exact h.complete
  · exact h.startRead _ _ _

theorem LeavesReader.afterEntry {s t : State} (h : LeavesReader s t) (c : Instr) : LeavesReader s (afterEntry c t) := by
  rcases afterEntry_cases c t with e | ⟨d, e⟩ | ⟨-, d, e⟩ <;> rw [e]
  · exact h.complete
  · exact h.startRead _ _ _
  · exact h.startRead _ _ _

theorem LeavesReader.headerEnd {s t : State} (h : LeavesReader s t) (c : Instr) : LeavesReader s (headerEnd c t) := by
  refine LeavesReader.afterEntry ?_ c
  exact h

theorem LeavesReader.afterSymbol {s t : State} (h : LeavesReader s t) (c : Instr) : LeavesReader s (afterSymbol c t) := by
  unfold Machine.afterSymbol
  repeat' split
  · exact h.raise _
  · exact h.startRead _ _ _
  · exact h.headerEnd c
  · exact h.startRead _ _ _

theorem LeavesReader.bodyMatch {s t : State} (h : LeavesReader s t) (c : Instr) (e : Nat) :
    LeavesReader s (bodyMatch c e t) := by
  unfold Machine.bodyMatch
  simp only
  split
  · refine LeavesReader.afterBodyStep ?_ c true
    exact h
  · exact h

theorem LeavesReader.bodyNoMatchYet {s t : State} (h : LeavesReader s t) (c : Instr) :
    LeavesReader s (bodyNoMatchYet c t) := by
  unfold Machine.bodyNoMatchYet
  split
  · exact h.raise _
  · exact h.afterBodyStep c false

/-- What a caller does with the bits it gets takes no bit and requests no byte (R160): the next `ReadBits` does. -/
theorem readReturn_leavesReader (c : Instr) (r : ReadFor) (n k : Nat) (v : Word) (s : State) :
    LeavesReader s (readReturn c r n k v s) := by
  have h := LeavesReader.refl s
  cases r <;> simp only [readReturn]
  case rd => exact h
  case symLen =>
    unfold symLenReturn
    repeat' split
    · exact h.raise _
    · exact h.raise _
    · exact h.raise _
    · exact h.startRead _ _ _
  case symByte m i =>
    unfold symByteReturn
    simp only
    repeat' split
    · exact h.raise _
    · exact h
    · refine LeavesReader.afterSymbol ?_ c
      exact h
  case tailLen =>
    unfold tailLenReturn
    split
    · exact h.raise _
    · exact h.startRead _ _ _
  case tailCode =>
    unfold tailCodeReturn
    split
    · exact h.raise _
    · exact h.headerEnd c
  case clen =>
    unfold clenReturn
    repeat' split
    · exact h.raise _
    · exact h.raise _
    · exact h.startRead _ _ _
  case code =>
    unfold codeReturn
    repeat' split
    · exact h.raise _
    · exact h.raise _
    · exact h.raise _
    · refine LeavesReader.afterEntry ?_ c
      exact h
  case bodyBit =>
    unfold bodyBitReturn
    simp only
    repeat' split
    · exact h.raise _
    · refine LeavesReader.bodyMatch ?_ c _
      exact h
    · refine LeavesReader.bodyNoMatchYet ?_ c
      exact h

theorem emitOp_leavesReader (c : Instr) (e i : Nat) (s : State) : LeavesReader s (emitOp c e i s) := by
  have h := LeavesReader.refl s
  unfold emitOp
  split
  · exact ⟨h.1, fun hp => by cases hp⟩
  · refine LeavesReader.afterBodyStep ?_ c true
    exact h

theorem writeOp_leavesReader (c : Instr) (n i : Nat) (s : State) : LeavesReader s (writeOp c n i s) := by
  have h := LeavesReader.refl s
  unfold writeOp
  simp only
  repeat' split
  · exact ⟨h.1, fun hp => by cases hp⟩
  · exact h
  · exact h.complete

theorem flushOp_leavesReader (s : State) : LeavesReader s (flushOp s) := by
  have h := LeavesReader.refl s
  unfold flushOp
  split
  · exact h.complete
  · exact ⟨h.1, fun hp => by cases hp⟩

theorem answerOut_leavesReader (a : SinkAnswer) (b : Byte) (s : State) : LeavesReader s (answerOut a b s) := by
  cases a <;> exact ⟨(LeavesReader.refl s).1, fun hp => by cases hp⟩

theorem answerWout_leavesReader (a : SinkAnswer) (b : Byte) (s : State) : LeavesReader s (answerWout a b s) := by
  cases a <;> exact ⟨(LeavesReader.refl s).1, fun hp => by cases hp⟩

/-- What one operation of the unit does to the reader (R161). -/
inductive ReaderMove (s : State) : State → Prop
  /-- The reader stands still (R160). -/
  | quiet {t : State} (h : LeavesReader s t) : ReaderMove s t
  /-- A byte is requested: the buffer is empty, a bit is wanted and `End` has not been answered (R162, R163). -/
  | request {c : Instr} {n k : Nat} {v : Word} {r : ReadFor} (hcur : s.cur = some { instr := c, pos := .read n k v r })
      (hwant : k < n) (hempty : s.brCnt = 0) (hopen : s.srcEnd = false) : ReaderMove s { s with pend := .src }
  /-- A buffered bit is delivered. -/
  | deliver (c : Instr) (p : Pos) (hpend : s.pend ≠ .src) (hbuf : s.brCnt ≠ 0) : ReaderMove s (goTo c p (takeBit s))
  /-- The outstanding request is answered (R86). -/
  | answer (a : SrcAnswer) (l : List SrcAnswer) (hpend : s.pend = .src) :
      ReaderMove s (answerSrc a { s with srcReady := l })

theorem readOp_readerMove {s : State} {c : Instr} {n k : Nat} {v : Word} {r : ReadFor}
    (hc : s.cur = some { instr := c, pos := .read n k v r }) (hp : s.pend = .none) : ReaderMove s (readOp c n k v r s) := by
  unfold readOp
  split
  · rename_i hk
    split
    · rename_i hz
      split
      · exact .quiet (readReturn_leavesReader _ _ _ _ _ s)
      · rename_i he
        exact .request hc hk hz (by simpa using he)
    · rename_i hz
      exact .deliver _ _ (by simp [hp]) hz
  · exact .quiet (readReturn_leavesReader _ _ _ _ _ s)

theorem posOp_readerMove {s : State} {c : Instr} {p : Pos} (hc : s.cur = some { instr := c, pos := p })
    (hp : s.pend = .none) : ReaderMove s (posOp c p s) := by
  cases p with
  | read n k v r => exact readOp_readerMove hc hp
  | emit e i => exact .quiet (emitOp_leavesReader c e i s)
  | write n i => exact .quiet (writeOp_leavesReader c n i s)
  | flush => exact .quiet (flushOp_leavesReader s)

theorem unitOp_readerMove (s : State) : ReaderMove s (unitOp s) := by
  have hself : ReaderMove s s := .quiet (.refl s)
  unfold unitOp
  split
  · exact hself
  · rename_i c hc
    split
    · rename_i hp
      exact posOp_readerMove hc hp
    · rename_i hp
      split
      · exact hself
      · exact .answer _ _ hp
    · split
      · exact hself
      · exact .quiet (answerOut_leavesReader _ _ { s with outReady := _ })
    · split
      · exact hself
      · exact .quiet (answerWout_leavesReader _ _ { s with woutReady := _ })

/-- Settles O26: of the four things an operation can do to the reader, only a request makes one outstanding. -/
theorem topUpIsLazy : Obligations.TopUpIsLazy := by
  intro s hp hreq
  have hmove := unitOp_readerMove s
  generalize unitOp s = t at hmove hreq
  cases hmove with
  | quiet h => exact absurd (h.2 hreq) hp
  | request hcur hwant hempty hopen => exact ⟨hempty, hopen, _, _, _, _, _, hcur, hwant⟩
  | deliver => exact absurd hreq hp
  | answer _ _ hsrc => exact absurd hsrc hp

end Sys2Proof.Machine
end

section
/-! O27 and O28: `ReaderForward` says once how a move of the machine other than a reset can move the reader (R163, R167): each
operation of the unit by `unitOp_readerMove`, and a move of the host only where it answers a request. -/

namespace Sys2Proof.Machine

/-- From `s` to `t` the reader takes back no byte and no bit, and after `End` it does not move. -/
structure ReaderForward (s t : State) : Prop where
  stream : s.srcStream <+: t.srcStream
  delivered : s.delivered ≤ t.delivered
  atEnd : s.srcEnd = true → t.srcEnd = true ∧ t.srcStream = s.srcStream ∧ t.brPos = s.brPos

theorem ReaderForward.refl (s : State) : ReaderForward s s :=
  ⟨List.prefix_rfl, Nat.le_refl _, fun h => ⟨h, rfl, rfl⟩⟩

theorem ReaderForward.trans {s t u : State} (h : ReaderForward s t) (h' : ReaderForward t u) : ReaderForward s u where
  stream := h.stream.trans h'.stream
  delivered := h.delivered.trans h'.delivered
  atEnd he := by
    obtain ⟨ht, hs, hp⟩ := h.atEnd he
    obtain ⟨hu, hs', hp'⟩ := h'.atEnd ht
    exact ⟨hu, hs'.trans hs, hp'.trans hp⟩

theorem sameReader.forward {s t : State} (h : sameReader s t) : ReaderForward s t := by
  obtain ⟨hpos, hcnt, -, hend, hstream, -⟩ := h
  exact ⟨by rw [hstream], by rw [State.delivered, State.delivered, hcnt, hstream], fun he => ⟨hend.trans he, hstream, hpos⟩⟩

/-- While a request is outstanding `End` has not been answered (R163). -/
theorem Inv.srcEnd_of_request {s : State} (h : Inv s) (hp : s.pend = .src) : s.srcEnd = false := by
  obtain ⟨c, hc⟩ := h.cur_of_pend (by simp [hp])
  have hpend := (h.position c hc).2
  rw [hp] at hpend
  obtain ⟨_, _, _, _, -, -, -, hopen⟩ := hpend
  exact hopen

/-- A byte answered adds eight bits to the stream and as many to the buffer, so none counts as delivered. -/
theorem answerSrc_forward {s : State} (a : SrcAnswer) (hopen : s.srcEnd = false) :
    ReaderForward s (answerSrc a s) := by
  have hr := ReaderForward.refl s
  cases a with
  | byte b =>
    refine ⟨List.prefix_append _ _, ?_, fun he => absurd he (by simp [hopen])⟩
    show 8 * s.srcStream.length - s.brCnt.toNat ≤ 8 * (s.srcStream ++ [b]).length - 8
    rw [List.length_append, List.length_singleton]
    omega
  | endOfData => exact { hr with atEnd := fun he => absurd he (by simp [hopen]) }
  | error => exact sameReader.forward (raise_sameReader _ s)

theorem takeBit_forward {s : State} (hbuf : s.brCnt ≠ 0) (hopen : s.srcEnd = false) : ReaderForward s (takeBit s) := by
  refine ⟨List.prefix_rfl, ?_, fun he => absurd he (by simp [hopen])⟩
  have hle : (s.brCnt - 1).toNat ≤ s.brCnt.toNat := by bv_omega
  simp only [State.delivered, takeBit_brCnt, takeBit_srcStream]
  omega

/-- An operation of the unit moves the reader only forward, and after `End` not at all (R163, R167). -/
theorem unitOp_forward {s : State} (h : Inv s) : ReaderForward s (unitOp s) := by
  have hmove := unitOp_readerMove s
  generalize unitOp s = t at hmove
  cases hmove with
  | quiet hq => exact sameReader.forward hq.1
  | request => exact sameReader.forward (LeavesReader.refl s).1
  | deliver c p hp hbuf =>
    have hopen : s.srcEnd = false := by
      by_contra he
      exact hbuf (h.endEmpty (by simpa using he))
    have hf := takeBit_forward hbuf hopen
    exact { hf with }
  | answer a l hp =>
    have hf := answerSrc_forward (s := { s with srcReady := l }) a (h.srcEnd_of_request hp)
    exact { hf with }

theorem unitRun_forward {s : State} (h : Inv s) : ReaderForward s (unitRun s) := by
  have hdue : ReaderForward s (markDue s) := by
    obtain ⟨l, -, e⟩ := markDue_moves s
    rw [e]
    exact sameReader.forward (LeavesReader.refl s).1
  exact (unitOps_keeps (P := fun t => Inv t ∧ ReaderForward s t)
    (fun _ ht => ⟨unitOp_inv ht.1, ht.2.trans (unitOp_forward ht.1)⟩) (slice s) ⟨markDue_inv h, hdue⟩).2

/-! ### A command, a move of the host, a step -/

/-- What a CMD write leads to (R260, R290). -/
inductive CommandResult (s : State) : State → Prop
  /-- RESET (R264). -/
  | reset : CommandResult s (softReset s)
  /-- Dropped while BUSY (R260). -/
  | dropped : CommandResult s { s with ovr := true }
  /-- Ignored in phase ERROR (R290). -/
  | ignored : CommandResult s s
  /-- No command, or one the phase does not allow (R125, R265). -/
  | refused (k : Cause) : CommandResult s (raise k s)
  /-- Accepted: the unit runs it (R261). -/
  | run (i : Instr) (hi : i ≠ .reset) (hb : s.busy = false) (he : s.err = false) (ha : allowed i s.phase = true) :
      CommandResult s (unitRun (startOf i s))

theorem exec_result {i : Instr} {s t : State} (ht : exec i s = .next t) : CommandResult s t := by
  by_cases hi : i = .reset
  · subst hi
    cases ht
    exact .reset
  · rw [exec_eq_startCommand hi] at ht
    unfold startCommand at ht
    repeat' split at ht
    · cases ht; exact .dropped
    · cases ht; exact .ignored
    · cases ht; exact .refused _
    · rename_i hb he ha
      cases ht
      exact .run i hi (by simpa using hb) (by simpa using he) (by simpa using ha)

theorem cmdWrite_result {w : Word} {s t : State} (ht : cmdWrite w s = .next t) : CommandResult s t := by
  unfold cmdWrite at ht
  split at ht
  · exact exec_result ht
  · unfold illegalWord at ht
    repeat' split at ht
    · cases ht; exact .dropped
    · cases ht; exact .ignored
    · cases ht; exact .refused _

/-- A command takes its first bit when the unit runs it, not when it is accepted. -/
theorem startOf_sameReader {i : Instr} (hi : i ≠ .reset) (s : State) : sameReader s (startOf i s) := by
  have h := LeavesReader.refl s
  rcases startOf_cases hi s with e | ⟨k, e⟩ | ⟨p, e, -⟩ <;> rw [e]
  · exact h.complete.1
  · exact (h.raise k).1
  · exact (h.goTo i p).1

theorem CommandResult.resets_or_forward {s t : State} (h : Inv s) (hr : s.rst = false) (ht : CommandResult s t) :
    t.freshlyReset ∨ ReaderForward s t := by
  have hself := (LeavesReader.refl s).1
  cases ht with
  | reset => exact .inl (softReset_freshlyReset s)
  | dropped => exact .inr (sameReader.forward hself)
  | ignored => exact .inr (.refl s)
  | refused k => exact .inr (sameReader.forward (raise_sameReader k s))
  | run i hi hb he ha =>
    exact .inr ((startOf_sameReader hi s).forward.trans (unitRun_forward ((h.steady hb he hr).startOf hi ha)))

theorem regWrite_sameReader (off : Nat) (v : Word) (s : State) : sameReader s (regWrite off v s) := by
  unfold regWrite guardedWrite
  repeat' split
  all_goals exact (LeavesReader.refl s).1

theorem MoveResult.resets_or_forward {s t : State} (h : Inv s) (ht : MoveResult s t) :
    t.freshlyReset ∨ ReaderForward s t := by
  have hself := (LeavesReader.refl s).1
  cases ht with
  | read off =>
    rw [busRead_eq off s]
    exact .inr (sameReader.forward hself)
  | ignored => exact .inr (.refl s)
  | command w hr ht => exact (cmdWrite_result ht).resets_or_forward h hr
  | register off v => exact .inr (regWrite_sameReader off v s).forward
  | src a =>
    rcases hostAnswerSrc_cases a s with e | ⟨hp, e⟩ <;> rw [e]
    · exact .inr (.refl s)
    · exact .inr (answerSrc_forward a (h.srcEnd_of_request hp))
  | out a =>
    rcases hostAnswerOut_cases a s with e | ⟨b, -, e⟩ <;> rw [e]
    · exact .inr (.refl s)
    · exact .inr (answerOut_leavesReader a b s).1.forward
  | wout a =>
    rcases hostAnswerWout_cases a s with e | ⟨b, -, e⟩ <;> rw [e]
    · exact .inr (.refl s)
    · exact .inr (answerWout_leavesReader a b s).1.forward
  | ready a b d => exact .inr { ReaderForward.refl s with }
  | rst level =>
    cases level with
    | true => exact .inl (softReset_freshlyReset s)
    | false => exact .inr (sameReader.forward hself)

theorem step_resets_or_forward {s t : State} (h : Inv s) (ht : step s = .next t) : t.freshlyReset ∨ ReaderForward s t := by
  rcases step_cases ht with rfl | rfl | ⟨m, l, -, hm⟩
  · exact .inr (.refl _)
  · exact .inr (unitRun_forward h)
  · have hl : ReaderForward s { s with moves := l } := { ReaderForward.refl s with }
    exact (hm.resets_or_forward (h.withMoves l)).imp_right hl.trans

/-- Settles O27: the reader does not move after `End`, and the invariant, which the step keeps, has no request beside SRC_END. -/
theorem endIsFinal : Obligations.EndIsFinal := by
  intro s t h he ht
  refine (step_resets_or_forward h ht).imp_right fun hf => ?_
  obtain ⟨hend, hstream, hpos⟩ := hf.atEnd he
  refine ⟨hend, fun hp => ?_, hstream, hpos⟩
  rw [(step_inv h ht).srcEnd_of_request hp] at hend
  cases hend

/-- Settles O28: a step that is no reset takes back neither a byte nor a bit. -/
theorem readerOnlyMovesForward : Obligations.ReaderOnlyMovesForward := fun _ _ h ht =>
  (step_resets_or_forward h ht).imp_right fun hf => ⟨hf.stream, hf.delivered⟩

end Sys2Proof.Machine
end

section
/-! O23 and O24: how an RD ends (R164, R165). Its read is run by the lemmas of Laws/Reader.lean up to the last bit it gets; what
it leaves alone is the frame of every command (`exec_frame`). -/

namespace Sys2Proof.Machine

/-- An RD that runs up to its return ends there (R165). -/
theorem execRd_returns {n : BitVec 6} {s u : State} {k : Nat} {v : Word} (hn : n.toNat ≤ 32) (h : s.canRun)
    (hr : Runs (startRead (.rd n) n.toNat .rd s) (rdReturn k v u)) : exec (.rd n) s = .next (rdReturn k v u) :=
  execRd_runs hn h hr rfl

/-- `u` is how the reader stands when an RD of `n` bits that began in `s` returns: it has the next `n` bits, or all that remain
(R161, R163). -/
structure RdReads (n : Nat) (s u : State) : Prop where
  pos : u.brPos = s.brPos + BitVec.ofNat 32 (s.availBits.take n).length
  rest : u.availBits = s.availBits.drop n
  srcEnd : u.srcEnd = (s.srcEnd || decide (s.availBits.length < n))
  pend : u.pend = .none
  err : u.err = s.err

/-- Enough bits: the read returns the next `n` (R161). -/
theorem rd_runs_enough {n : Nat} {s : State} (c : Instr) (hp : s.pend = .none) (hn : n ≤ s.availBits.length) :
    ∃ u, RdReads n s u ∧
      Runs (startRead c n .rd s) (rdReturn (s.availBits.take n).length ((s.availBits.take n).foldl shiftIn 0) u) := by
  have hlen : (s.availBits.take n).length = n := by simp [hn]
  obtain ⟨u, hu, hrest, -, hrun⟩ :=
    startRead_runs (s.availBits.take n) c .rd hp (List.take_append_drop n s.availBits).symm
  obtain ⟨_, _, _, _, e⟩ := hu.elim
  rw [hlen] at hrun
  rw [hlen]
  refine ⟨_, ?_, hrun⟩
  exact ⟨by rw [e]; rfl, hrest, by rw [e]; simp [hn], by rw [e]; exact hp, by rw [e]; rfl⟩

/-- Too few bits before the end of the source: the read returns all of them (R163). -/
theorem rd_runs_short {n : Nat} {s : State} (c : Instr) (hp : s.pend = .none) (hn : s.availBits.length < n)
    (he : s.sourceEnds) :
    ∃ u, RdReads n s u ∧
      Runs (startRead c n .rd s) (rdReturn (s.availBits.take n).length ((s.availBits.take n).foldl shiftIn 0) u) := by
  obtain ⟨u, hu, hrest, hstop, hrun⟩ := startRead_upTo s.availBits c n .rd hp rfl hn.le
  obtain ⟨_, _, _, _, e⟩ := hu.elim
  have hup : u.pend = .none := by rw [e]; exact hp
  have hue : u.sourceEnds := he.imp (fun h => by rw [e]; exact h) hstop.trans
  obtain ⟨l, hend⟩ := read_atEnd (s := goTo c (.read n s.availBits.length (s.availBits.foldl shiftIn 0) .rd) u) rfl hup hn
    hrest hue
  rw [List.take_of_length_le hn.le]
  refine ⟨_, ?_, hrun.trans hend⟩
  refine ⟨?_, ?_, by simp [hn], hup, by rw [e]; rfl⟩
  · rw [List.take_of_length_le hn.le, e]
    rfl
  · have hbuf : u.bufBits = [] := by
      rw [State.availBits, List.append_eq_nil_iff] at hrest
      exact hrest.1
    rw [List.drop_eq_nil_of_le hn.le]
    exact List.append_eq_nil_iff.2 ⟨hbuf, rfl⟩

/-- An RD that the source can serve, or that finds its end, returns what it got (R165). -/
theorem rd_runs {n : Nat} {s : State} (c : Instr) (hp : s.pend = .none) (h : n ≤ s.availBits.length ∨ s.sourceEnds) :
    ∃ u, RdReads n s u ∧
      Runs (startRead c n .rd s) (rdReturn (s.availBits.take n).length ((s.availBits.take n).foldl shiftIn 0) u) := by
  rcases Nat.lt_or_ge s.availBits.length n with hlt | hge
  · exact rd_runs_short c hp hlt (h.resolve_left (by omega))
  · exact rd_runs_enough c hp hge

/-- A command that ends without an error has moved no error register. -/
theorem sameError_of_statusFrame {s t : State} (h : statusFrame s t) (he : t.err = false) :
    sameError s t ∧ t.intPendErri = s.intPendErri := by
  obtain ⟨c, herr, -⟩ | ⟨hsame, herri, -⟩ := h
  · rw [he] at herr
    cases herr
  · exact ⟨hsame, herri⟩

/-- Settles O23: the bits are those of `rd_runs`, and the frame is that of every command. -/
theorem rdReturnsTheNextBits : Obligations.RdReturnsTheNextBits := by
  intro n s hn h havail
  have ⟨hbusy, herr, hp, _⟩ := h
  obtain ⟨u, ⟨hpos, hrest, hend, hup, hue⟩, hrun⟩ := rd_runs (.rd n) hp havail
  have ht := execRd_returns hn h hrun
  have hlen : (s.availBits.take n.toNat).length ≤ 32 := (List.length_take_le _ _).trans hn
  obtain ⟨hown, hstatus, hovr, -⟩ := exec_frame (by simp) (fun _ => hp) ht
  obtain ⟨hsame, herri⟩ := sameError_of_statusFrame hstatus (hue.trans herr)
  refine ⟨_, ht, ⟨rfl, hue.trans herr, hup, rfl⟩, ?_, foldl_shiftIn_zero hlen, hpos, hrest, hend, hsame, herri,
    by simpa [hbusy] using hovr, hown⟩
  exact (BitVec.toNat_ofNat _ _).trans (Nat.mod_eq_of_lt (by omega))

/-- An RD whose source answers `Error` before its last bit has delivered the bits before it (R164). -/
theorem rd_runs_error {n : Nat} {s : State} (c : Instr) (hp : s.pend = .none) (hn : s.availBits.length < n)
    (he : s.srcEnd = false) (hs : readyStop s.srcReady = some .error) :
    ∃ u, u.brPos = s.brPos + BitVec.ofNat 32 s.availBits.length ∧ u.brCnt = 0 ∧
      Runs (startRead c n .rd s) (raise (.ioError 0) u) := by
  obtain ⟨u, hu, hrest, hstop, hrun⟩ := startRead_upTo s.availBits c n .rd hp rfl hn.le
  have hup : u.pend = .none := hu.pend_eq.trans hp
  obtain ⟨_, _, _, _, e⟩ := hu.elim
  have hue : u.srcEnd = false := by rw [e]; exact he
  obtain ⟨l, herr⟩ := read_atError (s := goTo c (.read n s.availBits.length (s.availBits.foldl shiftIn 0) .rd) u) rfl hup hn
    hrest hue (hstop.trans hs)
  refine ⟨_, ?_, ?_, hrun.trans herr⟩
  · rw [e]; rfl
  · exact (availBits_nil hrest).1

/-- Settles O24: the error entry of R284 after the bits that could be delivered. -/
theorem srcErrorEndsRd : Obligations.SrcErrorEndsRd := by
  intro n s hn h he hlt hs
  obtain ⟨u, hpos, hcnt, hrun⟩ := rd_runs_error (.rd n) (pend_of_canRun h) hlt he hs
  have ht := execRd_runs hn h hrun rfl
  obtain ⟨-, -, -, hres, -⟩ := exec_frame (by simp) (fun _ => pend_of_canRun h) ht
  exact ⟨_, ht, raise_recordsError (.ioError 0) u, rfl, rfl, rfl, hpos, hcnt, hres (.inr rfl)⟩

end Sys2Proof.Machine
end

section
/-! O31, O32, O33 and O49: how WR and FLUSH end (R182, R184, R185). The bits of a WR are written by `write_bits` of
Laws/Writer.lean; what the two commands leave alone is the frame of every command (`exec_frame`). -/

namespace Sys2Proof.Machine

/-! ### O49: the frame -/

/-- Settles O49, by the frame of every command. -/
theorem writerLeavesTheRestAlone : Obligations.WriterLeavesTheRestAlone := by
  intro i s t hi hp ht
  have hr : i ≠ .reset := by rintro rfl; simp at hi
  obtain ⟨hown, hstatus, hovr, -⟩ := exec_frame hr hp ht
  exact ⟨hown, hstatus, hovr⟩

/-- The frame of a command that an idle unit accepts and that ends without an error. -/
theorem exec_frame_of_canRun {i : Instr} {s t : State} (hi : i ≠ .reset) (h : s.canRun) (ht : exec i s = .next t)
    (he : t.err = false) :
    sameError s t ∧ t.intPendErri = s.intPendErri ∧ t.ovr = s.ovr ∧ ownFrame s t i := by
  have ⟨hbusy, _, hp, _⟩ := h
  obtain ⟨hown, hstatus, hovr, -⟩ := exec_frame hi (fun _ => hp) ht
  obtain ⟨hsame, herri⟩ := sameError_of_statusFrame hstatus he
  exact ⟨hsame, herri, by simpa [hbusy] using hovr, hown⟩

/-! ### O31: WR -/

/-- After the last bit of a WR the command completes (R182). -/
theorem write_end {s : State} (c : Instr) (n : Nat) (hp : s.pend = .none) :
    Runs (goTo c (.write n n) s) (complete (goTo c (.write n n) s)) :=
  Runs.op_eq (by simp [unitOp, hp, posOp, writeOp]) (Runs.refl _)

/-- Settles O31: the bits are those of `write_bits`, and the frame is that of every command. -/
theorem wrAppendsTheBits : Obligations.WrAppendsTheBits := by
  intro n s hn h h7 hack
  have ⟨_, herr, hp, _⟩ := h
  obtain ⟨u, hu, hbits, hlen, hcnt, hpos, hrun⟩ :=
    write_bits n.toNat (s := goTo (.wr n) (.write n.toNat 0) s) rfl hp (Nat.zero_add _).symm h7 hack
  obtain ⟨_, _, _, _, _, e⟩ := hu.elim
  have hup : u.pend = .none := by rw [e]; exact hp
  have hue : u.err = false := by rw [e]; exact herr
  have ht := execWr_runs hn h (hrun.trans (write_end (.wr n) n.toNat hup)) rfl
  refine ⟨_, ht, ⟨rfl, hue, hup, rfl⟩, hbits, hlen, hcnt, ?_, exec_frame_of_canRun (by simp) h ht hue⟩
  exact hpos.trans (by rw [BitVec.ofNat_toNat]; rfl)

/-! ### O32: FLUSH -/

/-- A multiple of 2^m has only zeros in its low bits. -/
theorem bitsOf_of_dvd {n m v : Nat} (hv : 2 ^ m ∣ v) (hn : n ≤ m) : bitsOf n v = List.replicate n false := by
  induction n with
  | zero => rfl
  | succ n ih =>
    obtain ⟨q, rfl⟩ := hv
    have hbit : (2 ^ m * q).testBit n = false := by
      rw [Nat.testBit_two_pow_mul, decide_eq_false (by omega), Bool.false_and]
    rw [bitsOf, hbit, ih (by omega), List.replicate_succ]

/-- The last `m` bits of a sequence are the `m`-bit sequence of the same number. -/
theorem drop_bitsOf (k m v : Nat) : (bitsOf (k + m) v).drop k = bitsOf m v := by
  induction k with
  | zero => simp
  | succ k ih => rw [Nat.succ_add, bitsOf, List.drop_succ_cons, ih]

/-- An accumulator whose unused bits are 0 is the `k` bits written and the zero padding (R184). -/
theorem byteBits_eq_padded {a : Byte} {k : Nat} (hk : k ≤ 8) (h0 : a.toNat % 2 ^ (8 - k) = 0) :
    byteBits a = (byteBits a).take k ++ List.replicate (8 - k) false := by
  have hdrop : (byteBits a).drop k = List.replicate (8 - k) false := by
    have hlast := drop_bitsOf k (8 - k) a.toNat
    rw [Nat.add_sub_of_le hk] at hlast
    exact hlast.trans (bitsOf_of_dvd (Nat.dvd_of_mod_eq_zero h0) le_rfl)
  rw [← hdrop, List.take_append_drop]

theorem unitOp_flush {s : State} (hp : s.pend = .none) :
    unitOp (goTo .flush .flush s) = flushOp (goTo .flush .flush s) := by simp [unitOp, hp, posOp]

/-- FLUSH on a byte boundary completes at once (R184). -/
theorem flush_aligned_runs {s : State} (hp : s.pend = .none) (h0 : s.bwCnt = 0) :
    Runs (goTo .flush .flush s) (complete (goTo .flush .flush s)) :=
  Runs.op_eq ((unitOp_flush hp).trans (if_pos h0)) (Runs.refl _)

/-- The writer once the host has taken the accumulator, with the answers `l` left (R184). -/
def sentAcc (l : List SinkAnswer) (s : State) : State :=
  { s with woutStream := s.woutStream ++ [s.bwAcc], bwAcc := 0, bwCnt := 0, woutReady := l }

/-- FLUSH off a byte boundary offers the accumulator, and completes once the host has taken it (R184). -/
theorem flush_partial_runs {s : State} {l : List SinkAnswer} (hp : s.pend = .none) (h0 : s.bwCnt ≠ 0)
    (hack : s.woutReady = .ack :: l) :
    Runs (goTo .flush .flush s) (complete (goTo .flush .flush (sentAcc l s))) := by
  have hoffer : unitOp (goTo .flush .flush s) = { goTo .flush .flush s with pend := .wout s.bwAcc } :=
    (unitOp_flush hp).trans (if_neg h0)
  have htaken : unitOp { goTo .flush .flush s with pend := .wout s.bwAcc } = goTo .flush .flush (sentAcc l s) := by
    simp [unitOp, hack, answerWout, goTo, sentAcc, hp]
  exact Runs.op_eq hoffer (Runs.op_eq htaken (flush_aligned_runs hp rfl))

/-- The host's next WOUT answer, where it has an `Ack` ready. -/
theorem woutReady_of_acksWout_one {s : State} (h : s.acksWout 1) : ∃ l, s.woutReady = .ack :: l := by
  obtain ⟨l, hl⟩ := List.isPrefixOf_iff_prefix.1 h
  exact ⟨l, hl.symm⟩

/-- Sending the accumulator writes the bits it holds and the padding (R184). -/
theorem writtenBits_sentAcc {s : State} (l : List SinkAnswer) (h7 : s.bwCnt.toNat ≤ 7)
    (h0 : s.bwAcc.toNat % 2 ^ (8 - s.bwCnt.toNat) = 0) :
    (sentAcc l s).writtenBits = s.writtenBits ++ List.replicate (8 - s.bwCnt.toNat) false := by
  have hacc : byteBits s.bwAcc = s.accBits ++ List.replicate (8 - s.bwCnt.toNat) false :=
    byteBits_eq_padded (by omega) h0
  calc (sentAcc l s).writtenBits
      = bytesBits (s.woutStream ++ [s.bwAcc]) := List.append_nil _
    _ = bytesBits s.woutStream ++ byteBits s.bwAcc := by simp [bytesBits]
    _ = s.writtenBits ++ List.replicate (8 - s.bwCnt.toNat) false := by rw [hacc, ← List.append_assoc]; rfl

/-- Settles O32, by whether the writer stands on a byte boundary. -/
theorem flushPadsAndSends : Obligations.FlushPadsAndSends := by
  intro s h h7 hzeros hack
  have ⟨_, herr, hp, _⟩ := h
  by_cases h0 : s.bwCnt = 0
  · have ht := execFlush_runs h (flush_aligned_runs hp h0) rfl
    refine ⟨_, ht, ⟨rfl, herr, hp, rfl⟩, ?_, by simp [h0], h0, fun hne => absurd h0 hne, rfl,
      exec_frame_of_canRun (by simp) h ht herr⟩
    rw [h0]
    exact (List.append_nil _).symm
  · obtain ⟨l, hl⟩ := woutReady_of_acksWout_one (hack h0)
    have ht := execFlush_runs h (flush_partial_runs hp h0 hl) rfl
    have hpos : s.bwCnt.toNat ≠ 0 := ne_zero_toNat h0
    refine ⟨_, ht, ⟨rfl, herr, hp, rfl⟩, ?_, by rw [if_neg h0]; exact List.length_append, rfl, fun _ => rfl, rfl,
      exec_frame_of_canRun (by simp) h ht herr⟩
    rw [show (8 - s.bwCnt.toNat) % 8 = 8 - s.bwCnt.toNat by omega]
    exact writtenBits_sentAcc l h7 hzeros

/-! ### O33: Error answers on WOUT and OUT -/

theorem raiseWout_recordsError (s : State) : recordsError (.ioError 2) (raiseWout s) := raise_recordsError _ _

theorem phase_of_err {s : State} (h : s.err = true) : s.phase = .error := by simp [State.phase, h]

/-- Settles O33, by the port that answers. -/
theorem sinkErrorsEndTheCommand : Obligations.SinkErrorsEndTheCommand := by
  intro s b
  refine ⟨fun hp => ?wout, fun hp => ?out⟩
  case wout =>
    exact ⟨raiseWout s, congrArg _ (hostAnswerWout_of_request hp .error), raiseWout_recordsError s, rfl, rfl, rfl, rfl,
      phase_of_err rfl⟩
  case out =>
    exact ⟨raise (.ioError 1) s, congrArg _ (hostAnswerOut_of_request hp .error), raise_recordsError _ s, rfl, rfl,
      ⟨rfl, rfl, rfl, rfl, rfl, rfl, rfl, rfl, rfl⟩, ⟨rfl, rfl, rfl⟩, phase_of_err rfl⟩

end Sys2Proof.Machine
end

section
/-! O34 to O41 and O51: how HENT, HDR and DEC parse a header (R201 to R208, R236). The entries before the one in question are
parsed by `parse_entries`; what happens in that entry is either an error its checks raise (`EntryFails`) or a want of bits
(`DriesUp`), and both are carried to the whole command once. -/

namespace Sys2Proof.Machine

/-! ### O51: the frame of the body commands -/

/-- Settles O51, by the frame of every command. -/
theorem bodyDecoderLeavesTheRestAlone : Obligations.BodyDecoderLeavesTheRestAlone := by
  intro i s t hi hp ht
  have hr : i ≠ .reset := by rintro rfl; simp at hi
  obtain ⟨hown, hstatus, hovr, -, hmap, hout⟩ := exec_frame hr hp ht
  exact ⟨hown, hstatus, hovr, hmap, hout⟩

/-! ### O34: a bad CFG.L -/

/-- A command that fails its first check is at rest; only the timing of the moves is marked (log 1). -/
theorem unitRun_raise (c : Cause) (s : State) : ∃ l, unitRun (raise c s) = raise c { s with moves := l } := by
  obtain ⟨l, -, e⟩ := markDue_moves (raise c s)
  refine ⟨l, ?_⟩
  rw [unitRun, e]
  exact unitOps_of_atRest rfl _

theorem startHeader_illegal {s : State} (c : Instr) (h : s.cfgL.toNat < 1 ∨ 32 < s.cfgL.toNat) :
    startHeader c s = raise .badConfig s := if_pos (by simpa [lengthIllegal] using h)

theorem startOf_header {i : Instr} (hi : i = .hent ∨ i = .hdr ∨ i = .dec) (s : State) :
    startOf i s = startHeader i s := by rcases hi with rfl | rfl | rfl <;> rfl

/-- HENT, HDR and DEC are allowed before the header is done (R265). -/
theorem allowed_header {i : Instr} (hi : i = .hent ∨ i = .hdr ∨ i = .dec) {s : State} (he : s.err = false)
    (hd : s.hdrDone = false) : allowed i s.phase = true := by
  have hph : s.phase = .header := by simp [State.phase, he, hd]
  rcases hi with rfl | rfl | rfl <;> simp [allowed, hph]

/-- Settles O34: the check of CFG.L raises the error before the unit runs. -/
theorem badLengthIsRefused : Obligations.BadLengthIsRefused := by
  intro i s hi hb he hd hL
  have hr : i ≠ .reset := by rintro rfl; simp at hi
  obtain ⟨l, hrun⟩ := unitRun_raise .badConfig s
  have ht : exec i s = .next (raise .badConfig { s with moves := l }) := by
    rw [exec_eq_startCommand hr, startCommand_run hb he (allowed_header hi he hd), startOf_header hi,
      startHeader_illegal i hL, hrun]
  exact ⟨_, ht, raise_recordsError _ _, rfl, rfl, raise_sameReader _ _, ⟨rfl, rfl, rfl⟩, rfl, rfl⟩

/-! ### O35, O36 and O41: headers that parse -/

theorem symBytesMax_of_legal {p : Params} (h : paramsLegal p = true) : p.symBytesMax ≤ 65535 := by
  simp [paramsLegal] at h
  omega

/-- The MAP_END symbol is one an encoder can write (R10). -/
theorem mapEndBytes_of_legal {p : Params} (h : paramsLegal p = true) :
    1 ≤ p.mapEndBytes.length ∧ p.mapEndBytes.length ≤ p.symBytesMax ∧ wellFormedUtf8 p.mapEndBytes = true := by
  simp only [paramsLegal, isOneChar, Bool.and_eq_true, decide_eq_true_eq] at h
  obtain ⟨⟨⟨⟨⟨-, hutf, hone⟩, -⟩, -⟩, hlen⟩, -⟩ := h
  refine ⟨?_, hlen, hutf⟩
  rw [Nat.one_le_iff_ne_zero, Ne, List.length_eq_zero_iff]
  intro hnil
  simp [hnil] at hone

section
variable {s t : State} {m : Nat}

theorem Parsed.err_eq (h : Parsed s m t) : t.err = s.err := (congrArg State.err h :)

theorem Parsed.hdrDone_eq (h : Parsed s m t) : t.hdrDone = s.hdrDone := (congrArg State.hdrDone h :)

theorem Parsed.srcEnd_eq (h : Parsed s m t) : t.srcEnd = s.srcEnd := (congrArg State.srcEnd h :)

theorem Parsed.outStream_eq (h : Parsed s m t) : t.outStream = s.outStream := (congrArg State.outStream h :)

theorem Parsed.maxLen_eq (h : Parsed s m t) : t.maxLen = s.maxLen := (congrArg State.maxLen h :)

theorem Parsed.brPos_eq (h : Parsed s m t) : t.brPos = s.brPos + BitVec.ofNat 32 m := (congrArg State.brPos h :)

end

/-- MAXLEN is raised to the new entry's code length where that is longer (R202). -/
theorem toNat_raisedMaxLen (a b : BitVec 5) : (if a.toNat < b.toNat then b else a).toNat = max a.toNat b.toNat := by
  split <;> omega

/-- Settles O35, by `parse_entry`; HENT completes after the entry. -/
theorem hentInsertsTheEntry : Obligations.HentInsertsTheEntry := by
  intro s x rest h hd hm h1 h2 hfit hnew hroom ha
  have ⟨_, herr, hp, _⟩ := h
  obtain ⟨t, ht, hrest, -, hrun⟩ := parse_entry x .hent hp h2 hm hfit hnew hroom ha
  have hte : t.err = false := ht.err_eq.trans herr
  have hexec := execHent_runs h hd h1 h2 hrun rfl
  exact ⟨_, hexec, ⟨rfl, hte, ht.pend_eq.trans hp, rfl⟩, rfl, toNat_raisedMaxLen _ _, ht.hdrDone_eq.trans hd, hrest,
    ht.brPos_eq, ht.srcEnd_eq, exec_frame_of_canRun (by simp) h hexec hte⟩

/-- Settles O36, by `parse_mapEnd`; HENT completes after the MAP_END entry too. -/
theorem hentEndsTheHeaderAtMapEnd : Obligations.HentEndsTheHeaderAtMapEnd := by
  intro s c tail rest h hd hl h1 h2 hfits hc htail ha
  have ⟨_, herr, hp, _⟩ := h
  obtain ⟨t, ht, hrest, -, hrun⟩ := parse_mapEnd .hent hp h2 hl hfits hc htail ha
  have hte : t.err = false := ht.err_eq.trans herr
  have hexec := execHent_runs h hd h1 h2 hrun rfl
  exact ⟨_, hexec, ⟨rfl, hte, ht.pend_eq.trans hp, rfl⟩, rfl, ht.map_eq, ht.maxLen_eq, hrest, ht.brPos_eq, ht.srcEnd_eq,
    exec_frame_of_canRun (by simp) h hexec hte⟩

/-- HDR completes once the header is done (R208). -/
theorem headerEnd_hdr (s : State) : headerEnd .hdr s = complete { s with hdrDone := true } := rfl

/-- Settles O41, by `parse_header`. -/
theorem hdrParsesTheWholeHeader : Obligations.HdrParsesTheWholeHeader := by
  intro s xs c tail rest h hd hl h1 h2 hfits hc htail hx ha
  have ⟨_, herr, hp, _⟩ := h
  obtain ⟨t, ml, ht, hml, hrest, -, hrun⟩ := parse_header xs .hdr (.inl rfl) hp hd h2 hl hfits hc htail hx ha
  have hte : t.err = false := ht.err_eq.trans herr
  rw [headerEnd_hdr] at hrun
  have hexec := execHdr_runs h hd h1 h2 hrun rfl
  exact ⟨_, hexec, ⟨rfl, hte, ht.pend_eq.trans hp, rfl⟩, rfl, ht.map_eq,
    fun hmax => (congrArg BitVec.toNat ht.maxLen_eq).trans (hml hmax), hrest, ht.brPos_eq, ht.srcEnd_eq,
    exec_frame_of_canRun (by simp) h hexec hte⟩

/-! ### The entries before the one in question -/

/-- The parser stands at the start of an entry with the map `m` so far, and the source still gives `bits` (R202). -/
structure AtEntry (p : Params) (len : Nat) (m : List MapEntry) (bits : List Bool) (s : State) : Prop where
  pend : s.pend = .none
  params : s.params = p
  cfgL : s.cfgL.toNat = len
  map : s.map = m
  avail : s.availBits = bits

/-- What the statements about a header command that does not get past the entry after `xs` assume. -/
structure HeaderRuns (i : Instr) (s : State) (xs : List MapEntry) : Prop where
  after : parsesAfter i xs
  canRun : s.canRun
  hdrOpen : s.hdrDone = false
  symMax : s.params.symBytesMax ≤ 65535
  one_le : 1 ≤ s.cfgL.toNat
  le_32 : s.cfgL.toNat ≤ 32
  takes : mapTakes s.params s.cfgL.toNat s.map xs

/-- The command gets to the entry after `xs`, with `xs` inserted (R208). -/
theorem HeaderRuns.reach {i : Instr} {s : State} {xs : List MapEntry} {bits : List Bool} (h : HeaderRuns i s xs)
    (ha : s.availBits = xs.flatMap (entryBits s.cfgL.toNat) ++ bits) :
    ∃ t ml, Parsed { s with map := s.map ++ xs, maxLen := ml } (xs.flatMap (entryBits s.cfgL.toNat)).length t ∧
      AtEntry s.params s.cfgL.toNat (s.map ++ xs) bits t ∧ readyStop t.srcReady = readyStop s.srcReady ∧
      Runs (startEntry i s) (startEntry i t) := by
  obtain ⟨t, ml, ht, -, hbits, hstop, hrun⟩ :=
    parse_entries xs h.after (pend_of_canRun h.canRun) h.hdrOpen h.le_32 h.symMax h.takes ha
  have hat : AtEntry s.params s.cfgL.toNat (s.map ++ xs) bits t :=
    ⟨ht.pend_eq.trans (pend_of_canRun h.canRun), ht.params_eq, congrArg BitVec.toNat ht.cfgL_eq, ht.map_eq, hbits⟩
  exact ⟨t, ml, ht, hat, hstop, hrun⟩

/-! ### O38, O39 and O40: entries the bits give out in -/

/-- A header command that wants a bit more in the entry after `xs` than there is (R163, R164, R88). -/
theorem HeaderRuns.exec_dry {i : Instr} {s : State} {xs : List MapEntry} {bits : List Bool} {k : Cause} {n : Nat}
    (h : HeaderRuns i s xs) (ha : s.availBits = xs.flatMap (entryBits s.cfgL.toNat) ++ bits) (hn : bits.length = n)
    (hdry : ∀ t, AtEntry s.params s.cfgL.toNat (s.map ++ xs) bits t → DriesUp (startEntry i t) t k n) :
    ∃ t, exec i s = .next t ∧ s.runsDry k t ∧ t.brPos = s.brPos + BitVec.ofNat 32 s.availBits.length ∧
      t.map = s.map ++ xs ∧ t.hdrDone = false ∧ t.outStream = s.outStream := by
  obtain ⟨t, ml, ht, hat, hstop, hrun⟩ := h.reach ha
  obtain ⟨u, hur, hrest, hruns, hu⟩ := DriesUp.after ht hstop hrun (hdry t hat)
  obtain ⟨_, _, _, _, _, _, _, _, _, _, _, _, _, _, _, e⟩ := hu.elim
  have hexec := execHeader_runs h.after h.canRun h.hdrOpen h.one_le h.le_32 hur hrest
  exact ⟨u, hexec, hruns, by rw [ha, List.length_append, hn, e], by rw [e], by rw [e]; exact h.hdrOpen, by rw [e]⟩

/-- Settles O38: the entries before by `parse_entries`, the cut entry by `entry_dry`. -/
theorem hentReportsTruncation : Obligations.HentReportsTruncation := by
  intro i s xs x cut hi h hd hm h1 h2 hx hlen hsym hbytes hcut ha
  have hcutLen : ((entryBits s.cfgL.toNat x).take cut).length = cut := List.length_take_of_le hcut.le
  refine HeaderRuns.exec_dry ⟨hi, h, hd, hm, h1, h2, hx⟩ ha hcutLen fun t ⟨hp, hpar, hcfg, _, hbits⟩ => ?_
  rw [← hpar] at hm hsym hbytes
  rw [← hcfg] at h2 hlen hsym hbytes hcut hbits ⊢
  exact entry_dry x i hp h2 hm hlen hsym hbytes hcut hbits

/-- Settles O40: the SYMLEN field of the entry that is missing gets no bit. -/
theorem headerWithoutMapEndIsTruncated : Obligations.HeaderWithoutMapEndIsTruncated := by
  intro i s xs hi h hd hm h1 h2 hx ha hend
  obtain ⟨t, ht, hruns, hpos, hmap, hopen, hout⟩ :=
    HeaderRuns.exec_dry (k := .hdrTrunc 0) ⟨.inr hi, h, hd, hm, h1, h2, hx⟩ (ha.trans (List.append_nil _).symm) rfl
      fun t ⟨hp, _, hcfg, _, hbits⟩ =>
        have hlt : 0 < t.cfgL.toNat := by omega
        read_dry [] i t.cfgL.toNat .symLen (.hdrTrunc 0) hp hbits hlt fun _ _ _ => if_pos hlt
  obtain ⟨hrec, -⟩ := hruns.1 hend
  have ⟨_, hcause, hinfo, herrPos, _⟩ := hrec
  exact ⟨t, ht, hrec, hcause, hinfo, hmap, hopen, herrPos.trans hpos, hout⟩

/-- After the MAP_END symbol the tail follows, where the layout has one (R204). -/
theorem afterSymbol_mapEnd {s : State} (c : Instr) (hl : paramsLegal s.params = true)
    (hs : parsedSym s = s.params.mapEndBytes) (hfull : s.params.mapEndTail = .fullEntry) :
    afterSymbol c s = startRead c 5 .tailLen s := by
  obtain ⟨-, -, hutf⟩ := mapEndBytes_of_legal hl
  simp [afterSymbol, hs, hutf, hfull]

/-- The bits give out `cut` bits into the tail of the MAP_END entry (R204). -/
theorem tail_dry {s : State} (c : Instr) {n cut : Nat} {tail : List Bool} (hp : s.pend = .none) (hn : n ≤ 31)
    (ht : tail.length = n) (hcut : cut < 5 + n) (ha : s.availBits = (bitsOf 5 n ++ tail).take cut) :
    DriesUp (startRead c 5 .tailLen s) s (.hdrTrunc (if cut < 5 then 2 else 3)) cut := by
  by_cases hlen : cut < 5
  · have hcutLen : ((bitsOf 5 n ++ tail).take cut).length = cut := by simp; omega
    have hdry := read_dry _ c 5 .tailLen (.hdrTrunc 2) hp ha (by omega) fun v t _ => if_pos (by omega)
    rw [hcutLen] at hdry
    rwa [if_pos hlen]
  · obtain ⟨k, rfl⟩ := Nat.exists_eq_add_of_le (Nat.le_of_not_lt hlen)
    have hcutLen : (tail.take k).length = k := List.length_take_of_le (by omega)
    have ha' : s.availBits = bitsOf 5 n ++ tail.take k := by
      rw [ha, ← List.take_length_add_append, length_bitsOf]
    obtain ⟨t, v, htp, -, -, hbits, hstop, hv, hrun⟩ :=
      read_field 5 (bitsOf 5 n) c .tailLen hp (length_bitsOf _ _) (by omega) ha'
    rw [bitsVal_bitsOf_of_lt (by omega)] at hv
    rw [readReturn, tailLenReturn, if_neg (by omega), hv] at hrun
    have hdry := read_dry _ c n .tailCode (.hdrTrunc 3) (htp.pend_eq.trans hp) hbits (by omega) fun v t _ => if_pos (by omega)
    rw [hcutLen] at hdry
    rw [if_neg hlen]
    exact hdry.after htp hstop hrun

theorem length_bytesBits (l : List Byte) : (bytesBits l).length = 8 * l.length := by simp [bytesBits, Nat.mul_comm]

/-- The MAP_END entry with a tail (R112). -/
theorem mapEndBits_fullEntry {p : Params} (h : p.mapEndTail = .fullEntry) (len n : Nat) (tail : List Bool) :
    mapEndBits p len n tail =
      (bitsOf len p.mapEndBytes.length ++ bytesBits p.mapEndBytes) ++ (bitsOf 5 n ++ tail) := by
  simp [mapEndBits, h]

/-- The bits give out in the tail of the MAP_END entry, `k` bits after its symbol (R204). -/
theorem AtEntry.mapEnd_dry {p : Params} {len n k : Nat} {m : List MapEntry} {tail : List Bool} {s : State} (c : Instr)
    (h : AtEntry p len m (bitsOf len p.mapEndBytes.length ++ (bytesBits p.mapEndBytes ++ (bitsOf 5 n ++ tail).take k)) s)
    (hl : paramsLegal p = true) (hfull : p.mapEndTail = .fullEntry) (hL : len ≤ 32) (hfits : p.mapEndBytes.length < 2 ^ len)
    (hn : n ≤ 31) (ht : tail.length = n) (hk : k < 5 + n) :
    DriesUp (startEntry c s) s (.hdrTrunc (if k < 5 then 2 else 3)) (len + 8 * p.mapEndBytes.length + k) := by
  obtain ⟨hp, rfl, rfl, -, ha⟩ := h
  obtain ⟨hone, hmax, -⟩ := mapEndBytes_of_legal hl
  obtain ⟨t, htp, hsym, hbits, hstop, hrun⟩ := parse_symbol _ c hp hL hone hfits hmax (symBytesMax_of_legal hl) ha
  rw [← htp.params_eq] at hl hfull hsym
  rw [afterSymbol_mapEnd c hl hsym hfull] at hrun
  exact (tail_dry c (htp.pend_eq.trans hp) hn ht hk hbits).after htp hstop hrun

/-- Settles O39: the entries before by `parse_entries`, the cut tail by `tail_dry`. -/
theorem hentReportsTailTruncation : Obligations.HentReportsTailTruncation := by
  intro i s xs c cut tail hi h hd hl hfull h1 h2 hx hfits hc htail hle hcut ha
  obtain ⟨k, rfl⟩ := Nat.exists_eq_add_of_le hle
  have hsymLen : (bitsOf s.cfgL.toNat s.params.mapEndBytes.length ++ bytesBits s.params.mapEndBytes).length =
      s.cfgL.toNat + 8 * s.params.mapEndBytes.length := by rw [List.length_append, length_bitsOf, length_bytesBits]
  rw [mapEndBits_fullEntry hfull] at ha hcut
  rw [List.length_append, hsymLen, List.length_append, length_bitsOf, htail, Nat.add_lt_add_iff_left] at hcut
  rw [← hsymLen, List.take_length_add_append, List.append_assoc] at ha
  simp only [Nat.add_lt_add_iff_left]
  refine HeaderRuns.exec_dry ⟨hi, h, hd, symBytesMax_of_legal hl, h1, h2, hx⟩ ha ?_ fun t ht =>
    ht.mapEnd_dry i hl hfull h2 hfits hc htail hcut
  rw [← List.append_assoc, List.length_append, hsymLen, List.length_take_of_le (by simp; omega)]

/-! ### O37: entries the checks reject -/

/-- The entry at which command `c` stands in `s` is rejected with cause `k`, `n` bits on and with `rest` not read. -/
def EntryFails (c : Instr) (s : State) (k : Cause) (n : Nat) (rest : List Bool) : Prop :=
  ∃ t, Parsed s n t ∧ t.availBits = rest ∧ Runs (startEntry c s) (raise k t)

/-- A header command whose entry after `xs` is rejected (R285). -/
theorem HeaderRuns.exec_fails {i : Instr} {s : State} {xs : List MapEntry} {bits rest : List Bool} {k : Cause} {n : Nat}
    (h : HeaderRuns i s xs) (ha : s.availBits = xs.flatMap (entryBits s.cfgL.toNat) ++ bits)
    (hfails : ∀ t, AtEntry s.params s.cfgL.toNat (s.map ++ xs) bits t → EntryFails i t k n rest) :
    headerFails i s xs k ((xs.flatMap (entryBits s.cfgL.toNat)).length + n) rest := by
  obtain ⟨t, ml, ht, hat, -, hrun⟩ := h.reach ha
  obtain ⟨u, hu, hrest, hur⟩ := hfails t hat
  have hall := ht.trans hu
  have hexec := execHeader_runs h.after h.canRun h.hdrOpen h.one_le h.le_32 (hrun.trans hur) rfl
  exact ⟨_, hexec, raise_recordsError k u, hall.brPos_eq, hrest, hall.map_eq, hall.hdrDone_eq.trans h.hdrOpen,
    hall.outStream_eq, hall.srcEnd_eq⟩

section
variable {p : Params} {len : Nat} {m : List MapEntry} {rest : List Bool} {s : State}

/-- Field 1 of an entry (R202). -/
theorem AtEntry.parse_symLen {n : Nat} (c : Instr) (h : AtEntry p len m (bitsOf len n ++ rest) s) (hL : len ≤ 32)
    (hn : n < 2 ^ len) :
    ∃ t v, Parsed s len t ∧ t.params = p ∧ t.availBits = rest ∧ v.toNat = n ∧
      Runs (startEntry c s) (symLenReturn c len len v t) := by
  obtain ⟨hp, rfl, rfl, -, ha⟩ := h
  obtain ⟨t, v, ht, -, -, hrest, -, hv, hrun⟩ := read_field s.cfgL.toNat _ c .symLen hp (length_bitsOf _ _) hL ha
  exact ⟨t, v, ht, ht.params_eq, hrest, hv.trans (bitsVal_bitsOf_of_lt hn), hrun⟩

/-- A SYMLEN of 0 (R203). -/
theorem AtEntry.fails_zeroLen (c : Instr) (h : AtEntry p len m (bitsOf len 0 ++ rest) s) (hL : len ≤ 32) :
    EntryFails c s .hdrZeroLen len rest := by
  obtain ⟨t, v, ht, -, hrest, hv, hrun⟩ := h.parse_symLen c hL (Nat.two_pow_pos _)
  rw [symLenReturn, if_neg (Nat.lt_irrefl _), if_pos hv] at hrun
  exact ⟨t, ht, hrest, hrun⟩

/-- A SYMLEN above SYM_BYTES_MAX (R203). -/
theorem AtEntry.fails_symTooLong {n : Nat} (c : Instr) (h : AtEntry p len m (bitsOf len n ++ rest) s) (hL : len ≤ 32)
    (hn : n < 2 ^ len) (hmax : p.symBytesMax < n) : EntryFails c s .hdrSymTooLong len rest := by
  obtain ⟨t, v, ht, hpar, hrest, hv, hrun⟩ := h.parse_symLen c hL hn
  rw [symLenReturn, if_neg (Nat.lt_irrefl _), if_neg (by omega), if_pos (by rw [hpar, hv]; exact hmax)] at hrun
  exact ⟨t, ht, hrest, hrun⟩

/-- Fields 1 and 2 of an entry (R202). -/
theorem AtEntry.parse_symbol {sym : List Byte} (c : Instr)
    (h : AtEntry p len m (bitsOf len sym.length ++ bytesBits sym ++ rest) s) (hL : len ≤ 32) (hm : p.symBytesMax ≤ 65535)
    (h1 : 1 ≤ sym.length) (h2 : sym.length < 2 ^ len) (h3 : sym.length ≤ p.symBytesMax) :
    ∃ t, Parsed s (len + 8 * sym.length) t ∧ t.params = p ∧ parsedSym t = sym ∧ t.availBits = rest ∧
      Runs (startEntry c s) (afterSymbol c t) := by
  obtain ⟨hp, rfl, rfl, -, ha⟩ := h
  rw [List.append_assoc] at ha
  obtain ⟨t, ht, hsym, hrest, -, hrun⟩ := Machine.parse_symbol sym c hp hL h1 h2 h3 hm ha
  exact ⟨t, ht, ht.params_eq, hsym, hrest, hrun⟩

/-- A symbol that is ill-formed UTF-8, where that is checked (R203). -/
theorem AtEntry.fails_badUtf8 {sym : List Byte} (c : Instr)
    (h : AtEntry p len m (bitsOf len sym.length ++ bytesBits sym ++ rest) s) (hL : len ≤ 32) (hm : p.symBytesMax ≤ 65535)
    (h1 : 1 ≤ sym.length) (h2 : sym.length < 2 ^ len) (h3 : sym.length ≤ p.symBytesMax) (hcheck : p.checkUtf8 = true)
    (hbad : wellFormedUtf8 sym = false) : EntryFails c s .hdrBadUtf8 (len + 8 * sym.length) rest := by
  obtain ⟨t, ht, hpar, hsym, hrest, hrun⟩ := h.parse_symbol c hL hm h1 h2 h3
  rw [afterSymbol, if_pos (by simp [hpar, hsym, hcheck, hbad])] at hrun
  exact ⟨t, ht, hrest, hrun⟩

/-- A CLEN of 0, after a symbol that passes its checks (R205). -/
theorem AtEntry.fails_zeroClen {sym : List Byte} (c : Instr)
    (h : AtEntry p len m (bitsOf len sym.length ++ bytesBits sym ++ (bitsOf 5 0 ++ rest)) s) (hL : len ≤ 32)
    (hm : p.symBytesMax ≤ 65535) (h1 : 1 ≤ sym.length) (h2 : sym.length < 2 ^ len) (h3 : sym.length ≤ p.symBytesMax)
    (hne : sym ≠ p.mapEndBytes) (hutf : p.checkUtf8 = true → wellFormedUtf8 sym = true) :
    EntryFails c s .hdrZeroClen (len + 8 * sym.length + 5) rest := by
  obtain ⟨t, ht, hpar, hsym, hbits, hrun⟩ := h.parse_symbol c hL hm h1 h2 h3
  rw [afterSymbol, hpar, hsym, if_neg (by simpa using hutf), if_neg hne] at hrun
  obtain ⟨u, v, hu, -, -, hrest, -, hv, hur⟩ :=
    read_field 5 _ c .clen (ht.pend_eq.trans h.pend) (length_bitsOf _ _) (by omega) hbits
  rw [bitsVal_bitsOf_of_lt (Nat.two_pow_pos 5)] at hv
  rw [readReturn, clenReturn, if_neg (Nat.lt_irrefl _), if_pos hv] at hur
  exact ⟨u, ht.trans hu, hrest, hrun.trans hur⟩

/-- An entry up to its code (R202). -/
theorem AtEntry.parse_code (x : MapEntry) (c : Instr) (h : AtEntry p len m (entryBits len x ++ rest) s) (hL : len ≤ 32)
    (hm : p.symBytesMax ≤ 65535) (hx : entryFits p len x) :
    ∃ t, Parsed s (entryBits len x).length t ∧ t.params = p ∧ t.map = m ∧ t.availBits = rest ∧
      Runs (startEntry c s) (codeReturn c x.clen.toNat x.clen.toNat (x.code.setWidth 32) t) := by
  obtain ⟨hp, rfl, rfl, rfl, ha⟩ := h
  obtain ⟨t, v, ht, -, hrest, -, rfl, hrun⟩ := parse_clen x c hp hL hm hx ha
  rw [length_entryBits]
  exact ⟨t, ht, ht.params_eq, ht.map_eq, hrest, hrun⟩

/-- A code the map has already (R206). -/
theorem AtEntry.fails_dupCode {x : MapEntry} (c : Instr) (h : AtEntry p len m (entryBits len x ++ rest) s) (hL : len ≤ 32)
    (hm : p.symBytesMax ≤ 65535) (hx : entryFits p len x) (hdup : matchCode m x.clen.toNat (x.code.setWidth 32) ≠ none) :
    EntryFails c s .hdrDupCode (entryBits len x).length rest := by
  obtain ⟨t, ht, -, hmap, hrest, hrun⟩ := h.parse_code x c hL hm hx
  rw [codeReturn, if_neg (Nat.lt_irrefl _), hmap, if_pos (Option.isSome_iff_ne_none.2 hdup)] at hrun
  exact ⟨t, ht, hrest, hrun⟩

/-- A new code, and no room for it (R206, R287). -/
theorem AtEntry.fails_mapFull {x : MapEntry} (c : Instr) (h : AtEntry p len m (entryBits len x ++ rest) s) (hL : len ≤ 32)
    (hm : p.symBytesMax ≤ 65535) (hx : entryFits p len x) (hnew : matchCode m x.clen.toNat (x.code.setWidth 32) = none)
    (hfull : m.length = p.mapEntries) : EntryFails c s .hdrMapFull (entryBits len x).length rest := by
  obtain ⟨t, ht, hpar, hmap, hrest, hrun⟩ := h.parse_code x c hL hm hx
  rw [codeReturn, if_neg (Nat.lt_irrefl _), hmap, hpar, if_neg (by simp [hnew]), if_pos hfull] at hrun
  exact ⟨t, ht, hrest, hrun⟩

end

/-- Settles O37: the entries before by `parse_entries`, and each check by what it raises at the entry. -/
theorem hentRejectsBadEntries : Obligations.HentRejectsBadEntries := by
  intro i s xs rest hi h hd hl h1 h2 hx L before
  have hm := symBytesMax_of_legal hl
  have hrun : HeaderRuns i s xs := ⟨hi, h, hd, hm, h1, h2, hx⟩
  refine ⟨?zeroLen, ?symTooLong, fun sym hs1 hs2 hs3 => ⟨?badUtf8, ?zeroClen⟩,
    fun x hfit ha => ⟨?dupCode, ?mapFull⟩⟩
  case zeroLen => exact fun ha => hrun.exec_fails ha fun t ht => ht.fails_zeroLen i h2
  case symTooLong => exact fun n hmax hn ha => hrun.exec_fails ha fun t ht => ht.fails_symTooLong i h2 hn hmax
  case badUtf8 =>
    intro hcheck hbad ha
    rw [Nat.add_assoc]
    exact hrun.exec_fails ha fun t ht => ht.fails_badUtf8 i h2 hm hs1 hs2 hs3 hcheck hbad
  case zeroClen =>
    intro hne hutf ha
    rw [List.append_assoc _ (bitsOf 5 0)] at ha
    rw [Nat.add_assoc, Nat.add_assoc, ← Nat.add_assoc L]
    exact hrun.exec_fails ha fun t ht => ht.fails_zeroClen i h2 hm hs1 hs2 hs3 hne hutf
  case dupCode => exact fun hdup => hrun.exec_fails ha fun t ht => ht.fails_dupCode i h2 hm hfit hdup
  case mapFull => exact fun hnew hfull => hrun.exec_fails ha fun t ht => ht.fails_mapFull i h2 hm hfit hnew hfull

end Sys2Proof.Machine
end

section
/-! O42 to O46: how BSTEP, BSYM, BODY and DEC decode a body (R230 to R239). Each statement is about a command that gets to a
candidate (`BodyAt`, which `bodyAt_runs` carries through), and about what its next bit does there: it completes a code
(`AtMatch`), makes the candidate too long, is kept, or is missing. -/

namespace Sys2Proof.Machine

section
variable {s t : State} {m : Nat}

theorem Stepped.pend_eq (h : Stepped s m t) : t.pend = s.pend := (congrArg State.pend h :)

theorem Stepped.err_eq (h : Stepped s m t) : t.err = s.err := (congrArg State.err h :)

theorem Stepped.params_eq (h : Stepped s m t) : t.params = s.params := (congrArg State.params h :)

theorem Stepped.map_eq (h : Stepped s m t) : t.map = s.map := (congrArg State.map h :)

theorem Stepped.maxLen_eq (h : Stepped s m t) : t.maxLen = s.maxLen := (congrArg State.maxLen h :)

theorem Stepped.hdrDone_eq (h : Stepped s m t) : t.hdrDone = s.hdrDone := (congrArg State.hdrDone h :)

theorem Stepped.done_eq (h : Stepped s m t) : t.done = s.done := (congrArg State.done h :)

theorem Stepped.srcEnd_eq (h : Stepped s m t) : t.srcEnd = s.srcEnd := (congrArg State.srcEnd h :)

theorem Stepped.outStream_eq (h : Stepped s m t) : t.outStream = s.outStream := (congrArg State.outStream h :)

theorem Stepped.outReady_eq (h : Stepped s m t) : t.outReady = s.outReady := (congrArg State.outReady h :)

theorem Stepped.symCount_eq (h : Stepped s m t) : t.symCount = s.symCount := (congrArg State.symCount h :)

theorem Stepped.lastSymV_eq (h : Stepped s m t) : t.lastSymV = s.lastSymV := (congrArg State.lastSymV h :)

theorem Stepped.lastSymIdx_eq (h : Stepped s m t) : t.lastSymIdx = s.lastSymIdx := (congrArg State.lastSymIdx h :)

theorem Stepped.brPos_eq (h : Stepped s m t) : t.brPos = s.brPos + BitVec.ofNat 32 m := (congrArg State.brPos h :)

end

theorem length_codeBits (x : MapEntry) : (codeBits x).length = x.clen.toNat := length_bitsOf _ _

theorem length_candBits (s : State) : s.candBits.length = s.candLen.toNat := length_bitsOf _ _

/-! ### O43: the corrupt body -/

/-- The reader's position after one more bit of the body. -/
theorem brPos_add_one {p q w : Word} {n : Nat} (h : p + w = q + BitVec.ofNat 32 n) :
    p + 1 + w = q + BitVec.ofNat 32 (n + 1) := by
  rw [add_right_comm, h, BitVec.ofNat_add, BitVec.add_assoc]
  rfl

/-- Where the command stands after one more bit that matches nothing (R230). -/
theorem bodyStands.snoc {s u v : State} {hdr pre : List Bool} {m ys : List MapEntry} {b : Bool}
    (h : bodyStands s hdr m ys pre u) (hv : Stepped u 1 v) (hbits : v.candBits = pre ++ [b])
    (hlen : v.candLen.toNat = u.candLen.toNat + 1) : bodyStands s hdr m ys (pre ++ [b]) v := by
  obtain ⟨hmap, hhdr, hdone, hout, hcount, -, hpre, hpos⟩ := h
  refine ⟨hv.map_eq.trans hmap, hv.hdrDone_eq.trans hhdr, hv.done_eq.trans hdone, hv.outStream_eq.trans hout,
    hv.symCount_eq.trans hcount, hbits, by simp [hlen, hpre], ?_⟩
  rw [hv.brPos_eq, ← List.append_assoc, ← List.append_assoc, List.length_append, List.append_assoc]
  exact brPos_add_one hpos

/-- A candidate longer than the longest code ends the command (R238). -/
theorem bodyNoMatchYet_overlong {s : State} (c : Instr) (h : s.maxLen.toNat < s.candLen.toNat) :
    bodyNoMatchYet c s = raise (.bodyNoMatch (BitVec.ofNat 8 s.candLen.toNat)) s := by
  rw [bodyNoMatchYet, if_pos h, BitVec.ofNat_toNat]

/-- `runsDry` seen from an earlier state of the command, in which the source gave the same answer in the end. -/
theorem runsDry_of_reached {s u t : State} {k : Cause} (hend : u.srcEnd = s.srcEnd)
    (hstop : readyStop u.srcReady = readyStop s.srcReady) (herr : sameError s u) (h : u.runsDry k t) : s.runsDry k t := by
  unfold State.runsDry State.sourceEnds at *
  rw [hend, hstop] at h
  obtain ⟨hshort, herror, hhold⟩ := h
  refine ⟨hshort, herror, fun h1 h2 => ?_⟩
  obtain ⟨hholds, hpend, e1, e2, e3, e4⟩ := hhold h1 h2
  obtain ⟨f1, f2, f3, f4⟩ := herr
  exact ⟨hholds, hpend, e1.trans f1, e2.trans f2, e3.trans f3, e4.trans f4⟩

/-- A body step that wants a bit where there is none (R230, R163, R164, R88). -/
theorem bodyStep_dry {s : State} (c : Instr) (hp : s.pend = .none) (ha : s.availBits = []) :
    DriesUp (startBodyStep c s) s (.bodyTrunc (BitVec.ofNat 8 s.candLen.toNat)) 0 :=
  read_dry [] c 1 .bodyBit _ hp ha Nat.one_pos fun v t hlen => by
    rw [readReturn, bodyBitReturn, List.length_nil, if_pos rfl, hlen, BitVec.ofNat_toNat]

/-- The bit that makes the candidate longer than every code (R238). -/
theorem bodyAt_overlong {i : Instr} {s : State} {hdr : List Bool} {m ys : List MapEntry} {pre : List Bool} {b : Bool}
    {rest : List Bool} {l : List SinkAnswer} (hI : Inv s) (h : s.canRun) (hB : BodyAt i s hdr m ys pre (b :: rest) l)
    (hlong : pre.length = maxCodeLen m) :
    ∃ v, bodyStands s hdr m ys (pre ++ [b]) v ∧ v.availBits = rest ∧ v.outReady = l ∧ v.srcEnd = s.srcEnd ∧
      exec i s = .next (raise (.bodyNoMatch (BitVec.ofNat 8 (maxCodeLen m + 1))) v) := by
  obtain ⟨u, hu, huav, hul, huend, -, -, hup, -, humax, hum, huc, hexec⟩ := bodyAt_runs hI h hB hlong.le
  have ⟨humap, _, _, _, _, hubits, hulen, _⟩ := hu
  have hno : ∀ x ∈ u.map, codeBits x ≠ u.candBits ++ [b] := by
    intro x hx hcode
    have hshort := le_maxCodeLen (humap ▸ hx)
    have hlen := congrArg List.length hcode
    rw [length_codeBits, hubits, List.length_append, List.length_singleton] at hlen
    omega
  obtain ⟨v, hv, hvav, -, hvbits, hvlen, -, hrun⟩ := bodyStep_noMatch i hup hum huc hno huav
  have hvn : v.candLen.toNat = maxCodeLen m + 1 := by omega
  rw [bodyNoMatchYet_overlong i (by rw [hv.maxLen_eq]; omega), hvn] at hrun
  exact ⟨v, hu.snoc hv (by rw [hvbits, hubits]) hvlen, hvav, hv.outReady_eq.trans hul, hv.srcEnd_eq.trans huend,
    hexec _ hrun rfl⟩

/-- Settles O43: `bodyAt_runs` up to the candidate, then the bit that is too much, or the one that is missing. -/
theorem corruptBodyIsFatal : Obligations.CorruptBodyIsFatal := by
  intro i s hdr m ys pre l hI h
  refine ⟨fun b rest hB hlong => ?noMatch, fun hB hle => ?trunc⟩
  case noMatch =>
    obtain ⟨v, hv, hvav, hvl, hvend, hexec⟩ := bodyAt_overlong hI h hB hlong
    exact ⟨_, hexec, raise_recordsError _ v, rfl, hv, hvav, hvl, hvend⟩
  case trunc =>
    obtain ⟨u, hu, huav, hul, huend, hustop, huerr, hup, -, -, -, -, hexec⟩ := bodyAt_runs hI h hB hle
    obtain ⟨t, hrun, hrest, hdry, ht⟩ := bodyStep_dry i hup huav
    have ⟨_, _, _, _, _, _, hulen, _⟩ := hu
    rw [hulen] at hdry
    obtain ⟨_, _, _, _, _, _, _, _, _, _, _, _, _, _, _, e⟩ := ht.elim
    refine ⟨t, hexec t hrun hrest, runsDry_of_reached huend hustop huerr hdry, ?_, ?_⟩
    · rw [e, BitVec.add_zero]; exact hu
    · rw [e]; exact hul

/-! ### The bit that completes a code -/

/-- Command `i`, begun in `s`, has decoded the symbols `ys` and then matched entry `e` of the map `m`; it stands in `v` and has
yet to act on the match (R230). Up to there are `n` bits, those of the candidate in `s` among them; `rest` and the OUT answers
`l` are left. -/
structure AtMatch (i : Instr) (s : State) (m ys : List MapEntry) (e n : Nat) (rest : List Bool) (l : List SinkAnswer)
    (v : State) : Prop where
  pend : v.pend = .none
  err : v.err = false
  params : v.params = s.params
  hdrDone : v.hdrDone = true
  done : v.done = false
  map : v.map = m
  outStream : v.outStream = s.outStream ++ symBytes ys
  symCount : v.symCount = s.symCount + BitVec.ofNat 32 ys.length
  outReady : v.outReady = l
  availBits : v.availBits = rest
  brPos : v.brPos + s.candLen.setWidth 32 = s.brPos + BitVec.ofNat 32 n
  canRun : s.canRun
  idx : e < 65536
  exec : ∀ t, Runs (bodyMatch i e v) t → t.atRest = true → exec i s = .next t

/-- The command that gets to a candidate one bit short of a code. -/
theorem bodyAt_match {i : Instr} {s : State} {hdr : List Bool} {m ys : List MapEntry} {pre : List Bool} {b : Bool}
    {rest : List Bool} {l : List SinkAnswer} {e : Nat} {x : MapEntry} (hI : Inv s) (h : s.canRun)
    (hB : BodyAt i s hdr m ys pre (b :: rest) l) (hx : m[e]? = some x) (hcode : codeBits x = pre ++ [b]) :
    ∃ v, AtMatch i s m ys e (hdr ++ (bodyBits ys ++ codeBits x)).length rest l v := by
  have hle : pre.length ≤ maxCodeLen m := by
    have hlen := congrArg List.length hcode
    rw [length_codeBits, List.length_append, List.length_singleton] at hlen
    have := le_maxCodeLen (List.mem_of_getElem? hx)
    omega
  obtain ⟨u, ⟨humap, huhdr, hudone, huout, hucount, hubits, -, hupos⟩, huav, hul, -, -, ⟨huerr, -⟩, hup, hupar, -, hum, huc,
    hexec⟩ := bodyAt_runs hI h hB hle
  obtain ⟨v, hv, hvav, -, hrun⟩ := bodyStep_match i hup hum huc (humap ▸ hx) (by rw [hubits, hcode]) huav
  have hidx : e < 65536 :=
    (List.getElem?_eq_some_iff.1 hx).1.trans_le (bodyBegins_length_le hI hB.begins)
  refine ⟨v, {
    pend := hv.pend_eq.trans hup
    err := hv.err_eq.trans (huerr.trans h.2.1)
    params := hv.params_eq.trans hupar
    hdrDone := hv.hdrDone_eq.trans huhdr
    done := hv.done_eq.trans hudone
    map := hv.map_eq.trans humap
    outStream := hv.outStream_eq.trans huout
    symCount := hv.symCount_eq.trans hucount
    outReady := hv.outReady_eq.trans hul
    availBits := hvav
    brPos := ?_
    canRun := h
    idx := hidx
    exec := fun t ht => hexec t (hrun.trans ht) }⟩
  rw [hv.brPos_eq, hcode, ← List.append_assoc, ← List.append_assoc, List.length_append, List.append_assoc]
  exact brPos_add_one hupos

/-- What every command that ends with the match of entry `e` of the map `m` leaves, with `n` and `rest` as in `AtMatch` (R230,
R262). -/
structure EndsWithMatch (i : Instr) (s : State) (m : List MapEntry) (e n : Nat) (rest : List Bool) (t : State) : Prop where
  exec : exec i s = .next t
  completed : t.completed
  hdrDone : t.hdrDone = true
  map : t.map = m
  lastSymV : t.lastSymV = true
  lastSymIdx : t.lastSymIdx.toNat = e
  cand : t.cand = 0
  candLen : t.candLen = 0
  availBits : t.availBits = rest
  brPos : t.brPos + s.candLen.setWidth 32 = s.brPos + BitVec.ofNat 32 n
  frame : ownFrame s t i

theorem toNat_ofNat_idx {e : Nat} (h : e < 65536) : (BitVec.ofNat 16 e).toNat = e :=
  (BitVec.toNat_ofNat _ _).trans (Nat.mod_eq_of_lt h)

theorem ne_reset_of_decodesBody {i : Instr} (h : decodesBody i = true) : i ≠ .reset := by rintro rfl; cases h

/-- Once DONE is set, every command that takes body steps completes after the one it is in (R232 to R236). -/
theorem afterBodyStep_of_done {i : Instr} (hi : decodesBody i = true) {s : State} (hd : s.done = true) :
    afterBodyStep i true s = complete s := by
  rcases decodesBody_cases hi with rfl | rfl | rfl | rfl
  · rfl
  · rfl
  · exact if_pos hd
  · exact if_pos hd

section
variable {i : Instr} {s v : State} {m ys : List MapEntry} {e n : Nat} {rest : List Bool} {l : List SinkAnswer} {x : MapEntry}

/-- The EOF code stops every command that decodes a body (R232). -/
theorem AtMatch.ends_eof (h : AtMatch i s m ys e n rest l v) (hi : decodesBody i = true) (hx : m[e]? = some x)
    (heof : x.sym = s.params.eofBytes) :
    ∃ t, EndsWithMatch i s m e n rest t ∧ t.done = true ∧ t.outStream = s.outStream ++ symBytes ys ∧ t.outReady = l ∧
      t.symCount = s.symCount + BitVec.ofNat 32 ys.length := by
  have hmatch := bodyMatch_eof i (s := v) (h.map ▸ hx) (h.params ▸ heof)
  rw [afterBodyStep_of_done hi rfl] at hmatch
  have hexec := h.exec _ ⟨0, hmatch⟩ rfl
  obtain ⟨-, -, -, hframe⟩ := exec_frame_of_canRun (ne_reset_of_decodesBody hi) h.canRun hexec h.err
  exact ⟨_, ⟨hexec, ⟨rfl, h.err, h.pend, rfl⟩, h.hdrDone, h.map, rfl, toNat_ofNat_idx h.idx, rfl, rfl, h.availBits, h.brPos,
    hframe⟩, rfl, h.outStream, h.outReady, h.symCount⟩

/-- The code of another symbol stops BSTEP and BSYM once its bytes are out (R231, R233, R234). -/
theorem AtMatch.ends_symbol (h : AtMatch i s m [] e n rest s.outReady v) (hi : i = .bstep ∨ i = .bsym)
    (hx : m[e]? = some x) (hne : x.sym ≠ s.params.eofBytes) (hack : s.acksOut x.sym.length l) :
    ∃ t, EndsWithMatch i s m e n rest t ∧ t.done = false ∧ t.outStream = s.outStream ++ x.sym ∧ t.outReady = l ∧
      t.symCount = s.symCount + 1 := by
  obtain ⟨cur, hrun⟩ := bodyMatch_emit i h.pend (h.map ▸ hx) (h.params ▸ hne) (h.outReady.trans hack)
  have hend : ∀ u, afterBodyStep i true u = complete u := by rcases hi with rfl | rfl <;> exact fun _ => rfl
  rw [hend] at hrun
  have hexec := h.exec _ hrun rfl
  have hdec : decodesBody i = true := by rcases hi with rfl | rfl <;> rfl
  obtain ⟨-, -, -, hframe⟩ := exec_frame_of_canRun (ne_reset_of_decodesBody hdec) h.canRun hexec h.err
  have hout : v.outStream = s.outStream := h.outStream.trans (List.append_nil _)
  have hcount : v.symCount = s.symCount := h.symCount.trans (BitVec.add_zero _)
  exact ⟨_, ⟨hexec, ⟨rfl, h.err, h.pend, rfl⟩, h.hdrDone, h.map, rfl, toNat_ofNat_idx h.idx, rfl, rfl, h.availBits, h.brPos,
    hframe⟩, h.done, congrArg (· ++ x.sym) hout, rfl, congrArg (· + 1) hcount⟩

end

/-- The bits of the candidate were taken before. -/
theorem brPos_of_add_candLen {p q : Word} {w : BitVec 6} {n : Nat} (h : p + w.setWidth 32 = q + BitVec.ofNat 32 n)
    (hw : w.toNat ≤ n) : p = q + BitVec.ofNat 32 (n - w.toNat) := by
  have hn : BitVec.ofNat 32 n = BitVec.ofNat 32 (n - w.toNat) + w.setWidth 32 := by
    rw [← BitVec.ofNat_toNat, ← BitVec.ofNat_add, Nat.sub_add_cancel hw]
  rw [hn, ← BitVec.add_assoc] at h
  exact add_right_cancel h

/-! ### O42: BSTEP -/

/-- BSTEP takes its one bit from the candidate that stands (R233). -/
theorem bodyAt_bstep {s : State} {b : Bool} {rest : List Bool} (hd : s.hdrDone = true) (hn : s.done = false)
    (ha : s.availBits = b :: rest) : BodyAt .bstep s [] s.map [] s.candBits (b :: rest) s.outReady where
  begins := .inl ⟨.inl rfl, hd, hn, rfl, rfl⟩
  bits := ⟨s.availBits, rfl, by rw [ha]; rfl⟩
  symbols := by simp
  loops := fun h => absurd rfl h
  turn := trivial
  one := fun _ => length_candBits s
  grows := fun _ => (length_candBits s).ge
  unmatched := fun x _ hpre => ⟨rfl, by simpa [length_codeBits, length_candBits] using hpre.length_le⟩
  acks := rfl

/-- Where BSTEP's bit completes a code. -/
theorem bstep_atMatch {s : State} {b : Bool} {rest : List Bool} {e : Nat} {x : MapEntry} (hI : Inv s) (h : s.canRun)
    (hd : s.hdrDone = true) (hn : s.done = false) (ha : s.availBits = b :: rest) (hx : s.map[e]? = some x)
    (hcode : codeBits x = s.candBits ++ [b]) :
    ∃ v, AtMatch .bstep s s.map [] e (s.candLen.toNat + 1) rest s.outReady v := by
  obtain ⟨v, hv⟩ := bodyAt_match hI h (bodyAt_bstep hd hn ha) hx hcode
  have hlen : ([] ++ (bodyBits [] ++ codeBits x)).length = s.candLen.toNat + 1 := by
    simp [bodyBits, hcode, length_candBits]
  rw [hlen] at hv
  exact ⟨v, hv⟩

/-- One more bit than the candidate's. -/
theorem brPos_of_succ {p q : Word} {w : BitVec 6} (h : p + w.setWidth 32 = q + BitVec.ofNat 32 (w.toNat + 1)) :
    p = q + 1 := by
  rw [brPos_of_add_candLen h (Nat.le_succ _), Nat.add_sub_cancel_left]
  rfl

/-- Settles O42, by whether the bit completes a code, and whose. -/
theorem bstepMatchesOneBit : Obligations.BstepMatchesOneBit := by
  intro s b rest hI h hd hn ha
  refine ⟨fun e x l hx hcode hne hack => ?symbol, fun e x hx hcode heof => ?eof, fun hno hlen => ?kept⟩
  case symbol =>
    obtain ⟨v, hv⟩ := bstep_atMatch hI h hd hn ha hx hcode
    obtain ⟨t, ht, hdone, hout, hl, hcount⟩ := hv.ends_symbol (.inl rfl) hx hne hack
    exact ⟨t, ht.exec, ht.completed, hout, hl, hcount, ht.lastSymV, ht.lastSymIdx, ht.cand, ht.candLen, hdone, ht.availBits,
      brPos_of_succ ht.brPos, ht.frame⟩
  case eof =>
    obtain ⟨v, hv⟩ := bstep_atMatch hI h hd hn ha hx hcode
    obtain ⟨t, ht, hdone, hout, -, hcount⟩ := hv.ends_eof rfl hx heof
    exact ⟨t, ht.exec, ht.completed, hout.trans (List.append_nil _), hcount.trans (BitVec.add_zero _), ht.lastSymV,
      ht.lastSymIdx, ht.cand, ht.candLen, hdone, ht.availBits, brPos_of_succ ht.brPos, ht.frame⟩
  case kept =>
    have ⟨_, herr, hp, _⟩ := h
    obtain ⟨v, hv, hrest, -, hbits, hvlen, -, hrun⟩ := bodyStep_noMatch .bstep hp hI.mapOk (hI.candOk herr) hno ha
    have hshort : ¬v.maxLen.toNat < v.candLen.toNat := by rw [hv.maxLen_eq]; omega
    rw [bodyNoMatchYet, if_neg hshort] at hrun
    have hexec := execBstep_runs h hd hn hrun rfl
    have hve : v.err = false := hv.err_eq.trans herr
    obtain ⟨-, -, -, hframe⟩ := exec_frame_of_canRun (by simp) h hexec hve
    exact ⟨_, hexec, ⟨rfl, hve, hv.pend_eq.trans hp, rfl⟩, hbits, hvlen, hv.outStream_eq, hv.symCount_eq, hv.lastSymV_eq,
      hv.lastSymIdx_eq, hv.done_eq.trans hn, hrest, hv.brPos_eq, hframe⟩

/-! ### O44, O45 and O46: codes matched in turn -/

/-- The last of the entries matched in turn, from the candidate that stands where it is the first (R239). -/
theorem matchedInTurn_snoc {m ys : List MapEntry} {z : MapEntry} {k : Nat} (h : matchedInTurn m k (ys ++ [z])) :
    matchedInTurn m k ys ∧ (ys = [] → k < z.clen.toNat) ∧ 0 < z.clen.toNat ∧
      matchedFirst m (if ys = [] then k else 0) z := by
  induction ys generalizing k with
  | nil =>
    obtain ⟨hk, hfirst, -⟩ := h
    exact ⟨trivial, fun _ => hk, by omega, hfirst⟩
  | cons y ys ih =>
    obtain ⟨hk, hfirst, hturn⟩ := h
    obtain ⟨hys, -, hpos, hz⟩ := ih hturn
    exact ⟨⟨hk, hfirst, hys⟩, by simp, hpos, by simpa using hz⟩

/-- The codes of the map a body command decodes with are not empty (R205). -/
theorem bodyBegins_clen_pos {i : Instr} {s : State} {hdr : List Bool} {m : List MapEntry} (hI : Inv s)
    (h : bodyBegins i s hdr m) : ∀ x ∈ m, 1 ≤ x.clen.toNat := by
  rcases h with ⟨-, -, -, -, rfl⟩ | ⟨-, -, -, -, -, xs, c, tail, -, -, hx, -, rfl⟩
  · exact fun x hx => (hI.mapOk.entries x hx).1
  · exact fun x hxm => ((mapTakes_ok xs hx hI.mapOk.entries hI.codes hI.capacity).1 x hxm).1

/-- No code is matched before the last bit of one that is matched first (R230, R239). -/
theorem matchedFirst_proper_prefix {m : List MapEntry} {k : Nat} {x z : MapEntry} {pre : List Bool} {b : Bool}
    (h : matchedFirst m k z) (hcode : codeBits z = pre ++ [b]) (hx : x ∈ m) (hpre : codeBits x <+: pre) :
    x.clen.toNat ≤ k := by
  by_contra hlt
  have heq := h x hx (by omega) (hcode ▸ hpre.trans (List.prefix_append _ _))
  have hlen := hpre.length_le
  rw [heq, hcode, List.length_append, List.length_singleton] at hlen
  omega

/-- A command whose bits are the codes of entries matched in turn stands, one bit short of the last code, at a candidate that
has matched nothing. -/
theorem bodyAt_of_matchedInTurn {i : Instr} {s : State} {hdr av rest : List Bool} {m ys : List MapEntry} {z : MapEntry}
    {l : List SinkAnswer} (hI : Inv s) (hbegins : bodyBegins i s hdr m) (hi : i ≠ .bstep)
    (hloops : ys ≠ [] → i = .body ∨ i = .dec) (hsymbols : ∀ y ∈ ys, y ∈ m ∧ y.sym ≠ s.params.eofBytes)
    (hturn : matchedInTurn m s.candLen.toNat (ys ++ [z])) (hav : s.availBits = hdr ++ av)
    (hbits : s.candBits ++ av = bodyBits ys ++ codeBits z ++ rest) (hack : s.acksOut (symBytes ys).length l) :
    ∃ pre b, codeBits z = pre ++ [b] ∧ BodyAt i s hdr m ys pre (b :: rest) l := by
  obtain ⟨hys, hgrows, hpos, hfirst⟩ := matchedInTurn_snoc hturn
  have hne : codeBits z ≠ [] := by rw [← List.length_pos_iff, length_codeBits]; exact hpos
  obtain ⟨pre, b, hcode⟩ := (List.eq_nil_or_concat (codeBits z)).resolve_left hne
  rw [List.concat_eq_append] at hcode
  have hlen : z.clen.toNat = pre.length + 1 := by rw [← length_codeBits, hcode, List.length_append]; rfl
  refine ⟨pre, b, hcode, hbegins, ⟨av, hav, ?_⟩, hsymbols, hloops, hys, fun h => absurd h hi, fun h => ?_,
    fun x hx hpre => ?_, hack⟩
  · rw [hbits, hcode]; simp
  · have := hgrows h; omega
  · have hle := matchedFirst_proper_prefix hfirst hcode hx hpre
    have hone := bodyBegins_clen_pos hI hbegins x hx
    by_cases h : ys = []
    · exact ⟨h, by rwa [if_pos h] at hle⟩
    · rw [if_neg h] at hle; omega

/-- Settles O44: BSYM's bits up to the match by `bodyAt_match`, and how it ends by whether the symbol is EOF. -/
theorem bsymDecodesOneSymbol : Obligations.BsymDecodesOneSymbol := by
  intro s e x rest l hI h hd hn hx hlt hfirst hbits hack
  obtain ⟨pre, b, hcode, hB⟩ := bodyAt_of_matchedInTurn (i := .bsym) (ys := []) (l := s.outReady) hI
    (.inl ⟨.inr (.inl rfl), hd, hn, rfl, rfl⟩) (by simp) (fun h => absurd rfl h) (by simp) ⟨hlt, hfirst, trivial⟩ rfl hbits rfl
  obtain ⟨v, hv⟩ := bodyAt_match hI h hB hx hcode
  have hlen : ([] ++ (bodyBits [] ++ codeBits x)).length = x.clen.toNat := length_codeBits x
  rw [hlen] at hv
  by_cases heof : x.sym = s.params.eofBytes
  · obtain ⟨t, ht, hdone, hout, -, hcount⟩ := hv.ends_eof rfl hx heof
    exact ⟨t, ht.exec, ht.completed, ht.lastSymV, ht.lastSymIdx, ht.cand, ht.candLen, ht.availBits,
      brPos_of_add_candLen ht.brPos hlt.le, fun hne => absurd heof hne,
      fun _ => ⟨hout.trans (List.append_nil _), hcount.trans (BitVec.add_zero _), hdone⟩, ht.frame⟩
  · obtain ⟨t, ht, hdone, hout, hl, hcount⟩ := hv.ends_symbol (.inr rfl) hx heof (hack heof)
    exact ⟨t, ht.exec, ht.completed, ht.lastSymV, ht.lastSymIdx, ht.cand, ht.candLen, ht.availBits,
      brPos_of_add_candLen ht.brPos hlt.le, fun _ => ⟨hout, hcount, hdone, hl⟩, fun h => absurd h heof, ht.frame⟩

/-- BODY and DEC on the codes of the symbols `ys` and the EOF code (R235, R236). -/
theorem body_to_eof {i : Instr} {s : State} {hdr av rest : List Bool} {m ys : List MapEntry} {e : Nat} {z : MapEntry}
    {l : List SinkAnswer} (hI : Inv s) (h : s.canRun) (hbegins : bodyBegins i s hdr m) (hi : i = .body ∨ i = .dec)
    (hsymbols : ∀ y ∈ ys, y ∈ m ∧ y.sym ≠ s.params.eofBytes) (hz : m[e]? = some z) (heof : z.sym = s.params.eofBytes)
    (hturn : matchedInTurn m s.candLen.toNat (ys ++ [z])) (hav : s.availBits = hdr ++ av)
    (hbits : s.candBits ++ av = bodyBits ys ++ codeBits z ++ rest) (hack : s.acksOut (symBytes ys).length l) :
    ∃ t, EndsWithMatch i s m e (hdr ++ (bodyBits ys ++ codeBits z)).length rest t ∧ t.runSucceeded ∧
      t.outStream = s.outStream ++ symBytes ys ∧ t.outReady = l ∧ t.symCount = s.symCount + BitVec.ofNat 32 ys.length := by
  have hstep : i ≠ .bstep := by rcases hi with rfl | rfl <;> simp
  have hdec : decodesBody i = true := by rcases hi with rfl | rfl <;> rfl
  obtain ⟨pre, b, hcode, hB⟩ :=
    bodyAt_of_matchedInTurn hI hbegins hstep (fun _ => hi) hsymbols hturn hav hbits hack
  obtain ⟨v, hv⟩ := bodyAt_match hI h hB hz hcode
  obtain ⟨t, ht, hdone, hsent⟩ := hv.ends_eof hdec hz heof
  have ⟨hidle, herr, hp, _⟩ := ht.completed
  exact ⟨t, ht, ⟨hidle, herr, ht.hdrDone, hdone, hp⟩, hsent⟩

/-- Settles O45, by `body_to_eof` from the start of the command. -/
theorem bodyDecodesToEof : Obligations.BodyDecodesToEof := by
  intro s ys e z rest l hI h hd hn hsymbols hz heof hturn hbits hack
  obtain ⟨t, ht, hend, hout, hl, hcount⟩ := body_to_eof hI h (.inl ⟨.inr (.inr rfl), hd, hn, rfl, rfl⟩) (.inl rfl) hsymbols hz
    heof hturn rfl hbits hack
  exact ⟨t, ht.exec, ht.completed, hend, hout, hl, hcount, ht.lastSymV, ht.lastSymIdx, ht.cand, ht.candLen, ht.availBits,
    ht.brPos, ht.frame⟩

/-- Settles O46, by `body_to_eof` after the header; no candidate stands before it (R50). -/
theorem decDecodesTheContainer : Obligations.DecDecodesTheContainer := by
  intro s xs ys e c z tail rest l hI h hd h1 h2 hfits hc htail hx hsymbols hz heof hturn ha hack
  obtain ⟨hlen, hzero, -⟩ := hI.candHeader hd
  have hno : s.candBits = [] := by rw [State.candBits, hlen]; rfl
  rw [← show s.candLen.toNat = 0 from congrArg BitVec.toNat hlen] at hturn
  obtain ⟨t, ht, hend, hout, hl, hcount⟩ := body_to_eof hI h
    (.inr ⟨rfl, hd, h1, h2, hfits, xs, c, tail, hc, htail, hx, rfl, rfl⟩) (.inr rfl) hsymbols hz heof hturn ha
    (by rw [hno]; rfl) hack
  refine ⟨t, ht.exec, ht.completed, hend, ht.map, hout, hl, ?_, ht.lastSymIdx, ht.availBits, ?_, ht.frame⟩
  · rw [hcount, hzero]; exact BitVec.zero_add _
  · have hpos := ht.brPos
    rw [hlen] at hpos
    exact (BitVec.add_zero _).symm.trans hpos

end Sys2Proof.Machine
end

section
/-! O58: a command that nothing interrupts comes to rest within one run, and one that holds goes on from the answer (R88, R261,
log 20). Laws/Resume.lean says what a run does with more answers ready; an answer that comes to a hold is the first operation of
such a run. -/

namespace Sys2Proof.Machine

/-! ### A command comes to rest -/

theorem unitRun_atRest {s : State} (hu : s.unhurried = true) (hw : writesAtMost32 s) : (unitRun s).atRest = true := by
  rw [unitRun_of_unhurried hu]
  exact unitOps_budget_atRest hw

/-- Only WR gets to a position in `WriteBits`, and it begins with a legal count (R123, R182). -/
theorem startOf_writesAtMost32 {i : Instr} (hi : i ≠ .reset) (s : State) : writesAtMost32 (startOf i s) := by
  rcases startOf_cases hi s with e | ⟨k, e⟩ | ⟨p, e, hf⟩
  · rw [e]; exact writesAtMost32_of_idle rfl
  · rw [e]; exact writesAtMost32_of_idle rfl
  · intro c n j hc
    obtain ⟨rfl, rfl⟩ : i = c ∧ p = .write n j := by simpa [e] using hc
    obtain ⟨-, m, rfl⟩ := hf
    simp only [startOf, startWr] at hc
    split at hc
    · rename_i hm
      simp only [goTo_cur, Option.some.injEq, Cur.mk.injEq, Pos.write.injEq, true_and] at hc
      rw [← hc.1]
      simpa [countLegal] using hm
    · simp at hc

theorem startOf_moves {i : Instr} (hi : i ≠ .reset) (s : State) : (startOf i s).moves = s.moves := by
  rcases startOf_cases hi s with e | ⟨k, e⟩ | ⟨p, e, -⟩ <;> rw [e] <;> rfl

/-- A unit at rest is idle, or it holds (R88, R305). -/
theorem idle_or_holds {s : State} (h : s.atRest = true) : s.busy = false ∨ s.holds := by
  cases hb : s.busy with
  | false => exact .inl rfl
  | true => exact .inr ⟨hb, h⟩

/-- A command an idle unit accepts ends or comes to hold in the step that runs it (R261, log 20). -/
theorem exec_ends_or_holds (i : Instr) {s : State} (h : s.canRun) :
    ∃ t, exec i s = .next t ∧ (t.busy = false ∨ t.holds) := by
  obtain ⟨hb, he, -, hu⟩ := h
  by_cases hi : i = .reset
  · subst hi; exact ⟨softReset s, rfl, .inl rfl⟩
  · rw [exec_eq_startCommand hi]
    cases ha : allowed i s.phase with
    | false => exact ⟨_, startCommand_illegalSeq hb he ha, .inl rfl⟩
    | true =>
      exact ⟨_, startCommand_run hb he ha, idle_or_holds
        (unitRun_atRest (unhurried_of_moves (startOf_moves hi s) hu) (startOf_writesAtMost32 hi s))⟩

/-! ### The answer to a hold -/

/-- A command that holds in `t`, begun with more answers ready, ends where the unit runs to from `u`, the state the next of
those answers leads to from `t` (R261). -/
theorem exec_goes_on {i : Instr} {s t u : State} (a : List SrcAnswer) (b d : List SinkAnswer) (h : s.canRun)
    (he : exec i s = .next t) (ht : t.holds) (hu : unitOp (t.alsoReady a b d) = u) :
    exec i (s.alsoReady a b d) = .next (unitRun u) := by
  obtain ⟨hbusy, -⟩ := ht
  obtain ⟨hexec, hcalm, hwrites⟩ := exec_resumes a b d h he hbusy
  have hcalm : (t.alsoReady a b d).unhurried = true := hcalm
  have hwrites : writesAtMost32 (t.alsoReady a b d) := hwrites
  rw [hexec, ← unitRun_unitOp hcalm hwrites, hu]

theorem alsoReady_src (s : State) (a : SrcAnswer) :
    s.alsoReady [a] [] [] = { s with srcReady := s.srcReady ++ [a] } := by simp [State.alsoReady]

theorem alsoReady_out (s : State) (a : SinkAnswer) :
    s.alsoReady [] [a] [] = { s with outReady := s.outReady ++ [a] } := by simp [State.alsoReady]

theorem alsoReady_wout (s : State) (a : SinkAnswer) :
    s.alsoReady [] [] [a] = { s with woutReady := s.woutReady ++ [a] } := by simp [State.alsoReady]

/-- A request that the host has an answer ready for is answered by it (R86, log 2). -/
theorem unitOp_src {s : State} {a : SrcAnswer} {l : List SrcAnswer} (hb : s.busy = true) (hp : s.pend = .src)
    (hl : s.srcReady = a :: l) : unitOp s = answerSrc a { s with srcReady := l } := by
  obtain ⟨c, hc⟩ := Option.isSome_iff_exists.1 hb
  simp only [unitOp, hc, hp, hl]

theorem unitOp_out {s : State} {a : SinkAnswer} {l : List SinkAnswer} {x : Byte} (hb : s.busy = true) (hp : s.pend = .out x)
    (hl : s.outReady = a :: l) : unitOp s = answerOut a x { s with outReady := l } := by
  obtain ⟨c, hc⟩ := Option.isSome_iff_exists.1 hb
  simp only [unitOp, hc, hp, hl]

theorem unitOp_wout {s : State} {a : SinkAnswer} {l : List SinkAnswer} {x : Byte} (hb : s.busy = true)
    (hp : s.pend = .wout x) (hl : s.woutReady = a :: l) : unitOp s = answerWout a x { s with woutReady := l } := by
  obtain ⟨c, hc⟩ := Option.isSome_iff_exists.1 hb
  simp only [unitOp, hc, hp, hl]

/-- A unit that holds on a port has no answer ready there (R88). -/
theorem State.holds.ready_nil {s : State} (h : s.holds) :
    (s.pend = .src → s.srcReady = []) ∧ (∀ x, s.pend = .out x → s.outReady = []) ∧
      ∀ x, s.pend = .wout x → s.woutReady = [] := by
  obtain ⟨hb, hr⟩ := h
  obtain ⟨c, hc⟩ := Option.isSome_iff_exists.1 hb
  refine ⟨fun hp => ?_, fun x hp => ?_, fun x hp => ?_⟩ <;> simpa [State.atRest, hc, hp] using hr

/-- Where a unit holds, an answer that is ready next has the effect of the host's move that gives it (R86, R88). -/
theorem State.holds.unitOp_src {s : State} (h : s.holds) (hp : s.pend = .src) (a : SrcAnswer) :
    unitOp (s.alsoReady [a] [] []) = hostAnswerSrc a s := by
  obtain ⟨hsrc, -, -⟩ := h.ready_nil
  have hnil := hsrc hp
  have hrest : ({ s.alsoReady [a] [] [] with srcReady := [] } : State) = s := by cases s; simp_all [State.alsoReady]
  calc unitOp (s.alsoReady [a] [] []) = answerSrc a { s.alsoReady [a] [] [] with srcReady := [] } :=
        Machine.unitOp_src h.1 hp (by simp [State.alsoReady, hnil])
    _ = answerSrc a s := congrArg _ hrest
    _ = hostAnswerSrc a s := (hostAnswerSrc_of_request hp a).symm

theorem State.holds.unitOp_out {s : State} (h : s.holds) {x : Byte} (hp : s.pend = .out x) (a : SinkAnswer) :
    unitOp (s.alsoReady [] [a] []) = hostAnswerOut a s := by
  obtain ⟨-, hout, -⟩ := h.ready_nil
  have hnil := hout x hp
  have hrest : ({ s.alsoReady [] [a] [] with outReady := [] } : State) = s := by cases s; simp_all [State.alsoReady]
  calc unitOp (s.alsoReady [] [a] []) = answerOut a x { s.alsoReady [] [a] [] with outReady := [] } :=
        Machine.unitOp_out h.1 hp (by simp [State.alsoReady, hnil])
    _ = answerOut a x s := congrArg _ hrest
    _ = hostAnswerOut a s := (hostAnswerOut_of_request hp a).symm

theorem State.holds.unitOp_wout {s : State} (h : s.holds) {x : Byte} (hp : s.pend = .wout x) (a : SinkAnswer) :
    unitOp (s.alsoReady [] [] [a]) = hostAnswerWout a s := by
  obtain ⟨-, -, hwout⟩ := h.ready_nil
  have hnil := hwout x hp
  have hrest : ({ s.alsoReady [] [] [a] with woutReady := [] } : State) = s := by cases s; simp_all [State.alsoReady]
  calc unitOp (s.alsoReady [] [] [a]) = answerWout a x { s.alsoReady [] [] [a] with woutReady := [] } :=
        Machine.unitOp_wout h.1 hp (by simp [State.alsoReady, hnil])
    _ = answerWout a x s := congrArg _ hrest
    _ = hostAnswerWout a s := (hostAnswerWout_of_request hp a).symm

/-- Settles O58: one run within the budget comes to rest, and an answer to a hold is the first operation of the run with that
answer ready. -/
theorem commandsRunToTheirEndOrAHold : Obligations.CommandsRunToTheirEndOrAHold := by
  refine ⟨fun i s h => exec_ends_or_holds i h, fun i s t h he ht => ⟨fun hp a => ?src, fun ⟨x, hp⟩ a => ?out,
    fun ⟨x, hp⟩ a => ?wout⟩, fun s hm hr => ?alone⟩
  case src => exact ⟨_, rfl, alsoReady_src s a ▸ exec_goes_on [a] [] [] h he ht (ht.unitOp_src hp a)⟩
  case out => exact ⟨_, rfl, alsoReady_out s a ▸ exec_goes_on [] [a] [] h he ht (ht.unitOp_out hp a)⟩
  case wout => exact ⟨_, rfl, alsoReady_wout s a ▸ exec_goes_on [] [] [a] h he ht (ht.unitOp_wout hp a)⟩
  case alone => simp [step, hm, stepAlone, hr]

end Sys2Proof.Machine
end

section
/-! O7, O10, O22 and O30: what the CMD write, RESET and NOP do, and which of the host's moves a running command notices (R260
to R264, R290). -/

namespace Sys2Proof.Machine

/-! ### O7: CMD writes while a command runs, and in phase ERROR -/

/-- In phase ERROR every CMD word but RESET's is ignored (R290). -/
theorem cmdWrite_err {s : State} {w : Word} (hb : s.busy = false) (he : s.err = true) (hw : w ≠ 0x10000000) :
    cmdWrite w s = .next s := by
  unfold cmdWrite
  split
  · rename_i i hd
    have hi : i ≠ .reset := by rintro rfl; exact hw (eq_of_decode_reset hd)
    rw [exec_eq_startCommand hi, startCommand_err hb he]
  · simp [illegalWord, hb, he]

theorem cmdWrite_reset (s : State) : cmdWrite 0x10000000 s = .next (softReset s) := rfl

/-- Settles O7, by whether the word is RESET's. -/
theorem busyAndErrorTakeOnlyReset : Obligations.BusyAndErrorTakeOnlyReset := by
  intro w s
  refine ⟨fun hb hw => cmdWrite_busy hb hw, fun hb he hw => cmdWrite_err hb he hw, ?_⟩
  rintro rfl
  exact ⟨softReset s, cmdWrite_reset s, softReset_freshlyReset s⟩

/-! ### O22: NOP -/

/-- A unit at rest does not run; only the timing of the moves could change, and undisturbed it does not (log 1). -/
theorem unitRun_of_atRest {s : State} (hu : s.unhurried = true) (hr : s.atRest = true) : unitRun s = s := by
  rw [unitRun_of_unhurried hu, unitOps_of_atRest hr]

/-- Settles O22: Complete ends the command before the unit runs. -/
theorem nopOnlyCompletes : Obligations.NopOnlyCompletes := by
  intro s h
  have hidle : complete s = { s with intPendCmdc := true } := by rw [complete, ← cur_of_canRun h]
  obtain ⟨hb, he, -, hu⟩ := h
  calc exec .nop s = .next (unitRun (complete s)) := startCommand_run hb he rfl
    _ = .next (complete s) := congrArg _ (unitRun_of_atRest hu rfl)
    _ = .next { s with intPendCmdc := true } := congrArg _ hidle

/-! ### O10: RESET -/

/-- RESET keeps CFG, WDATA, INT_EN and MAP_SEL (R264). -/
theorem regRead_softReset_kept {off : Nat} (h : off = 0x04 ∨ off = 0x0C ∨ off = 0x48 ∨ off = 0x50) (s : State) :
    regRead off (softReset s) = regRead off s := by
  rcases h with rfl | rfl | rfl | rfl <;> simp [regRead, softReset, State.intEnWord]

/-- With the map empty MAP_SEL selects no valid entry (R57). -/
theorem selected_of_map_nil {s : State} (h : s.map = []) : s.selected = none := by simp [State.selected, h]

/-- STATUS reads 0 after a reset (R39). -/
theorem State.freshlyReset.statusWord {s : State} (h : s.freshlyReset) (hirq : s.irq = false) : s.statusWord = 0 := by
  obtain ⟨hcur, hpend, herr, hhdr, hdone, hend, hovr, -⟩ := h
  have hwait : s.waitSrc = false := by simp [State.waitSrc, hpend]
  simp [State.statusWord, State.busy, State.waitOut, State.waitWout, hcur, hpend, hwait, herr, hhdr, hdone, hend, hovr, hirq,
    flagBit]

/-- Every other register is at its reset value after RESET (R32, R264); ID has one value. -/
theorem regRead_softReset_cleared {off : Nat} (h : ¬(off = 0x04 ∨ off = 0x0C ∨ off = 0x48 ∨ off = 0x50)) (s : State) :
    regRead off (softReset s) = if off = 0x00 then idWord else 0 := by
  have hsel : (softReset s).selected = none := selected_of_map_nil rfl
  have hstatus := (softReset_freshlyReset s).statusWord rfl
  simp only [not_or] at h
  obtain ⟨hcfg, hwdata, hen, hmapSel⟩ := h
  simp only [regRead, hcfg, hwdata, hen, hmapSel, mapInfoWord, mapCodeWord, mapSymWord, hsel, hstatus, if_false]
  simp [softReset, State.intPendWord, State.mapCount, field, flagBit]

/-- Settles O10, by the soft reset's registers and its flags. -/
theorem resetCommandResetsTheUnit : Obligations.ResetCommandResetsTheUnit := by
  intro s
  refine ⟨softReset s, rfl, fun off _ _ => ?registers, softReset_freshlyReset s, rfl, rfl, ?host⟩
  case registers =>
    split
    · rename_i h; exact regRead_softReset_kept h s
    · rename_i h; exact regRead_softReset_cleared h s
  case host => exact ⟨rfl, rfl, rfl, rfl, rfl, rfl, rfl, rfl, rfl, rfl⟩

/-! ### O30: the host's moves while a command runs -/

/-- From `s` to `t` nothing changes that a running command reads or writes but the INT_PEND bits (R60, R261). -/
def undisturbed (s t : State) : Prop :=
  t = { s with
    ovr := t.ovr, intEnCmdc := t.intEnCmdc, intEnErri := t.intEnErri, intPendCmdc := t.intPendCmdc,
    intPendErri := t.intPendErri, readData := t.readData, draws := t.draws, srcReady := t.srcReady,
    outReady := t.outReady, woutReady := t.woutReady, rst := t.rst }

theorem undisturbed_busRead (off : Nat) (s : State) : undisturbed s (busRead off s) := by
  rw [busRead_eq]
  rfl

theorem hostRead_undisturbed {s t : State} {addr width : Nat} (ht : hostRead addr width s = .next t) : undisturbed s t := by
  unfold hostRead at ht
  repeat' split at ht
  · cases ht
  · cases ht; exact undisturbed_busRead _ s
  · cases ht

theorem guardedWrite_busy {s : State} (hb : s.busy = true) (t : State) : guardedWrite s t = { s with ovr := true } := by
  simp [guardedWrite, hb]

/-- While a command runs CFG, WDATA and MAP_SEL are not written (R60). -/
theorem regWrite_undisturbed {s : State} (hb : s.busy = true) (off : Nat) (v : Word) : undisturbed s (regWrite off v s) := by
  simp only [regWrite, guardedWrite_busy hb]
  repeat' split
  all_goals rfl

theorem hostWrite_resets_or_undisturbed {s t : State} {addr width : Nat} {v : Word} (hb : s.busy = true)
    (ht : hostWrite addr width v s = .next t) : t.freshlyReset ∨ undisturbed s t := by
  unfold hostWrite at ht
  repeat' split at ht
  · cases ht
  · cases ht; exact .inr rfl
  · by_cases hv : v = 0x10000000
    · subst hv; cases ht; exact .inl (softReset_freshlyReset s)
    · rw [cmdWrite_busy hb hv] at ht; cases ht; exact .inr rfl
  · cases ht; exact .inr (regWrite_undisturbed hb _ v)
  · cases ht

/-- Settles O30, by the kind of move. -/
theorem hostMovesDoNotDisturbTheCommand : Obligations.HostMovesDoNotDisturbTheCommand := by
  intro s e t hb hsrc hout hwout ht
  cases e with
  | read addr width => exact .inr (hostRead_undisturbed ht)
  | write addr width v => exact hostWrite_resets_or_undisturbed hb ht
  | answerSrc a => exact absurd rfl (hsrc a)
  | answerOut a => exact absurd rfl (hout a)
  | answerWout a => exact absurd rfl (hwout a)
  | readySrc l => cases ht; exact .inr rfl
  | readyOut l => cases ht; exact .inr rfl
  | readyWout l => cases ht; exact .inr rfl
  | rst level =>
    cases ht
    cases level with
    | true => exact .inl (softReset_freshlyReset s)
    | false => exact .inr rfl

end Sys2Proof.Machine
end

section
/-! O52: a command the invariant holds of stands at a position of its own, so each of its operations keeps its frame (R261). -/

namespace Sys2Proof.Machine

theorem readsFor_of_callerOk {s : State} {c : Instr} {n : Nat} {r : ReadFor} (h : callerOk s c n r) : readsFor c r := by
  cases r with
  | rd =>
    obtain ⟨hc, -⟩ := h
    exact ⟨_, hc⟩
  | bodyBit =>
    obtain ⟨hc, -⟩ := h
    exact hc
  | _ =>
    obtain ⟨⟨hc, -⟩, -⟩ := h
    exact hc

/-- In the invariant CUR and PEND are at a position of the command, with a request it makes there (R58). -/
theorem requestFits_of_posOk {s : State} {c : Instr} {p : Pos} {q : Pend} (hpos : posOk s c p) (hpend : pendOk s p q) :
    requestFits c p q := by
  cases p with
  | read n k v r =>
    obtain ⟨-, -, hcaller⟩ := hpos
    exact ⟨by cases q <;> simp [pendOk] at hpend ⊢, readsFor_of_callerOk hcaller⟩
  | emit e i =>
    obtain ⟨hdec, -⟩ := hpos
    exact ⟨by cases q <;> simp [pendOk] at hpend ⊢, hdec⟩
  | write n i =>
    obtain ⟨hwr, -⟩ := hpos
    exact ⟨by cases q <;> simp [pendOk] at hpend ⊢, _, hwr⟩
  | flush => exact ⟨by cases q <;> simp [pendOk] at hpend ⊢, hpos⟩

/-- Settles O52, by the frame of one operation. -/
theorem resumedCommandKeepsItsFrame : Obligations.ResumedCommandKeepsItsFrame := by
  intro s c h hc
  obtain ⟨hpos, hpend⟩ := h.position c hc
  obtain ⟨⟨hown, hstatus, hovr, -⟩, -⟩ := unitOp_keepsFrame hc (requestFits_of_posOk hpos hpend) (h.err_of_cur hc)
  exact ⟨hown, hstatus, hovr⟩

end Sys2Proof.Machine
end

section
/-! O8: the sequencing table (R265). A command out of phase is refused before it begins; one in phase runs, and no operation of
the unit raises ILLEGAL_SEQ. -/

namespace Sys2Proof.Machine

/-! ### The table -/

/-- The commands of the sequencing table that the phase does not allow (R265). -/
def outOfPhase (i : Instr) (s : State) : Prop :=
  (i = .hent ∨ i = .hdr ∨ i = .dec) ∧ s.hdrDone = true ∨
    (i = .bstep ∨ i = .bsym ∨ i = .body) ∧ (s.hdrDone = false ∨ s.done = true)

theorem phase_eq_header_iff {s : State} (he : s.err = false) : s.phase = .header ↔ s.hdrDone = false :=
  ⟨phase_eq_header, fun hd => by simp [State.phase, he, hd]⟩

theorem phase_eq_body_iff {s : State} (he : s.err = false) : s.phase = .body ↔ s.hdrDone = true ∧ s.done = false :=
  ⟨phase_eq_body, fun ⟨hd, hn⟩ => by simp [State.phase, he, hd, hn]⟩

theorem allowed_eq_false_iff {i : Instr} {s : State} (he : s.err = false) :
    allowed i s.phase = false ↔ outOfPhase i s := by
  have header : (s.phase == .header) = false ↔ s.hdrDone = true := by simp [phase_eq_header_iff he]
  have body : (s.phase == .body) = false ↔ s.hdrDone = false ∨ s.done = true := by
    simp [phase_eq_body_iff he, ← Bool.not_eq_true, imp_iff_not_or]
  cases i <;> simp [allowed, outOfPhase, header, body]

/-! ### No operation raises ILLEGAL_SEQ -/

/-- No error is recorded, or one that is not ILLEGAL_SEQ (R281). -/
def State.inSequence (s : State) : Prop := s.err = true → s.errCause ≠ 12

theorem raise_inSequence {c : Cause} (hc : c.code ≠ 12) (s : State) : (raise c s).inSequence := fun _ => hc

theorem afterBodyStep_inSequence (c : Instr) (m : Bool) {s : State} (h : s.inSequence) :
    (afterBodyStep c m s).inSequence := by
  rcases afterBodyStep_cases c m s with e | ⟨d, e⟩ <;> rw [e] <;> exact h

theorem afterEntry_inSequence (c : Instr) {s : State} (h : s.inSequence) : (afterEntry c s).inSequence := by
  rcases afterEntry_cases c s with e | ⟨d, e⟩ | ⟨-, d, e⟩ <;> rw [e] <;> exact h

theorem afterSymbol_inSequence (c : Instr) {s : State} (h : s.inSequence) : (afterSymbol c s).inSequence := by
  unfold afterSymbol
  repeat' split
  · exact raise_inSequence (by decide) s
  · exact h
  · exact afterEntry_inSequence c h
  · exact h

theorem bodyBitReturn_inSequence (c : Instr) (k : Nat) (v : Word) {s : State} (h : s.inSequence) :
    (bodyBitReturn c k v s).inSequence := by
  unfold bodyBitReturn
  split
  · exact raise_inSequence (by simp [Cause.code]) s
  · simp only [bodyMatch, bodyNoMatchYet]
    repeat' split
    · exact afterBodyStep_inSequence c true h
    · exact h
    · exact raise_inSequence (by simp [Cause.code]) _
    · exact afterBodyStep_inSequence c false h

theorem readReturn_inSequence (c : Instr) (r : ReadFor) (n k : Nat) (v : Word) {s : State} (h : s.inSequence) :
    (readReturn c r n k v s).inSequence := by
  have fails (x : Cause) (hx : x.code ≠ 12) : (raise x s).inSequence := raise_inSequence hx s
  cases r with
  | rd => exact h
  | symLen =>
    simp only [readReturn, symLenReturn]
    repeat' split
    · exact fails (.hdrTrunc 0) (by decide)
    · exact fails .hdrZeroLen (by decide)
    · exact fails .hdrSymTooLong (by decide)
    · exact h
  | symByte m i =>
    simp only [readReturn, symByteReturn]
    repeat' split
    · exact fails (.hdrTrunc 1) (by decide)
    · exact h
    · exact afterSymbol_inSequence c h
  | tailLen =>
    simp only [readReturn, tailLenReturn]
    split
    · exact fails (.hdrTrunc 2) (by decide)
    · exact h
  | tailCode =>
    simp only [readReturn, tailCodeReturn]
    split
    · exact fails (.hdrTrunc 3) (by decide)
    · exact afterEntry_inSequence c h
  | clen =>
    simp only [readReturn, clenReturn]
    repeat' split
    · exact fails (.hdrTrunc 2) (by decide)
    · exact fails .hdrZeroClen (by decide)
    · exact h
  | code =>
    simp only [readReturn, codeReturn]
    repeat' split
    · exact fails (.hdrTrunc 3) (by decide)
    · exact fails .hdrDupCode (by decide)
    · exact fails .hdrMapFull (by decide)
    · exact afterEntry_inSequence c h
  | bodyBit => exact bodyBitReturn_inSequence c k v h

theorem posOp_inSequence (c : Instr) (p : Pos) {s : State} (h : s.inSequence) : (posOp c p s).inSequence := by
  cases p with
  | read n k v r =>
    simp only [posOp, readOp]
    repeat' split
    · exact readReturn_inSequence c r n k v h
    · exact h
    · exact h
    · exact readReturn_inSequence c r n k v h
  | emit e i =>
    simp only [posOp, emitOp]
    split
    · exact h
    · exact afterBodyStep_inSequence c true h
  | write n i =>
    simp only [posOp, writeOp]
    repeat' split
    all_goals exact h
  | flush =>
    simp only [posOp, flushOp]
    split <;> exact h

theorem answerSrc_inSequence (a : SrcAnswer) {s : State} (h : s.inSequence) : (answerSrc a s).inSequence := by
  cases a with
  | error => exact raise_inSequence (c := .ioError 0) (by decide) s
  | _ => exact h

theorem answerOut_inSequence (a : SinkAnswer) (b : Byte) {s : State} (h : s.inSequence) : (answerOut a b s).inSequence := by
  cases a with
  | ack => exact h
  | error => exact raise_inSequence (c := .ioError 1) (by decide) s

theorem answerWout_inSequence (a : SinkAnswer) (b : Byte) {s : State} (h : s.inSequence) :
    (answerWout a b s).inSequence := by
  cases a with
  | ack => exact h
  | error => exact raise_inSequence (c := .ioError 2) (by decide) _

/-- No operation of the unit raises ILLEGAL_SEQ (R265). -/
theorem unitOp_inSequence {s : State} (h : s.inSequence) : (unitOp s).inSequence := by
  unfold unitOp
  split
  · exact h
  · split
    · exact posOp_inSequence _ _ h
    · split
      · exact h
      · exact answerSrc_inSequence _ h
    · split
      · exact h
      · exact answerOut_inSequence _ _ h
    · split
      · exact h
      · exact answerWout_inSequence _ _ h

theorem unitRun_inSequence {s : State} (h : s.inSequence) : (unitRun s).inSequence := by
  obtain ⟨l, -, e⟩ := markDue_moves s
  rw [unitRun, e]
  exact unitOps_keeps (P := State.inSequence) (fun _ => unitOp_inSequence) _ h

/-- The checks a command begins with raise other errors (R123, R201). -/
theorem startOf_inSequence (i : Instr) {s : State} (he : s.err = false) : (startOf i s).inSequence := by
  have h : s.inSequence := fun e => absurd e (by simp [he])
  have header (c : Instr) : (startHeader c s).inSequence := by
    unfold startHeader
    split
    · exact raise_inSequence (by decide) s
    · exact h
  cases i with
  | nop => exact h
  | reset => exact fun e => absurd e (by simp [startOf, softReset])
  | rd n =>
    simp only [startOf, startRd]
    split
    · exact h
    · exact raise_inSequence (by simp [Cause.code]) s
  | wr n =>
    simp only [startOf, startWr]
    split
    · exact h
    · exact raise_inSequence (by simp [Cause.code]) s
  | flush => exact h
  | hent => exact header .hent
  | hdr => exact header .hdr
  | bstep => exact h
  | bsym => exact h
  | body =>
    simp only [startOf, bodyLoop]
    split <;> exact h
  | dec => exact header .dec

/-! ### O8 -/

theorem ne_reset_of_outOfPhase {i : Instr} {s : State} (h : outOfPhase i s) : i ≠ .reset := by
  rintro rfl
  simp [outOfPhase] at h

/-- A command out of phase is ended by ILLEGAL_SEQ in the move that accepts it (R265, log 28). -/
theorem exec_outOfPhase {i : Instr} {s : State} (hb : s.busy = false) (he : s.err = false) (h : outOfPhase i s) :
    exec i s = .next (raise (.illegalSeq (i.opcode.setWidth 8)) s) := by
  rw [exec_eq_startCommand (ne_reset_of_outOfPhase h), startCommand_illegalSeq hb he ((allowed_eq_false_iff he).2 h)]

theorem exec_inSequence {i : Instr} {s t : State} (hb : s.busy = false) (he : s.err = false) (h : ¬outOfPhase i s)
    (ht : exec i s = .next t) : t.inSequence := by
  by_cases hi : i = .reset
  · subst hi; cases ht; exact startOf_inSequence .reset he
  · have ha : allowed i s.phase = true := by simpa using mt (allowed_eq_false_iff he).1 h
    rw [exec_eq_startCommand hi, startCommand_run hb he ha] at ht
    cases ht
    exact unitRun_inSequence (startOf_inSequence i he)

/-- Settles O8: error entry leaves alone what NOP, which owns nothing, leaves alone; and a command in phase runs operations
that raise other errors. -/
theorem phaseTableIsEnforced : Obligations.PhaseTableIsEnforced := by
  intro i s hb he _
  refine ⟨fun h => ?refused, fun h t ht ⟨herr, hcause⟩ => exec_inSequence hb he h ht herr hcause⟩
  obtain ⟨⟨hown, -, hovr, -⟩, -⟩ := raise_keepsFrame .nop (by decide) (.illegalSeq (i.opcode.setWidth 8)) s
  obtain ⟨hreader, hwriter, hresult, hmap, hsym, hbody, hhost, -⟩ := hown
  exact ⟨_, exec_outOfPhase hb he h, raise_recordsError _ s, rfl, hreader, hwriter, hresult, hmap, hsym, hbody, hhost, hovr⟩

end Sys2Proof.Machine
end

section
/-! O9 and O56: error entry records its cause (R281, R284), and phase ERROR keeps it until a reset (R290, R291). -/

namespace Sys2Proof.Machine

/-! ### O9: error entry -/

/-- ERR_CAUSE as the host reads it: INFO above CAUSE (R40). -/
theorem toNat_regRead_errCause (s : State) : (regRead 0x14 s).toNat = s.errInfo.toNat * 256 + s.errCause.toNat :=
  toNat_two_fields (by omega) (by omega) s.errInfo s.errCause

/-- Settles O9: the frame is that of NOP, which owns nothing, and the causes are numbered one by one (R281). -/
theorem errorEntryRecordsTheError : Obligations.ErrorEntryRecordsTheError := by
  intro c s
  obtain ⟨⟨hown, -, hovr, -⟩, -⟩ := raise_keepsFrame .nop (by decide) c s
  obtain ⟨hreader, hwriter, hresult, hmap, hsym, hbody, hhost, hdraws⟩ := hown
  refine ⟨raise_recordsError c s, rfl, rfl, (toNat_regRead_errCause (raise c s)).trans ?number, rfl, hreader, hwriter, hresult,
    hmap, hsym, hbody, hhost, hovr, hdraws⟩
  case number =>
    simp only [raise_errInfo, raise_errCause]
    cases c <;> rfl

/-! ### O56: phase ERROR -/

/-- From `s` to `t` the recorded error stays, no command begins or ends, and neither the reader, the map nor the output moves
(R290, R291). -/
def keepsError (s t : State) : Prop :=
  sameError s t ∧ t.busy = s.busy ∧ t.brPos = s.brPos ∧ t.map = s.map ∧ t.outStream = s.outStream

theorem keepsError.refl (s : State) : keepsError s s := ⟨⟨rfl, rfl, rfl, rfl⟩, rfl, rfl, rfl, rfl⟩

/-- An idle unit performs no operation (R305). -/
theorem unitRun_keepsError {s : State} (hc : s.cur = none) : keepsError s (unitRun s) := by
  obtain ⟨l, -, e⟩ := markDue_moves s
  have hrest : (markDue s).atRest = true := by simp [e, State.atRest, hc]
  rw [unitRun, unitOps_of_atRest hrest, e]
  exact .refl s

theorem cmdWrite_resets_or_keepsError {w : Word} {s t : State} (hb : s.busy = false) (he : s.err = true)
    (ht : cmdWrite w s = .next t) : t.freshlyReset ∨ keepsError s t := by
  by_cases hw : w = 0x10000000
  · rw [hw, cmdWrite_reset] at ht
    cases ht
    exact .inl (softReset_freshlyReset s)
  · rw [cmdWrite_err hb he hw] at ht
    cases ht
    exact .inr (.refl s)

/-- No register but CMD reaches the error, the reader, the map or the output (R32). -/
theorem regWrite_keepsError (off : Nat) (v : Word) (s : State) : keepsError s (regWrite off v s) := by
  unfold regWrite guardedWrite
  repeat' split
  all_goals exact .refl s

/-- In phase ERROR no request is outstanding, so an answer has no effect (log 16). -/
theorem MoveResult.resets_or_keepsError {s t : State} (h : Inv s) (he : s.err = true) (ht : MoveResult s t) :
    t.freshlyReset ∨ keepsError s t := by
  obtain ⟨hc, -⟩ := h.anError he
  have hp : s.pend = .none := h.idle hc
  cases ht with
  | read off => rw [busRead_eq]; exact .inr (.refl s)
  | ignored => exact .inr (.refl s)
  | command w hr ht => exact cmdWrite_resets_or_keepsError (by simp [State.busy, hc]) he ht
  | register off v => exact .inr (regWrite_keepsError off v s)
  | src a => simp only [hostAnswerSrc, hp]; exact .inr (.refl s)
  | out a => simp only [hostAnswerOut, hp]; exact .inr (.refl s)
  | wout a => simp only [hostAnswerWout, hp]; exact .inr (.refl s)
  | ready a b d => exact .inr (.refl s)
  | rst level =>
    cases level with
    | true => exact .inl (softReset_freshlyReset s)
    | false => exact .inr (.refl s)

theorem step_resets_or_keepsError {s t : State} (h : Inv s) (he : s.err = true) (ht : step s = .next t) :
    t.freshlyReset ∨ keepsError s t := by
  rcases step_cases ht with rfl | rfl | ⟨m, l, -, hm⟩
  · exact .inr (.refl _)
  · exact .inr (unitRun_keepsError (h.anError he).1)
  · have hkeeps := hm.resets_or_keepsError (h.withMoves l) he
    exact hkeeps

/-- Settles O56: in phase ERROR the unit is idle, and of the host's moves only a reset reaches what the error recorded. -/
theorem firstErrorIsKept : Obligations.FirstErrorIsKept := by
  intro s t h he ht
  refine (step_resets_or_keepsError h he ht).imp_right ?_
  rintro ⟨⟨herr, hcause, hinfo, hpos⟩, hbusy, hreader, hmap, hout⟩
  have hidle : s.busy = false := by simp [State.busy, (h.anError he).1]
  exact ⟨herr.trans he, hcause, hinfo, hpos, hbusy.trans hidle, hreader, hmap, hout⟩

end Sys2Proof.Machine
end

section
/-! O11, O12, O13 and O53: the streams a RESET ends, the rst input, and the machine right after reset (R320 to R324). A hardware
reset is RESET's, after CFG, WDATA, INT_EN and MAP_SEL have gone to 0, so its registers are those of `softReset`. -/

namespace Sys2Proof.Machine

/-! ### O11: the streams a RESET ends -/

/-- An offer a reset withdraws may or may not have been taken (R324, U6). -/
theorem outTaken_cases (s : State) : outTaken s = s.outStream ∨ ∃ b, s.pend = .out b ∧ outTaken s = s.outStream ++ [b] := by
  cases hp : s.pend with
  | out b =>
    cases ht : Config.freeTaken s.draws with
    | true => exact .inr ⟨b, rfl, by simp [outTaken, hp, ht]⟩
    | false => exact .inl (by simp [outTaken, hp, ht])
  | none | src | wout _ => exact .inl (by simp [outTaken, hp])

theorem woutTaken_cases (s : State) :
    woutTaken s = s.woutStream ∨ ∃ b, s.pend = .wout b ∧ woutTaken s = s.woutStream ++ [b] := by
  cases hp : s.pend with
  | wout b =>
    cases ht : Config.freeTaken s.draws with
    | true => exact .inr ⟨b, rfl, by simp [woutTaken, hp, ht]⟩
    | false => exact .inl (by simp [woutTaken, hp, ht])
  | none | src | out _ => exact .inl (by simp [woutTaken, hp])

theorem softReset_outEnded (s : State) : (softReset s).outEnded = s.outEnded ++ outTaken s := rfl

theorem softReset_woutEnded (s : State) : (softReset s).woutEnded = s.woutEnded ++ woutTaken s := rfl

/-- Settles O11: the record of the ended run grows by the bytes taken, with or without the offer withdrawn. -/
theorem resetRestartsTheStreams : Obligations.ResetRestartsTheStreams := by
  intro s
  refine ⟨softReset s, rfl, rfl, rfl, rfl, rfl, ?out, ?wout⟩
  case out =>
    rw [softReset_outEnded]
    obtain h | ⟨b, hb, h⟩ := outTaken_cases s <;> rw [h]
    · exact .inl rfl
    · exact .inr ⟨b, hb, (List.append_assoc ..).symm⟩
  case wout =>
    rw [softReset_woutEnded]
    obtain h | ⟨b, hb, h⟩ := woutTaken_cases s <;> rw [h]
    · exact .inl rfl
    · exact .inr ⟨b, hb, (List.append_assoc ..).symm⟩

/-! ### The registers after a hardware reset -/

/-- The registers RESET keeps, at 0: what a hardware reset adds to it (R320). -/
def clearKept (s : State) : State :=
  { s with cfgL := 0, wdata := 0, intEnCmdc := false, intEnErri := false, mapSelIdx := 0, mapSelOff := 0 }

theorem hardReset_eq_softReset (s : State) : hardReset s = softReset (clearKept s) := rfl

theorem hardReset_freshlyReset (s : State) : (hardReset s).freshlyReset := softReset_freshlyReset (clearKept s)

theorem regRead_clearKept {off : Nat} (h : off = 0x04 ∨ off = 0x0C ∨ off = 0x48 ∨ off = 0x50) (s : State) :
    regRead off (clearKept s) = 0 := by
  rcases h with rfl | rfl | rfl | rfl <;> simp [regRead, clearKept, State.intEnWord, field, flagBit]

/-- Every register is at its reset value (R32, R320). -/
theorem regRead_hardReset (off : Nat) (s : State) : regRead off (hardReset s) = resetRead off := by
  rw [hardReset_eq_softReset]
  by_cases h : off = 0x04 ∨ off = 0x0C ∨ off = 0x48 ∨ off = 0x50
  · have h0 : off ≠ 0 := by omega
    rw [regRead_softReset_kept h, regRead_clearKept h, resetRead, if_neg h0]
  · exact regRead_softReset_cleared h (clearKept s)

/-- Neither the level of rst nor the count of draws is in a register. -/
theorem regRead_rst_draws (off : Nat) (s : State) (level : Bool) (n : Nat) :
    regRead off { s with rst := level, draws := n } = regRead off s := rfl

/-! ### O12: the rst input -/

theorem deliver_rst (s : State) : deliver (.rst true) s = .next { hardReset s with rst := true } := rfl

/-- While rst is asserted a read returns the reset value (R321). -/
theorem busRead_rst {s : State} (hr : s.rst = true) (off : Nat) :
    busRead off s = { s with readData := some (resetRead off) } := by simp [busRead, hr]

/-- Settles O12: asserting rst is a hardware reset, and the bus looks at rst before it looks at the registers. -/
theorem rstInputResetsTheUnit : Obligations.RstInputResetsTheUnit := by
  refine ⟨fun s => ?asserted, fun s off v hr h4 hlt => ?held⟩
  case asserted =>
    exact ⟨_, deliver_rst s, rfl, fun off _ _ => (regRead_rst_draws off (hardReset s) true _).trans (regRead_hardReset off s),
      hardReset_freshlyReset s, rfl, rfl⟩
  case held =>
    refine ⟨deliver_write_rst h4 hlt hr v, ?_⟩
    rw [deliver_read h4 hlt, busRead_rst hr]
    rfl

/-! ### O13 and O53: the machine right after reset -/

/-- The machine right after reset has the registers of a hardware reset: it differs from one in the count of draws alone. -/
theorem regRead_resetWith (off : Nat) (p : Params) : regRead off (State.resetWith p) = resetRead off :=
  calc regRead off (State.resetWith p)
    _ = regRead off { hardReset (State.resetWith p) with rst := false, draws := 0 } := rfl
    _ = regRead off (hardReset (State.resetWith p)) := regRead_rst_draws off _ false 0
    _ = resetRead off := regRead_hardReset off _

theorem resetWith_freshlyReset (p : Params) : (State.resetWith p).freshlyReset :=
  hardReset_freshlyReset (State.resetWith p)

/-- Settles O13, by the registers of a hardware reset. -/
theorem resetStateReadsItsResetValues : Obligations.ResetStateReadsItsResetValues := fun p =>
  ⟨fun off _ _ => regRead_resetWith off p, resetWith_freshlyReset p, rfl, rfl⟩

/-- Settles O53: after reset the counts and words are 0, the map is empty, and no flag, command or request is set, so each
clause of the invariant is a fact about 0 or has a false hypothesis. -/
theorem resetMeetsTheInvariant : Obligations.ResetMeetsTheInvariant := fun p h => {
  params := h
  idle := fun _ => rfl
  inReset := fun _ => rfl
  position := fun _ hc => by cases hc
  bufBound := Nat.zero_le 8
  bufFresh := fun hc => by cases hc
  endEmpty := fun _ => rfl
  readAhead := rfl
  accBound := Nat.zero_le 8
  accFull := fun hc => by cases hc
  accZeros := .inr rfl
  noError := fun _ => ⟨rfl, rfl, rfl⟩
  anError := fun he => by cases he
  result := ⟨Nat.zero_le 32, Nat.one_pos⟩
  entries := List.forall_mem_nil _
  codes := .nil
  capacity := Nat.zero_le _
  maxLen := rfl
  doneHdr := fun hd => by cases hd
  candBound := ⟨Nat.zero_le 1, Nat.one_pos⟩
  candShort := fun _ => Nat.le_refl 0
  candHeader := fun _ => ⟨rfl, rfl, rfl⟩
  lastSym := fun hv => by cases hv
  doneEof := fun hd => by cases hd }

end Sys2Proof.Machine
end
